-- ==== Sys2Proof/Word.lean ====
section
/-! DEFINITION. The words of the core: bytes, 32-bit words, and the fixed groups of them that the datapaths
work on (an AES word of 4 bytes, a block of 16 bytes, the 8 words of a SHA-256 hash state). -/

namespace Sys2Proof

/-- One byte (`u8`, 00_scope.md R9). -/
abbrev Byte := BitVec 8

/-- One 32-bit word (`u32`, R9): a register, a command word, a SHA-256 word. -/
abbrev Word := BitVec 32

/-- The number of bytes of system memory (20_memory.md R38). -/
def addressSpace : Nat := 2 ^ 32

/-- The 4 bytes `(b0, b1, b2, b3)` of an AES word, or of one column of the AES state (42_aes_core.md R84). -/
structure Quad where
  b0 : Byte
  b1 : Byte
  b2 : Byte
  b3 : Byte
deriving DecidableEq, Repr

/-- 16 bytes as the four columns of the AES state: byte `r + 4c` is byte `r` of column `c` (R84). -/
structure Block where
  c0 : Quad
  c1 : Quad
  c2 : Quad
  c3 : Quad
deriving DecidableEq, Repr

/-- The SHA-256 hash state `H[0..7]`, and its working variables `a..h` (44_sha256_core.md R111). -/
structure HashState where
  a : Word
  b : Word
  c : Word
  d : Word
  e : Word
  f : Word
  g : Word
  h : Word
deriving DecidableEq, Repr

/-- MBUF (10_state.md R35): the partial SHA-256 message block and the bit count. -/
structure MBuf where
  bytes : List Byte
  bitCount : Nat
deriving DecidableEq, Repr

/-- Four zero bytes. -/
def Quad.zero : Quad := ⟨0, 0, 0, 0⟩

/-- Sixteen zero bytes. -/
def Block.zero : Block := ⟨Quad.zero, Quad.zero, Quad.zero, Quad.zero⟩

/-- Eight zero words. -/
def HashState.zero : HashState := ⟨0, 0, 0, 0, 0, 0, 0, 0⟩

/-- XOR byte by byte. -/
def Quad.xor (x y : Quad) : Quad :=
  ⟨x.b0 ^^^ y.b0, x.b1 ^^^ y.b1, x.b2 ^^^ y.b2, x.b3 ^^^ y.b3⟩

/-- XOR byte by byte. -/
def Block.xor (x y : Block) : Block :=
  ⟨x.c0.xor y.c0, x.c1.xor y.c1, x.c2.xor y.c2, x.c3.xor y.c3⟩

/-- The bytes `b0..b3` in order. -/
def Quad.toBytes (q : Quad) : List Byte := [q.b0, q.b1, q.b2, q.b3]

/-- The bytes `out[r + 4c] = s[r][c]` in order (R84). -/
def Block.toBytes (s : Block) : List Byte :=
  [s.c0.b0, s.c0.b1, s.c0.b2, s.c0.b3, s.c1.b0, s.c1.b1, s.c1.b2, s.c1.b3,
   s.c2.b0, s.c2.b1, s.c2.b2, s.c2.b3, s.c3.b0, s.c3.b1, s.c3.b2, s.c3.b3]

/-- The four bytes of `bs` from index `i` on. -/
def Quad.ofBytes (bs : List Byte) (i : Nat) : Quad :=
  ⟨bs.getD i 0, bs.getD (i + 1) 0, bs.getD (i + 2) 0, bs.getD (i + 3) 0⟩

/-- The block whose bytes are `bs[0..15]`: `s[r][c] = in[r + 4c]` (R84). -/
def Block.ofBytes (bs : List Byte) : Block :=
  ⟨Quad.ofBytes bs 0, Quad.ofBytes bs 4, Quad.ofBytes bs 8, Quad.ofBytes bs 12⟩

end Sys2Proof
end

