-- ==== Sys2Proof/Syntax.lean ====
section
/-! DEFINITION. The ten commands of the core, one constructor per row of spec/opcode_table.json
(30_encoding.md R62). Addresses and lengths are no part of a command word: they come from the latched operand
registers (R65). -/

namespace Sys2Proof

/-- A command: its opcode with the fields its opcode-table row leaves free, the catalogue index `k` (ARG) and
the output form RAW. -/
inductive Instr where
  /-- LOAD_SKEY, OP = 0x01 (40_key_store.md R73). -/
  | loadSkey
  /-- DECODE_INDEX, OP = 0x02 (41_index_decoder.md R79). -/
  | decodeIndex
  /-- ENCRYPT_INDEX, OP = 0x03 (43_cbc_commands.md R101). -/
  | encryptIndex
  /-- DECRYPT_INDEX, OP = 0x04 (R102). -/
  | decryptIndex
  /-- ENCRYPT_RAW, OP = 0x05 (R103). -/
  | encryptRaw
  /-- DECRYPT_RAW, OP = 0x06 (R104). -/
  | decryptRaw
  /-- FINGERPRINT, OP = 0x07 (45_fingerprint.md R119). -/
  | fingerprint (raw : Bool)
  /-- FINGERPRINT_CAT, OP = 0x08 (R120). -/
  | fingerprintCat (k : Nat) (raw : Bool)
  /-- FINGERPRINT_ALL, OP = 0x09 (R121). -/
  | fingerprintAll (raw : Bool)
  /-- CATALOGUE_NAME, OP = 0x0A (R122). -/
  | catalogueName (k : Nat)
deriving DecidableEq, Repr

end Sys2Proof
end

