-- ==== Sys2Proof/WellFormed.lean ====
section
/-! DEFINITION. Which commands a command word can hold: the ARG field has 8 bits (30_encoding.md R60). -/

namespace Sys2Proof

/-- ARG fits its 8-bit field. An index from 12 to 255 is well-formed: it is legal, and the command then ends
with CAT_INDEX (30_encoding.md R63, 60_exceptions.md R136). -/
def Instr.wf (i : Instr) : Bool :=
  match i with
  | .loadSkey => true
  | .decodeIndex => true
  | .encryptIndex => true
  | .decryptIndex => true
  | .encryptRaw => true
  | .decryptRaw => true
  | .fingerprint _ => true
  | .fingerprintCat k _ => decide (k < 256)
  | .fingerprintAll _ => true
  | .catalogueName k => decide (k < 256)

end Sys2Proof
end

