-- ==== Sys2Proof/Decode.lean ====
section
/-! DEFINITION. The command word: its fields (30_encoding.md R60), the decoder (R63, R64) and the encoder. -/

namespace Sys2Proof

/-- Why a command word is not legal (R64). Every reason completes with ILLEGAL (60_exceptions.md R129). -/
inductive Reject where
  /-- OP is 0x00 or 0x0B to 0xFF. -/
  | opcode
  /-- A bit of RSV (31:17) is set. -/
  | reserved
  /-- RAW is set on an opcode that takes none. -/
  | raw
  /-- ARG is not 0 on an opcode that takes none. -/
  | arg
deriving DecidableEq, Repr

/-- OP, bits 7:0 (R60). -/
def opField (v : Word) : Nat := (v.extractLsb' 0 8).toNat

/-- ARG, bits 15:8, zero-extended (R60, R65). -/
def argField (v : Word) : Nat := (v.extractLsb' 8 8).toNat

/-- RAW, bit 16 (R60). -/
def rawField (v : Word) : Bool := v.getLsbD 16

/-- RSV, bits 31:17 (R60). -/
def rsvField (v : Word) : Nat := (v.extractLsb' 17 15).toNat

/-- The opcodes whose RAW bit may be set (R63). -/
def takesRaw (op : Nat) : Bool := op == 0x07 || op == 0x08 || op == 0x09

/-- The opcodes whose ARG may be non-zero (R63). -/
def takesArg (op : Nat) : Bool := op == 0x08 || op == 0x0A

/-- The command of opcode `op` with the fields `k` and `raw` (R62). -/
def ofOpcode (op k : Nat) (raw : Bool) : Option Instr :=
  match op with
  | 0x01 => some .loadSkey
  | 0x02 => some .decodeIndex
  | 0x03 => some .encryptIndex
  | 0x04 => some .decryptIndex
  | 0x05 => some .encryptRaw
  | 0x06 => some .decryptRaw
  | 0x07 => some (.fingerprint raw)
  | 0x08 => some (.fingerprintCat k raw)
  | 0x09 => some (.fingerprintAll raw)
  | 0x0A => some (.catalogueName k)
  | _ => none

/-- The command a word stands for, or why it is illegal (R63, R64). -/
def decode (v : Word) : Except Reject Instr :=
  match ofOpcode (opField v) (argField v) (rawField v) with
  | none => .error .opcode
  | some i =>
    if rsvField v ≠ 0 then .error .reserved
    else if rawField v && !takesRaw (opField v) then .error .raw
    else if argField v ≠ 0 && !takesArg (opField v) then .error .arg
    else .ok i

/-- The opcode of a command (R62). -/
def Instr.opcode (i : Instr) : Nat :=
  match i with
  | .loadSkey => 0x01
  | .decodeIndex => 0x02
  | .encryptIndex => 0x03
  | .decryptIndex => 0x04
  | .encryptRaw => 0x05
  | .decryptRaw => 0x06
  | .fingerprint _ => 0x07
  | .fingerprintCat _ _ => 0x08
  | .fingerprintAll _ => 0x09
  | .catalogueName _ => 0x0A

/-- ARG of a command, 0 where it takes none. -/
def Instr.arg (i : Instr) : Nat :=
  match i with
  | .fingerprintCat k _ => k
  | .catalogueName k => k
  | .loadSkey | .decodeIndex | .encryptIndex | .decryptIndex | .encryptRaw | .decryptRaw
  | .fingerprint _ | .fingerprintAll _ => 0

/-- RAW of a command, false where it takes none. -/
def Instr.raw (i : Instr) : Bool :=
  match i with
  | .fingerprint raw => raw
  | .fingerprintCat _ raw => raw
  | .fingerprintAll raw => raw
  | .loadSkey | .decodeIndex | .encryptIndex | .decryptIndex | .encryptRaw | .decryptRaw
  | .catalogueName _ => false

/-- The command word `OP OR (k << 8) OR (RAW << 16)` (R72). -/
def encode (i : Instr) : Word :=
  BitVec.ofNat 32 i.opcode ||| (BitVec.ofNat 32 i.arg <<< 8) ||| (if i.raw then 0x00010000#32 else 0#32)

/-- The words the opcode map allows, as R63 states it: OP is one of the ten, RSV is 0, RAW is 0 but for 0x07 to
0x09, and ARG is 0 but for 0x08 and 0x0A. -/
def legalWord (v : Word) : Bool :=
  (decide (1 ≤ opField v) && decide (opField v ≤ 0x0A)) && rsvField v == 0
    && (!rawField v || takesRaw (opField v)) && (argField v == 0 || takesArg (opField v))

/-- The command that an instruction of `nbits` bits, numbered as spec/opcode_table.json numbers them, stands for.
A command word is one 32-bit word written whole (R61), so the word's bits are the instruction's bits. -/
def decodeTableWord (nbits w : Nat) : Option Instr :=
  if w % 2 ^ nbits < 2 ^ 32 then
    match decode (BitVec.ofNat 32 (w % 2 ^ nbits)) with
    | .ok i => some i
    | .error _ => none
  else none

end Sys2Proof
end

