-- ==== Sys2Proof/Machine/Aes.lean ====
section
/-! DEFINITION. The AES-256 block cipher core (42_aes_core.md R80 to R91). -/

namespace Sys2Proof.Machine

/-- Multiplication by `x` in GF(2^8) modulo 0x11B (R80). -/
def xtime (a : Byte) : Byte := (a <<< 1) ^^^ (if a.getLsbD 7 then 0x1B#8 else 0#8)

/-- The loop of R80's `gmul` for the low `n` bits of `b`, with the sum so far in `r`. -/
def gmulLoop (n : Nat) (a b r : Byte) : Byte :=
  match n with
  | 0 => r
  | n + 1 => gmulLoop n (xtime a) (b >>> 1) (if b.getLsbD 0 then r ^^^ a else r)

/-- `a • b`, the product in GF(2^8) (R80). A byte has 8 bits, so the loop ends in 8 turns. -/
def gmul (a b : Byte) : Byte := gmulLoop 8 a b 0

/-- A 256-byte table of 16 rows, row = high nibble of `a`, column = low nibble, first column most significant. -/
def tableByte (rows : List (BitVec 128)) (a : Byte) : Byte :=
  (rows.getD (a.toNat / 16) 0).extractLsb' (8 * (15 - a.toNat % 16)) 8

/-- The rows of R81's table. -/
def sboxRows : List (BitVec 128) :=
  [0x637C777BF26B6FC53001672BFED7AB76, 0xCA82C97DFA5947F0ADD4A2AF9CA472C0,
   0xB7FD9326363FF7CC34A5E5F171D83115, 0x04C723C31896059A071280E2EB27B275,
   0x09832C1A1B6E5AA0523BD6B329E32F84, 0x53D100ED20FCB15B6ACBBE394A4C58CF,
   0xD0EFAAFB434D338545F9027F503C9FA8, 0x51A3408F929D38F5BCB6DA2110FFF3D2,
   0xCD0C13EC5F974417C4A77E3D645D1973, 0x60814FDC222A908846EEB814DE5E0BDB,
   0xE0323A0A4906245CC2D3AC629195E479, 0xE7C8376D8DD54EA96C56F4EA657AAE08,
   0xBA78252E1CA6B4C6E8DD741F4BBD8B8A, 0x703EB5664803F60E613557B986C11D9E,
   0xE1F8981169D98E949B1E87E9CE5528DF, 0x8CA1890DBFE6426841992D0FB054BB16]

/-- The rows of R82's table. -/
def invSboxRows : List (BitVec 128) :=
  [0x52096AD53036A538BF40A39E81F3D7FB, 0x7CE339829B2FFF87348E4344C4DEE9CB,
   0x547B9432A6C2233DEE4C950B42FAC34E, 0x082EA16628D924B2765BA2496D8BD125,
   0x72F8F66486689816D4A45CCC5D65B692, 0x6C704850FDEDB9DA5E154657A78D9D84,
   0x90D8AB008CBCD30AF7E45805B8B34506, 0xD02C1E8FCA3F0F02C1AFBD0301138A6B,
   0x3A9111414F67DCEA97F2CFCEF0B4E673, 0x96AC7422E7AD3585E2F937E81C75DF6E,
   0x47F11A711D29C5896FB7620EAA18BE1B, 0xFC563E4BC6D279209ADBC0FE78CD5AF4,
   0x1FDDA8338807C731B11210592780EC5F, 0x60517FA919B54A0D2DE57A9F93C99CEF,
   0xA0E03B4DAE2AF5B0C8EBBB3C83539961, 0x172B047EBA77D626E169146355210C7D]

/-- SBOX (R81). -/
def sbox (a : Byte) : Byte := tableByte sboxRows a

/-- INV_SBOX (R82). -/
def invSbox (a : Byte) : Byte := tableByte invSboxRows a

/-- `RC[j]`: `RC[1] = 0x01`, `RC[j] = xtime(RC[j-1])` (R83). -/
def roundConstant (j : Nat) : Byte :=
  match j with
  | 0 => 0
  | 1 => 1
  | j + 2 => xtime (roundConstant (j + 1))

/-- `Rcon[j] = (RC[j], 0x00, 0x00, 0x00)` (R83). -/
def rcon (j : Nat) : Quad := ⟨roundConstant j, 0, 0, 0⟩

/-- A function of a byte applied to each byte of a word. -/
def mapQuad (f : Byte → Byte) (q : Quad) : Quad := ⟨f q.b0, f q.b1, f q.b2, f q.b3⟩

/-- A function of a byte applied to each byte of the state. -/
def mapBlock (f : Byte → Byte) (s : Block) : Block :=
  ⟨mapQuad f s.c0, mapQuad f s.c1, mapQuad f s.c2, mapQuad f s.c3⟩

/-- SubBytes (R85). -/
def subBytes (s : Block) : Block := mapBlock sbox s

/-- InvSubBytes (R85). -/
def invSubBytes (s : Block) : Block := mapBlock invSbox s

/-- ShiftRows: `s'[r][c] = s[r][(c + r) mod 4]` (R86). -/
def shiftRows (s : Block) : Block :=
  ⟨⟨s.c0.b0, s.c1.b1, s.c2.b2, s.c3.b3⟩, ⟨s.c1.b0, s.c2.b1, s.c3.b2, s.c0.b3⟩,
   ⟨s.c2.b0, s.c3.b1, s.c0.b2, s.c1.b3⟩, ⟨s.c3.b0, s.c0.b1, s.c1.b2, s.c2.b3⟩⟩

/-- InvShiftRows: `s'[r][(c + r) mod 4] = s[r][c]` (R86). -/
def invShiftRows (s : Block) : Block :=
  ⟨⟨s.c0.b0, s.c3.b1, s.c2.b2, s.c1.b3⟩, ⟨s.c1.b0, s.c0.b1, s.c3.b2, s.c2.b3⟩,
   ⟨s.c2.b0, s.c1.b1, s.c0.b2, s.c3.b3⟩, ⟨s.c3.b0, s.c2.b1, s.c1.b2, s.c0.b3⟩⟩

/-- One column under R87's matrix, whose first row is `k0 k1 k2 k3` and whose each next row is the one above
rotated right. -/
def mixQuad (k0 k1 k2 k3 : Byte) (q : Quad) : Quad :=
  ⟨gmul k0 q.b0 ^^^ gmul k1 q.b1 ^^^ gmul k2 q.b2 ^^^ gmul k3 q.b3,
   gmul k3 q.b0 ^^^ gmul k0 q.b1 ^^^ gmul k1 q.b2 ^^^ gmul k2 q.b3,
   gmul k2 q.b0 ^^^ gmul k3 q.b1 ^^^ gmul k0 q.b2 ^^^ gmul k1 q.b3,
   gmul k1 q.b0 ^^^ gmul k2 q.b1 ^^^ gmul k3 q.b2 ^^^ gmul k0 q.b3⟩

/-- MixColumns on one column: coefficients 02, 03, 01, 01 (R87). -/
def mixColumn (q : Quad) : Quad := mixQuad 0x02 0x03 0x01 0x01 q

/-- InvMixColumns on one column: coefficients 0E, 0B, 0D, 09 (R87). -/
def invMixColumn (q : Quad) : Quad := mixQuad 0x0E 0x0B 0x0D 0x09 q

/-- MixColumns (R87). -/
def mixColumns (s : Block) : Block :=
  ⟨mixColumn s.c0, mixColumn s.c1, mixColumn s.c2, mixColumn s.c3⟩

/-- InvMixColumns (R87). -/
def invMixColumns (s : Block) : Block :=
  ⟨invMixColumn s.c0, invMixColumn s.c1, invMixColumn s.c2, invMixColumn s.c3⟩

/-- Word `i` of a key schedule. -/
def scheduleWord (w : List Quad) (i : Nat) : Quad := w.getD i Quad.zero

/-- Round key `rnd`: `w[4rnd .. 4rnd+3]` (R89). -/
def roundKey (w : List Quad) (rnd : Nat) : Block :=
  ⟨scheduleWord w (4 * rnd), scheduleWord w (4 * rnd + 1), scheduleWord w (4 * rnd + 2),
   scheduleWord w (4 * rnd + 3)⟩

/-- AddRoundKey (R88). -/
def addRoundKey (s : Block) (w : List Quad) (rnd : Nat) : Block := s.xor (roundKey w rnd)

/-- RotWord (R89). -/
def rotWord (q : Quad) : Quad := ⟨q.b1, q.b2, q.b3, q.b0⟩

/-- SubWord (R89). -/
def subWord (q : Quad) : Quad := mapQuad sbox q

/-- `w[i]` from the words before it, for `i` from 8 on (R89). -/
def nextScheduleWord (w : List Quad) (i : Nat) : Quad :=
  let t := scheduleWord w (i - 1)
  let t :=
    if i % 8 = 0 then (subWord (rotWord t)).xor (rcon (i / 8))
    else if i % 8 = 4 then subWord t
    else t
  (scheduleWord w (i - 8)).xor t

/-- The schedule `w` of `i` words with `n` more. -/
def expandFrom (n i : Nat) (w : List Quad) : List Quad :=
  match n with
  | 0 => w
  | n + 1 => expandFrom n (i + 1) (w ++ [nextScheduleWord w i])

/-- `w[0..7]`: the key's words (R89). -/
def keyWords (key : List Byte) : List Quad := (List.range 8).map fun i => Quad.ofBytes key (4 * i)

/-- `KeyExpansion(key)`: the 60 words `w[0..59]` (R89). -/
@[irreducible] def keyExpansion (key : List Byte) : List Quad := expandFrom 52 8 (keyWords key)

/-- One of rounds 1 to 13 of the cipher (R90). -/
def encryptRound (w : List Quad) (s : Block) (rnd : Nat) : Block :=
  addRoundKey (mixColumns (shiftRows (subBytes s))) w rnd

/-- One of rounds 13 to 1 of the inverse cipher (R91). -/
def decryptRound (w : List Quad) (s : Block) (rnd : Nat) : Block :=
  invMixColumns (addRoundKey (invSubBytes (invShiftRows s)) w rnd)

/-- `AES256_Encrypt(w, in)` (R90). -/
@[irreducible] def aesEncrypt (w : List Quad) (s : Block) : Block :=
  addRoundKey
    (shiftRows (subBytes
      ([1, 2, 3, 4, 5, 6, 7, 8, 9, 10, 11, 12, 13].foldl (encryptRound w) (addRoundKey s w 0)))) w 14

/-- `AES256_Decrypt(w, in)` (R91). -/
@[irreducible] def aesDecrypt (w : List Quad) (s : Block) : Block :=
  addRoundKey
    (invSubBytes (invShiftRows
      ([13, 12, 11, 10, 9, 8, 7, 6, 5, 4, 3, 2, 1].foldl (decryptRound w) (addRoundKey s w 14)))) w 0

end Sys2Proof.Machine
end

