-- ==== Sys2Proof/Machine/Utf8.lean ====
section
/-! DEFINITION. Well-formed UTF-8 (45_fingerprint.md R114) and the byte-lexicographic order (00_scope.md R10). -/

namespace Sys2Proof.Machine

/-- One row of R114's table: the allowed range of each byte of a scalar, first byte first. -/
abbrev Utf8Row := List (Nat × Nat)

/-- R114's table, row by row. -/
def utf8Rows : List Utf8Row :=
  [ [(0x00, 0x7F)],
    [(0xC2, 0xDF), (0x80, 0xBF)],
    [(0xE0, 0xE0), (0xA0, 0xBF), (0x80, 0xBF)],
    [(0xE1, 0xEC), (0x80, 0xBF), (0x80, 0xBF)],
    [(0xED, 0xED), (0x80, 0x9F), (0x80, 0xBF)],
    [(0xEE, 0xEF), (0x80, 0xBF), (0x80, 0xBF)],
    [(0xF0, 0xF0), (0x90, 0xBF), (0x80, 0xBF), (0x80, 0xBF)],
    [(0xF1, 0xF3), (0x80, 0xBF), (0x80, 0xBF), (0x80, 0xBF)],
    [(0xF4, 0xF4), (0x80, 0x8F), (0x80, 0xBF), (0x80, 0xBF)] ]

/-- The bytes at the start of `bs` that fill `row`, and the rest; none where a byte is missing or out of range. -/
def matchRow (row : Utf8Row) (bs : List Byte) : Option (List Byte × List Byte) :=
  match row, bs with
  | [], bs => some ([], bs)
  | _ :: _, [] => none
  | (lo, hi) :: row, b :: bs =>
    if lo ≤ b.toNat ∧ b.toNat ≤ hi then
      match matchRow row bs with
      | some (scalar, rest) => some (b :: scalar, rest)
      | none => none
    else none

/-- The first scalar of `bs` and the rest: the row that matches (at most one does, since the first-byte ranges
of the rows are disjoint). -/
def takeScalar (rows : List Utf8Row) (bs : List Byte) : Option (List Byte × List Byte) :=
  match rows with
  | [] => none
  | row :: rows =>
    match matchRow row bs with
    | some r => some r
    | none => takeScalar rows bs

/-- `Scalars(N)` with at most `fuel` scalars. -/
def scalarsFuel (fuel : Nat) (bs : List Byte) : Option (List (List Byte)) :=
  match fuel, bs with
  | _, [] => some []
  | 0, _ :: _ => none
  | fuel + 1, b :: bs =>
    match takeScalar utf8Rows (b :: bs) with
    | none => none
    | some (scalar, rest) =>
      match scalarsFuel fuel rest with
      | none => none
      | some l => some (scalar :: l)

/-- `Scalars(N)`: the scalars of a well-formed name in order, none where the name is ill-formed (R114). A scalar
has at least one byte, so a name of `n` bytes has at most `n` scalars. -/
def scalars (name : List Byte) : Option (List (List Byte)) := scalarsFuel name.length name

/-- A well-formed name (R114). -/
def wellFormedUtf8 (name : List Byte) : Bool := (scalars name).isSome

/-- Byte-lexicographic order: the first differing byte decides, and a proper prefix is smaller (R10). -/
def lexLt (x y : List Byte) : Bool :=
  match x, y with
  | [], [] => false
  | [], _ :: _ => true
  | _ :: _, [] => false
  | a :: x, b :: y => decide (a.toNat < b.toNat) || (a == b && lexLt x y)

end Sys2Proof.Machine
end

