-- ==== Sys2Proof/Config.lean ====
section
/-! DEFINITION. The instance parameters of 00_scope.md R7, as plain data, with the conditions the spec puts on
them, and the instance that State.reset is an instance of: every parameter the spec leaves OPEN is a free value
there (an opaque constant), so no claim can rest on it. -/

namespace Sys2Proof

/-- The addresses `lo ≤ a < hi`. -/
structure AddrRange where
  lo : Nat
  hi : Nat
deriving DecidableEq, Repr

/-- The direction of an engine access (00_scope.md R7). -/
inductive Dir where
  | read
  | write
deriving DecidableEq, Repr

/-- The addresses `lo ≤ a < hi` at which an engine access in direction `dir` gets an error response. -/
structure BusErrRange where
  dir : Dir
  lo : Nat
  hi : Nat
deriving DecidableEq, Repr

/-- A catalogue name: at least one byte (10_state.md R36). -/
structure Name where
  first : Byte
  rest : List Byte
deriving DecidableEq, Repr

/-- The bytes of a catalogue name. -/
def Name.bytes (n : Name) : List Byte := n.first :: n.rest

/-- The parameters of one core instance (R7). Each is fixed for the instance: no step changes one. -/
structure Config where
  /-- BASE: the host bus address of the 256-byte register window. -/
  base : Nat
  /-- SKEY_MAX: the capacity of the static-key store in bytes. -/
  skeyMax : Nat
  /-- CATALOGUE: the twelve names in order. -/
  catalogue : List Name
  /-- BUS_ERR: where the engine's accesses get an error response. Every predicate on the 2^32 addresses and two
  directions is a finite list of ranges. -/
  busErr : List BusErrRange
  /-- HOST_COHERENT: whether host caches are coherent with the engine's DMA (20_memory.md R59). -/
  hostCoherent : Bool
  /-- The addresses that are not plain memory: device registers, side-effecting memory, the core's own window
  where the platform maps it into system memory (20_memory.md R41, 70_reset_and_hazards.md R155). -/
  devices : List AddrRange
deriving DecidableEq, Repr

/-- `BUS_ERR(a, dir)` (R7). -/
def Config.busErrAt (c : Config) (a : Nat) (d : Dir) : Bool :=
  c.busErr.any fun r => r.dir == d && (decide (r.lo ≤ a) && decide (a < r.hi))

/-- Whether address `a` is a device's (R41). -/
def Config.deviceAt (c : Config) (a : Nat) : Bool :=
  c.devices.any fun r => decide (r.lo ≤ a) && decide (a < r.hi)

/-- Whether the `n` bytes from `a` reach a device (R41, R155). -/
def Config.reachesDevice (c : Config) (a n : Nat) : Bool :=
  c.devices.any fun r => decide (r.lo < a + n) && (decide (a < r.hi) && (decide (r.lo < r.hi) && decide (0 < n)))

/-- CAT_COUNT (R7). -/
def catCount : Nat := 12

/-- `CATALOGUE[k]`, empty beyond the catalogue's end. -/
def Config.name (c : Config) (k : Nat) : List Byte :=
  match c.catalogue[k]? with
  | some n => n.bytes
  | none => []

/-- "Session_ID" (R7). -/
def nameSessionId : List Byte := [0x53, 0x65, 0x73, 0x73, 0x69, 0x6F, 0x6E, 0x5F, 0x49, 0x44]

/-- "FriendsCache" (R7). -/
def nameFriendsCache : List Byte :=
  [0x46, 0x72, 0x69, 0x65, 0x6E, 0x64, 0x73, 0x43, 0x61, 0x63, 0x68, 0x65]

/-- "CombinedPlayerData" (R7). -/
def nameCombinedPlayerData : List Byte :=
  [0x43, 0x6F, 0x6D, 0x62, 0x69, 0x6E, 0x65, 0x64, 0x50, 0x6C, 0x61, 0x79, 0x65, 0x72, 0x44, 0x61, 0x74, 0x61]

/-- Strictly ascending in byte-lexicographic order, so distinct (10_state.md R36). -/
def ascending (names : List (List Byte)) : Bool :=
  match names with
  | [] => true
  | [_] => true
  | x :: y :: rest => Machine.lexLt x y && ascending (y :: rest)

/-- What R36 and R7 require of CATALOGUE: 12 well-formed names of 1 to 255 bytes, strictly ascending, the three
named ones among them. -/
def catalogueWf (names : List Name) : Bool :=
  names.length == catCount
    && names.all (fun n => Machine.wellFormedUtf8 n.bytes && decide (n.bytes.length ≤ 255))
    && ascending (names.map Name.bytes)
    && (names.map Name.bytes).contains nameSessionId
    && (names.map Name.bytes).contains nameFriendsCache
    && (names.map Name.bytes).contains nameCombinedPlayerData

/-- What R7 requires of the parameters. -/
def Config.wf (c : Config) : Bool :=
  c.base % 256 == 0 && (decide (1 ≤ c.skeyMax) && decide (c.skeyMax ≤ 65535)) && catalogueWf c.catalogue

/-- A name from its bytes, for non-empty byte strings. -/
def Name.ofBytes (bs : List Byte) : Name := ⟨bs.headD 0, bs.drop 1⟩

/-- The names of the spec's test catalogue (95_test_vectors.md section 2): the three named ones and
"Placeholder_01" to "Placeholder_09". It stands in only where the free names are no legal catalogue. -/
def placeholderCatalogue : List Name :=
  Name.ofBytes nameCombinedPlayerData :: Name.ofBytes nameFriendsCache ::
    ((List.range 9).map fun j =>
      (⟨0x50, [0x6C, 0x61, 0x63, 0x65, 0x68, 0x6F, 0x6C, 0x64, 0x65, 0x72, 0x5F, 0x30,
        BitVec.ofNat 8 (0x31 + j)]⟩ : Name))
    ++ [Name.ofBytes nameSessionId]

/-- Free: the register window's address, in units of 256 bytes (R7, OPEN; log 1). -/
opaque Config.freeBase : Nat

/-- Free: the catalogue's names (R7, OPEN; log 1). -/
opaque Config.freeNames : List (Byte × List Byte)

/-- Free: the accesses that get an error response (R7, OPEN; log 1). -/
opaque Config.freeBusErr : List (Bool × Nat × Nat)

/-- Free: whether host caches are coherent (R7, OPEN; log 1). -/
opaque Config.freeCoherent : Bool

/-- Free: the addresses that are not plain memory (20_memory.md R41; log 1). -/
opaque Config.freeDevices : List (Nat × Nat)

/-- Free: the byte a device answers a host's read with (20_memory.md R41 gives none; log 16), from how many answers the
host has had before and from the address. -/
opaque Config.freeDeviceByte : Nat → Nat → Byte

/-- The free names where they make a legal catalogue, the spec's test catalogue otherwise: any legal catalogue,
and always a legal one. -/
def Config.someCatalogue : List Name :=
  let free := Config.freeNames.map fun p => (⟨p.1, p.2⟩ : Name)
  if catalogueWf free then free else placeholderCatalogue

/-- Entry `k` of that catalogue, as a name with its first byte and its rest. -/
def Config.someName (k : Nat) : Name :=
  ⟨(Config.someCatalogue.getD k ⟨0, []⟩).first, (Config.someCatalogue.getD k ⟨0, []⟩).rest⟩

/-- The instance of State.reset: SKEY_MAX = 256, the spec's default instance (R7), and every OPEN parameter free. -/
def Config.default : Config where
  base := 256 * Config.freeBase
  skeyMax := 256
  catalogue :=
    [someName 0, someName 1, someName 2, someName 3, someName 4, someName 5,
     someName 6, someName 7, someName 8, someName 9, someName 10, someName 11]
  busErr := Config.freeBusErr.map fun p => ⟨if p.1 then .write else .read, p.2.1, p.2.2⟩
  hostCoherent := Config.freeCoherent
  devices := Config.freeDevices.map fun p => ⟨p.1, p.2⟩

end Sys2Proof
end

