-- ==== Sys2Proof/Machine/State.lean ====
section
/-! DEFINITION. The state of the core as plain data, the reasons a step can stop, and the state after reset
(10_state.md R19 to R37, 70_reset_and_hazards.md R150). -/

namespace Sys2Proof.Machine

/-- System memory (20_memory.md R38): the bytes that differ from what an unlisted address reads as, by strictly
rising address. -/
abbrev Memory := List Host.Cell

/-- The operand latch `L` (R34). -/
structure Latch where
  cmd : Word
  srcAddr : Word
  srcLen : Word
  auxAddr : Word
  auxLen : Word
  dstAddr : Word
  dstLen : Word
deriving DecidableEq, Repr

/-- The working state of the running command (R35), none of it MMIO-visible. -/
structure Work where
  /-- KEY, 32 bytes. -/
  key : List Byte
  /-- IV, 16 bytes. -/
  iv : Block
  /-- RK, the 60 words of the key schedule. -/
  rk : List Quad
  /-- CHAIN, the CBC chaining value. -/
  chain : Block
  /-- BLK, the current block. -/
  blk : Block
  /-- H, the SHA-256 hash state. -/
  h : HashState
  /-- MBUF, the partial message block and the bit count. -/
  mbuf : MBuf
  /-- DBUF, the index blob and then the deobfuscated buffer. -/
  dbuf : List Byte
  /-- W, the destination bytes written so far, in order. -/
  written : List Word
deriving DecidableEq, Repr

/-- What one byte of a running command's output extent holds after a reset (70_reset_and_hazards.md R150): the
environment chooses. -/
inductive Residue where
  /-- What memory holds at the reset. -/
  | asIs
  /-- The byte that stood there before the command wrote it. -/
  | old
  /-- The byte the command wrote. -/
  | written
  /-- 0x00. -/
  | zero
deriving DecidableEq, Repr

/-- One step of the environment: a host step, the reset input, or the mark that the engine's turn comes
(10_state.md R14, R15). -/
inductive Event where
  /-- The engine makes its next step here. -/
  | engine
  /-- The host reads `bits` bits over MMIO at host bus address `addr` (R15(a), 20_memory.md R40). -/
  | mmioRead (addr bits : Nat)
  /-- The host writes `v`, `bits` bits wide, over MMIO at host bus address `addr`. -/
  | mmioWrite (addr bits : Nat) (v : Word)
  /-- The host reads one byte of system memory (20_memory.md R53). -/
  | memRead (a : Word)
  /-- The host's store of one byte reaches the memory point (R53). -/
  | memWrite (a : Word) (v : Byte)
  /-- The reset input is asserted (R150); the list chooses the extent's bytes in order, `asIs` beyond its end. -/
  | reset (residue : List Residue)
deriving DecidableEq, Repr

/-- What a host access was answered with. -/
inductive Reply where
  /-- The value of an MMIO register. -/
  | word (v : Word)
  /-- A byte of system memory. -/
  | byte (v : Byte)
  /-- An error response on the host bus, no data (R40). -/
  | busError
deriving DecidableEq, Repr

/-- The state of the core, of system memory and of what the environment still does. -/
structure State where
  /-- The instance parameters (00_scope.md R7); no step changes them. -/
  cfg : Config
  /-- CMD, 0x008: the last accepted command word (R22). -/
  cmd : Word
  /-- STATUS, 0x00C (R24): BUSY 0, DONE 1, SKEY_VALID 2, OVR 3. -/
  status : Word
  /-- RESULT, 0x010 (R25). -/
  result : Word
  /-- OUT_LEN, 0x014 (R26). -/
  outLen : Word
  /-- ERR_ADDR, 0x018 (R27). -/
  errAddr : Word
  /-- IRQ_EN, 0x01C (R28): DONE_IE 0. -/
  irqEn : Word
  /-- IRQ_STAT, 0x020 (R29): DONE_IP 0. -/
  irqStat : Word
  /-- SRC_ADDR, 0x024 (R30). -/
  srcAddr : Word
  /-- SRC_LEN, 0x028 (R30). -/
  srcLen : Word
  /-- AUX_ADDR, 0x02C (R30). -/
  auxAddr : Word
  /-- AUX_LEN, 0x030 (R30). -/
  auxLen : Word
  /-- DST_ADDR, 0x034 (R30). -/
  dstAddr : Word
  /-- DST_LEN, 0x038 (R30). -/
  dstLen : Word
  /-- SKEY_LEN, 0x03C (R31). -/
  skeyLen : Word
  /-- SKEY_RAM, SKEY_MAX bytes (R33). -/
  skeyRam : List Byte
  /-- The operand latch `L` (R34). -/
  latch : Latch
  /-- The working state (R35). -/
  work : Work
  /-- System memory (20_memory.md R38). -/
  mem : Memory
  /-- The model's own (log 13): for each entry of W, the byte it replaced and the byte written. -/
  journal : List (Byte × Byte)
  /-- The model's own (log 13): the size of the running command's output extent. -/
  extent : Nat
  /-- The model's own (log 3): what the environment does from here on, and where the engine's turns fall. -/
  env : List Event
  /-- The model's own (log 13): what the host's accesses were answered with, newest first. -/
  replies : List Reply
deriving DecidableEq, Repr

/-- A step that stops the machine. -/
inductive Fault where
  /-- A DMA byte access at an address of 2^32 or more, outside system memory (20_memory.md R38). Raised by the
  engine's byte accesses; CheckRegions (60_exceptions.md R138) keeps every command from it. Safe. -/
  | addressSpace (a : Nat)
deriving DecidableEq, Repr

/-- A step to which the spec gives no meaning. -/
inductive Refusal where
  /-- An instruction without a meaning in this model. Raised by an arm of `exec`. Safe. -/
  | notModelled (mnemonic : String)
  /-- A command whose region of `len` bytes at `addr` reaches memory that is not plain: "a model must refuse it"
  (20_memory.md R41, 70_reset_and_hazards.md R155). Raised by the region check of a command. Safe. -/
  | notPlainMemory (addr len : Nat)
deriving DecidableEq, Repr

/-- The latch after reset (R150: "latch `L`, working state, `W`: all zero or empty"). -/
def Latch.zero : Latch := ⟨0, 0, 0, 0, 0, 0, 0⟩

/-- The working state after reset and after every completion (R150, 60_exceptions.md R140). -/
def Work.zero : Work where
  key := List.replicate 32 0
  iv := Block.zero
  rk := List.replicate 60 Quad.zero
  chain := Block.zero
  blk := Block.zero
  h := HashState.zero
  mbuf := ⟨[], 0⟩
  dbuf := []
  written := []

/-- The machine right after reset (R150): every register 0, the static-key store zero and unlocked, nothing
written in memory, nothing scheduled. The instance is the spec's default one, with its OPEN parameters free. -/
def State.reset : State where
  cfg := Config.default
  cmd := 0
  status := 0
  result := 0
  outLen := 0
  errAddr := 0
  irqEn := 0
  irqStat := 0
  srcAddr := 0
  srcLen := 0
  auxAddr := 0
  auxLen := 0
  dstAddr := 0
  dstLen := 0
  skeyLen := 0
  skeyRam := List.replicate 256 0
  latch := Latch.zero
  work := Work.zero
  mem := []
  journal := []
  extent := 0
  env := []
  replies := []

end Sys2Proof.Machine
end

