-- ==== Sys2Proof/Machine/Flags.lean ====
section
/-! DEFINITION. The core's only flags: the bits of STATUS, IRQ_EN and IRQ_STAT (10_state.md R24, R28, R29), the
error codes of RESULT (60_exceptions.md R124), and the interrupt line (R143). There are no condition codes. -/

namespace Sys2Proof.Machine

/-- `w` with bit `i` set to `b`. -/
def setBit (w : Word) (i : Nat) (b : Bool) : Word :=
  if b then w ||| BitVec.twoPow 32 i else w &&& ~~~(BitVec.twoPow 32 i)

/-- STATUS.BUSY, bit 0 (R24). -/
def State.busy (s : State) : Bool := s.status.getLsbD 0

/-- STATUS.DONE, bit 1 (R24). -/
def State.done (s : State) : Bool := s.status.getLsbD 1

/-- STATUS.SKEY_VALID, bit 2 (R24). -/
def State.skeyValid (s : State) : Bool := s.status.getLsbD 2

/-- STATUS.OVR, bit 3 (R24). -/
def State.ovr (s : State) : Bool := s.status.getLsbD 3

/-- IRQ_EN.DONE_IE, bit 0 (R28). -/
def State.doneIe (s : State) : Bool := s.irqEn.getLsbD 0

/-- IRQ_STAT.DONE_IP, bit 0 (R29). -/
def State.doneIp (s : State) : Bool := s.irqStat.getLsbD 0

/-- The interrupt output: `IRQ_EN.DONE_IE AND IRQ_STAT.DONE_IP` (R143). -/
def State.irq (s : State) : Bool := s.doneIe && s.doneIp

/-- STATUS at acceptance: DONE cleared, BUSY set (R23). -/
def statusAccepted (w : Word) : Word := setBit (setBit w 1 false) 0 true

/-- STATUS at completion: BUSY cleared, DONE set (R140). -/
def statusCompleted (w : Word) : Word := setBit (setBit w 0 false) 1 true

/-- The outcome codes of R124. -/
inductive ErrCode where
  | ok
  | header
  | format
  | padding
  | bus
  | illegal
  | skeyNotLoaded
  | skeyEmpty
  | skeyLocked
  | length
  | overlap
  | utf8
  | catIndex
deriving DecidableEq, Repr

/-- The code written to RESULT[7:0] (R124). -/
def ErrCode.code (e : ErrCode) : Word :=
  match e with
  | .ok => 0x00
  | .header => 0x01
  | .format => 0x02
  | .padding => 0x03
  | .bus => 0x04
  | .illegal => 0x05
  | .skeyNotLoaded => 0x06
  | .skeyEmpty => 0x07
  | .skeyLocked => 0x08
  | .length => 0x09
  | .overlap => 0x0A
  | .utf8 => 0x0B
  | .catIndex => 0x0C

end Sys2Proof.Machine
end

