-- ==== Sys2Proof/Machine/Sha256.lean ====
section
/-! DEFINITION. The SHA-256 datapath (44_sha256_core.md R105 to R112). -/

namespace Sys2Proof.Machine

/-- `ROTR(x, n)` (R105). -/
def rotr (x : Word) (n : Nat) : Word := (x >>> n) ||| (x <<< (32 - n))

/-- `Ch(x, y, z)` (R106). -/
def shaCh (x y z : Word) : Word := (x &&& y) ^^^ (~~~x &&& z)

/-- `Maj(x, y, z)` (R106). -/
def shaMaj (x y z : Word) : Word := (x &&& y) ^^^ (x &&& z) ^^^ (y &&& z)

/-- `Σ0(x)` (R106). -/
def bigSigma0 (x : Word) : Word := rotr x 2 ^^^ rotr x 13 ^^^ rotr x 22

/-- `Σ1(x)` (R106). -/
def bigSigma1 (x : Word) : Word := rotr x 6 ^^^ rotr x 11 ^^^ rotr x 25

/-- `σ0(x)` (R106). -/
def smallSigma0 (x : Word) : Word := rotr x 7 ^^^ rotr x 18 ^^^ (x >>> 3)

/-- `σ1(x)` (R106). -/
def smallSigma1 (x : Word) : Word := rotr x 17 ^^^ rotr x 19 ^^^ (x >>> 10)

/-- The round constants `K[0..63]` (R107). -/
def shaK : List Word :=
  [0x428A2F98, 0x71374491, 0xB5C0FBCF, 0xE9B5DBA5, 0x3956C25B, 0x59F111F1, 0x923F82A4, 0xAB1C5ED5,
   0xD807AA98, 0x12835B01, 0x243185BE, 0x550C7DC3, 0x72BE5D74, 0x80DEB1FE, 0x9BDC06A7, 0xC19BF174,
   0xE49B69C1, 0xEFBE4786, 0x0FC19DC6, 0x240CA1CC, 0x2DE92C6F, 0x4A7484AA, 0x5CB0A9DC, 0x76F988DA,
   0x983E5152, 0xA831C66D, 0xB00327C8, 0xBF597FC7, 0xC6E00BF3, 0xD5A79147, 0x06CA6351, 0x14292967,
   0x27B70A85, 0x2E1B2138, 0x4D2C6DFC, 0x53380D13, 0x650A7354, 0x766A0ABB, 0x81C2C92E, 0x92722C85,
   0xA2BFE8A1, 0xA81A664B, 0xC24B8B70, 0xC76C51A3, 0xD192E819, 0xD6990624, 0xF40E3585, 0x106AA070,
   0x19A4C116, 0x1E376C08, 0x2748774C, 0x34B0BCB5, 0x391C0CB3, 0x4ED8AA4A, 0x5B9CCA4F, 0x682E6FF3,
   0x748F82EE, 0x78A5636F, 0x84C87814, 0x8CC70208, 0x90BEFFFA, 0xA4506CEB, 0xBEF9A3F7, 0xC67178F2]

/-- The initial hash value `H0` (R108). -/
def shaH0 : HashState :=
  ⟨0x6A09E667, 0xBB67AE85, 0x3C6EF372, 0xA54FF53A, 0x510E527F, 0x9B05688C, 0x1F83D9AB, 0x5BE0CD19⟩

/-- The bytes of a word, most significant first (R105, R112). -/
def be32 (x : Word) : List Byte :=
  [x.extractLsb' 24 8, x.extractLsb' 16 8, x.extractLsb' 8 8, x.extractLsb' 0 8]

/-- `BE64(n)`: 8 bytes, most significant first (R109). -/
def be64 (n : Nat) : List Byte :=
  [BitVec.ofNat 8 (n >>> 56), BitVec.ofNat 8 (n >>> 48), BitVec.ofNat 8 (n >>> 40), BitVec.ofNat 8 (n >>> 32),
   BitVec.ofNat 8 (n >>> 24), BitVec.ofNat 8 (n >>> 16), BitVec.ofNat 8 (n >>> 8), BitVec.ofNat 8 n]

/-- `Pad256(M) = M || 80 || 00 × k || BE64(8·l)` with `k = (55 - l) mod 64` (R109). -/
def shaPad (m : List Byte) : List Byte :=
  m ++ [0x80] ++ List.replicate ((119 - m.length % 64) % 64) 0 ++ be64 (8 * m.length)

/-- The `t`-th big-endian word of a block (R105, R110). -/
def blockWord (block : List Byte) (t : Nat) : Word :=
  block.getD (4 * t) 0 ++ block.getD (4 * t + 1) 0 ++ block.getD (4 * t + 2) 0 ++ block.getD (4 * t + 3) 0

/-- `W[t]` from the words before it, for `t` from 16 on (R110). -/
def nextMessageWord (w : List Word) (t : Nat) : Word :=
  smallSigma1 (w.getD (t - 2) 0) + w.getD (t - 7) 0 + smallSigma0 (w.getD (t - 15) 0) + w.getD (t - 16) 0

/-- The message schedule `w` of `t` words with `n` more. -/
def extendSchedule (n t : Nat) (w : List Word) : List Word :=
  match n with
  | 0 => w
  | n + 1 => extendSchedule n (t + 1) (w ++ [nextMessageWord w t])

/-- The message schedule `W[0..63]` of a block (R110). -/
def messageSchedule (block : List Byte) : List Word :=
  extendSchedule 48 16 ((List.range 16).map (blockWord block))

/-- One round of the compression, with `kt = K[t]` and `wt = W[t]` (R111). -/
def shaRound (s : HashState) (kt wt : Word) : HashState :=
  let t1 := s.h + bigSigma1 s.e + shaCh s.e s.f s.g + kt + wt
  let t2 := bigSigma0 s.a + shaMaj s.a s.b s.c
  ⟨t1 + t2, s.a, s.b, s.c, s.d + t1, s.e, s.f, s.g⟩

/-- The rounds over paired `K[t]` and `W[t]` (R111). -/
def shaRounds (ks ws : List Word) (s : HashState) : HashState :=
  match ks, ws with
  | kt :: ks, wt :: ws => shaRounds ks ws (shaRound s kt wt)
  | _, _ => s

/-- Compression of one block into the hash state (R111). -/
def shaCompress (h : HashState) (block : List Byte) : HashState :=
  let r := shaRounds shaK (messageSchedule block) h
  ⟨r.a + h.a, r.b + h.b, r.c + h.c, r.d + h.d, r.e + h.e, r.f + h.f, r.g + h.g, r.h + h.h⟩

/-- The first `n` blocks of 64 bytes of `bs`, in order (R109). -/
def shaBlocks (n : Nat) (bs : List Byte) : List (List Byte) :=
  match n with
  | 0 => []
  | n + 1 => bs.take 64 :: shaBlocks n (bs.drop 64)

/-- The hash state after all blocks of `Pad256(M)` (R112). -/
@[irreducible] def shaState (m : List Byte) : HashState :=
  (shaBlocks ((shaPad m).length / 64) (shaPad m)).foldl shaCompress shaH0

/-- The digest bytes of a hash state: each word big-endian (R112). -/
def hashBytes (h : HashState) : List Byte :=
  be32 h.a ++ be32 h.b ++ be32 h.c ++ be32 h.d ++ be32 h.e ++ be32 h.f ++ be32 h.g ++ be32 h.h

/-- `SHA256(M)` (R112). -/
def sha256 (m : List Byte) : List Byte := hashBytes (shaState m)

end Sys2Proof.Machine
end

