-- ==== Sys2Proof/Machine/Datapath.lean ====
section
/-! DEFINITION. The pure functions between the ciphers and the commands: the cyclic XOR and DecodeIndex
(41_index_decoder.md R75, R77), PKCS#7 and CBC (43_cbc_commands.md R93 to R95), the fingerprint message and its
output forms (45_fingerprint.md R115, R116, 30_encoding.md R70). -/

namespace Sys2Proof.Machine

/-- The bytes of `p`, from payload index `i` on, XORed with `sk[i mod len(sk)]` (R75). -/
def deobfFrom (sk : List Byte) (i : Nat) (p : List Byte) : List Byte :=
  match p with
  | [] => []
  | b :: p => (b ^^^ sk.getD (i % sk.length) 0) :: deobfFrom sk (i + 1) p

/-- `Deobf(SK, P)` (R75). -/
def deobf (sk p : List Byte) : List Byte := deobfFrom sk 0 p

/-- MAGIC (30_encoding.md R66). -/
def magic : List Byte := [0xAB, 0xBA, 0x01, 0x00]

/-- The little-endian 16-bit number at `bs[i..i+2)` (R67). -/
def le16 (bs : List Byte) (i : Nat) : Nat := (bs.getD i 0).toNat + 256 * (bs.getD (i + 1) 0).toNat

/-- `DecodeIndex(SK, blob)`: the key and the IV, or the error raised (R77). -/
def decodeIndexBlob (sk blob : List Byte) : Except ErrCode (List Byte × List Byte) :=
  if blob.length < 4 ∨ blob.take 4 ≠ magic then .error .header
  else
    let buf := deobf sk (blob.drop 4)
    if buf.length < 4 then .error .format
    else if le16 buf 0 ≠ 16 ∨ le16 buf 2 ≠ 32 then .error .format
    else if buf.length < 4 + le16 buf 0 + le16 buf 2 then .error .format
    else .ok ((buf.drop (4 + le16 buf 0)).take (le16 buf 2), (buf.drop 4).take (le16 buf 0))

/-- The pad bytes of a plaintext of `len` bytes: `n` bytes of value `n`, `n = 16 - (len mod 16)` (R93). -/
def padBytes (len : Nat) : List Byte := List.replicate (16 - len % 16) (BitVec.ofNat 8 (16 - len % 16))

/-- `Pad(P)` (R93). -/
def pad (p : List Byte) : List Byte := p ++ padBytes p.length

/-- The pad length of a decrypted buffer with valid padding, none where it is invalid (R94). -/
def padLength (d : List Byte) : Option Nat :=
  let n := (d.getLastD 0).toNat
  if 1 ≤ n ∧ n ≤ 16 ∧ n ≤ d.length ∧ (d.drop (d.length - n)).all (fun b => b.toNat == n) then some n else none

/-- `Unpad(D)` where the padding is valid (R94). -/
def unpad (d : List Byte) : Option (List Byte) :=
  match padLength d with
  | some n => some (d.take (d.length - n))
  | none => none

/-- CBC over the first `m` blocks of `q`, chained from `chain` (R95). -/
def cbcEncryptBlocks (w : List Quad) (m : Nat) (chain : Block) (q : List Byte) : List Byte :=
  match m with
  | 0 => []
  | m + 1 =>
    let c := aesEncrypt w ((Block.ofBytes q).xor chain)
    c.toBytes ++ cbcEncryptBlocks w m c (q.drop 16)

/-- `CBC_Encrypt(key, iv, P)` (R95). -/
def cbcEncrypt (key iv p : List Byte) : List Byte :=
  cbcEncryptBlocks (keyExpansion key) ((pad p).length / 16) (Block.ofBytes iv) (pad p)

/-- Inverse CBC over the first `m` blocks of `c`, chained from `chain`: the buffer `D` of R95. -/
def cbcDecryptBlocks (w : List Quad) (m : Nat) (chain : Block) (c : List Byte) : List Byte :=
  match m with
  | 0 => []
  | m + 1 =>
    ((aesDecrypt w (Block.ofBytes c)).xor chain).toBytes ++ cbcDecryptBlocks w m (Block.ofBytes c) (c.drop 16)

/-- `CBC_Decrypt(key, iv, C)`, none for PADDING (R95). -/
def cbcDecrypt (key iv c : List Byte) : Option (List Byte) :=
  unpad (cbcDecryptBlocks (keyExpansion key) (c.length / 16) (Block.ofBytes iv) c)

/-- `FpMsg(SK, N)`: the static key, then each scalar followed by 00 (R115). -/
def fpMsg (sk name : List Byte) : List Byte :=
  sk ++ ((scalars name).getD []).flatMap fun scalar => scalar ++ [0]

/-- `HEXU(x)`: the ASCII code of an uppercase hex digit (R70). -/
def hexu (x : Nat) : Byte := if x ≤ 9 then BitVec.ofNat 8 (0x30 + x) else BitVec.ofNat 8 (0x41 + x - 10)

/-- `FpOut(d, RAW)`: two hex digits a byte, high nibble first, or the bytes themselves (R116, R70). -/
def fpOut (d : List Byte) (raw : Bool) : List Byte :=
  if raw then d else d.flatMap fun b => [hexu (b.toNat / 16), hexu (b.toNat % 16)]

/-- `Fingerprint(SK, N)` (R116). -/
def fingerprint (sk name : List Byte) : List Byte := sha256 (fpMsg sk name)

end Sys2Proof.Machine
end

