-- ==== Sys2Proof/Machine/Memory.lean ====
section
/-! DEFINITION. System memory as data (20_memory.md R38): reading and writing one byte, runs of bytes, and the
canonical form. -/

namespace Sys2Proof.Machine

/-- What an address reads as that nothing has written (log 2). -/
def Memory.background : Byte := 0

/-- One byte of memory. -/
def Memory.read (m : Memory) (a : Nat) : Byte :=
  match m with
  | [] => Memory.background
  | (b, v) :: rest => if a = b then v else Memory.read rest a

/-- Memory with byte `v` at `a`, in canonical form. -/
def Memory.write (m : Memory) (a : Nat) (v : Byte) : Memory :=
  match m with
  | [] => if v = Memory.background then [] else [(a, v)]
  | (b, w) :: rest =>
    if a < b then (if v = Memory.background then (b, w) :: rest else (a, v) :: (b, w) :: rest)
    else if a = b then (if v = Memory.background then rest else (a, v) :: rest)
    else (b, w) :: Memory.write rest a v

/-- The `n` bytes from `a` on. -/
def Memory.readRun (m : Memory) (a n : Nat) : List Byte :=
  match n with
  | 0 => []
  | n + 1 => m.read a :: Memory.readRun m (a + 1) n

/-- Memory with the bytes `bs` written from `a` on, in ascending order. -/
def Memory.writeRun (m : Memory) (a : Nat) (bs : List Byte) : Memory :=
  match bs with
  | [] => m
  | b :: bs => Memory.writeRun (m.write a b) (a + 1) bs

/-- Every address listed is at least `lo`, they rise strictly, they are addresses of system memory, and no entry
is what an unlisted address reads as. -/
def Memory.wfFrom (lo : Nat) (m : Memory) : Bool :=
  match m with
  | [] => true
  | (a, v) :: rest =>
    decide (lo ≤ a) && (decide (a < addressSpace) && (v != Memory.background && Memory.wfFrom (a + 1) rest))

/-- The canonical form: equal memories are equal lists. -/
def Memory.wf (m : Memory) : Bool := Memory.wfFrom 0 m

end Sys2Proof.Machine
end

