-- ==== Sys2Proof/Machine/Operands.lean ====
section
/-! DEFINITION. The operand forms (30_encoding.md R65): the three regions of the operand latch, in-range and
overlap (20_memory.md R50, R51), and the output extents (60_exceptions.md R138). -/

namespace Sys2Proof.Machine

/-- A region: a byte address and a byte count (10_state.md R30), computed without wrap-around. -/
structure Region where
  addr : Nat
  len : Nat
deriving DecidableEq, Repr

/-- The source region `(L.SRC_ADDR, L.SRC_LEN)`. -/
def Latch.src (l : Latch) : Region := ⟨l.srcAddr.toNat, l.srcLen.toNat⟩

/-- The auxiliary region `(L.AUX_ADDR, L.AUX_LEN)`. -/
def Latch.aux (l : Latch) : Region := ⟨l.auxAddr.toNat, l.auxLen.toNat⟩

/-- In range: the region ends at 2^32 or before (R50). -/
def Region.inRange (r : Region) : Bool := decide (r.addr + r.len ≤ addressSpace)

/-- Two regions share a byte (R51). -/
def Region.overlaps (r q : Region) : Bool :=
  decide (0 < r.len) && (decide (0 < q.len) && (decide (r.addr < q.addr + q.len) && decide (q.addr < r.addr + r.len)))

/-- `FW(RAW)`: the bytes of one fingerprint (45_fingerprint.md R116). -/
def fingerprintWidth (raw : Bool) : Nat := if raw then 32 else 64

/-- `out_max` of ENCRYPT_*: `(L.SRC_LEN div 16 + 1) * 16`, over the naturals (R138). -/
def encryptExtent (srcLen : Word) : Nat := (srcLen.toNat / 16 + 1) * 16

/-- `out_max` of DECRYPT_*: `L.SRC_LEN - 1` (R138). -/
def decryptExtent (srcLen : Word) : Nat := srcLen.toNat - 1

/-- The bytes of DECODE_INDEX's record, and of the record the *_RAW commands read (30_encoding.md R68). -/
def recordLength : Nat := 48

/-- The static key `SK = SKEY_RAM[0 : SKEY_LEN)` (10_state.md R33). -/
def State.sk (s : State) : List Byte := s.skeyRam.take s.skeyLen.toNat

end Sys2Proof.Machine
end

