-- ==== Sys2Proof/Machine/Ops.lean ====
section
/-! DEFINITION. The named operations every command is made of: the host's steps (MMIO, memory, reset), the
engine's turn between them, the engine's byte accesses, the checks before a command, taking an error and
completing (10_state.md R14, R19 to R34; 20_memory.md R40 to R46; 60_exceptions.md R137 to R141;
70_reset_and_hazards.md R150). -/

namespace Sys2Proof.Machine

/-! ### The register window -/

/-- ID (10_state.md R20). -/
def idValue : Word := 0xAB2C0001

/-- CONFIG (R21): CAT_COUNT in 23:16, SKEY_MAX in 15:0. -/
def configValue (c : Config) : Word := (BitVec.ofNat 32 catCount <<< 16) ||| (BitVec.ofNat 32 c.skeyMax &&& 0xFFFF)

/-- The value a register offset reads as; reserved offsets and reserved bits read 0 (R18, R19, R32). -/
def State.readOffset (s : State) (off : Nat) : Word :=
  match off with
  | 0x000 => idValue
  | 0x004 => configValue s.cfg
  | 0x008 => s.cmd
  | 0x00C => s.status &&& 0xF
  | 0x010 => s.result &&& 0xFF
  | 0x014 => s.outLen
  | 0x018 => s.errAddr
  | 0x01C => s.irqEn &&& 1
  | 0x020 => s.irqStat &&& 1
  | 0x024 => s.srcAddr
  | 0x028 => s.srcLen
  | 0x02C => s.auxAddr
  | 0x030 => s.auxLen
  | 0x034 => s.dstAddr
  | 0x038 => s.dstLen
  | 0x03C => s.skeyLen
  | _ => 0

/-- Acceptance of command word `v` while the core is idle (R23): the word and the operands are latched, the result
registers are cleared, BUSY is set. -/
def State.accept (s : State) (v : Word) : State :=
  { s with
    cmd := v
    latch := ⟨v, s.srcAddr, s.srcLen, s.auxAddr, s.auxLen, s.dstAddr, s.dstLen⟩
    result := 0
    outLen := 0
    errAddr := 0
    status := statusAccepted s.status
    work := { s.work with written := [] }
    journal := []
    extent := 0 }

/-- A CMD write while BUSY = 1: only STATUS.OVR is set (R23). -/
def State.overrun (s : State) : State := { s with status := setBit s.status 3 true }

/-- A host write of `v` to CMD (R23). -/
def State.writeCmd (s : State) (v : Word) : State := if s.busy then s.overrun else s.accept v

/-- A host write of `v` to the register at `off`: RO registers and reserved offsets ignore it (R19, R24, R28 to
R30, R32). -/
def State.writeOffset (s : State) (off : Nat) (v : Word) : State :=
  match off with
  | 0x008 => s.writeCmd v
  | 0x00C => if v.getLsbD 3 then { s with status := setBit s.status 3 false } else s
  | 0x01C => { s with irqEn := v &&& 1 }
  | 0x020 => if v.getLsbD 0 then { s with irqStat := setBit s.irqStat 0 false } else s
  | 0x024 => { s with srcAddr := v }
  | 0x028 => { s with srcLen := v }
  | 0x02C => { s with auxAddr := v }
  | 0x030 => { s with auxLen := v }
  | 0x034 => { s with dstAddr := v }
  | 0x038 => { s with dstLen := v }
  | _ => s

/-- The host bus answered with `r`. -/
def State.reply (s : State) (r : Reply) : State := { s with replies := r :: s.replies }

/-- The access of `bits` bits at `addr` reaches the core's window (20_memory.md R39). -/
def mmioClaimed (c : Config) (addr bits : Nat) : Bool :=
  decide (addr < c.base + 256) && decide (c.base < addr + (bits + 7) / 8)

/-- A legal MMIO access: 32 bits wide, at an offset that is a multiple of 4 (R40). -/
def mmioLegal (c : Config) (addr bits : Nat) : Bool :=
  decide (c.base ≤ addr) && (bits == 32 && (addr - c.base) % 4 == 0)

/-- A host MMIO read: no side effect on the core (R40, R49). An access outside the window is not the core's. -/
def State.hostMmioRead (s : State) (addr bits : Nat) : State :=
  if mmioClaimed s.cfg addr bits then
    if mmioLegal s.cfg addr bits then s.reply (.word (s.readOffset (addr - s.cfg.base)))
    else s.reply .busError
  else s

/-- A host MMIO write; an illegal one changes no core state (R40). -/
def State.hostMmioWrite (s : State) (addr bits : Nat) (v : Word) : State :=
  if mmioClaimed s.cfg addr bits then
    if mmioLegal s.cfg addr bits then s.writeOffset (addr - s.cfg.base) v
    else s.reply .busError
  else s

/-! ### Reset -/

/-- One byte of the output extent after a reset: `pair` holds the byte replaced and the byte written, for a byte
the command has written (70_reset_and_hazards.md R150). -/
def residueByte (r : Residue) (pair : Option (Byte × Byte)) (a : Nat) (m : Memory) : Memory :=
  match r, pair with
  | .asIs, _ => m
  | .zero, _ => m.write a 0
  | .old, some p => m.write a p.1
  | .written, some p => m.write a p.2
  | .old, none => m
  | .written, none => m

/-- Memory after a reset cut off a command whose output extent is the `n` bytes from `a` on (R150). -/
def leaveResidue (rs : List Residue) (n a : Nat) (journal : List (Byte × Byte)) (m : Memory) : Memory :=
  match rs, n with
  | [], _ => m
  | _ :: _, 0 => m
  | r :: rs, n + 1 => leaveResidue rs n (a + 1) (journal.drop 1) (residueByte r journal.head? a m)

/-- The hard reset, one atomic step (R150): every register, the latch, the working state and the static-key store
are zero; memory changes only inside the output extent of a command that was running; the instance, the schedule
and the replies already given are not the core's to reset. -/
def State.hardReset (s : State) (rs : List Residue) : State where
  cfg := s.cfg
  cmd := 0
  status := 0
  result := 0
  outLen := 0
  errAddr := 0
  irqEn := 0
  irqStat := 0
  srcAddr := 0
  srcLen := 0
  auxAddr := 0
  auxLen := 0
  dstAddr := 0
  dstLen := 0
  skeyLen := 0
  skeyRam := List.replicate s.cfg.skeyMax 0
  latch := Latch.zero
  work := Work.zero
  mem := leaveResidue rs s.extent s.latch.dstAddr.toNat s.journal s.mem
  journal := []
  extent := 0
  env := s.env
  replies := s.replies

/-! ### The host's steps and the engine's turn -/

/-- What the environment's steps leave: the engine may go on, or a reset cut the command off. Nothing else the host
does stops a command (70_reset_and_hazards.md R160). -/
inductive Turn where
  | ready (s : State)
  | aborted (s : State)
deriving DecidableEq, Repr

/-- The byte a host read of system memory answers: memory's byte in plain memory (20_memory.md R53), a free one at a
device's address (R41, log 16). -/
def State.hostByte (s : State) (a : Nat) : Byte :=
  if s.cfg.deviceAt a then Config.freeDeviceByte s.replies.length a else s.mem.read a

/-- A host store of `v` to `a` reaches the memory point (R53). At a device's address it is the device's, and neither
the core nor plain memory changes (R41, log 16). -/
def State.hostStore (s : State) (a : Nat) (v : Byte) : State :=
  if s.cfg.deviceAt a then s else { s with mem := s.mem.write a v }

/-- One step of the environment (R14). -/
def hostEvent (e : Event) (s : State) : Turn :=
  match e with
  | .engine => .ready s
  | .mmioRead addr bits => .ready (s.hostMmioRead addr bits)
  | .mmioWrite addr bits v => .ready (s.hostMmioWrite addr bits v)
  | .memRead a => .ready (s.reply (.byte (s.hostByte a.toNat)))
  | .memWrite a v => .ready (s.hostStore a.toNat v)
  | .reset rs => .aborted (s.hardReset rs)

/-- The environment's steps up to the engine's next turn: to the first `engine` mark, or to the end of the
schedule, after which the host is silent and the engine goes on (R53, R160). -/
def hostTurn (events : List Event) (s : State) : Turn :=
  match events with
  | [] => .ready { s with env := [] }
  | e :: rest =>
    if e = .engine then .ready { s with env := rest }
    else
      match hostEvent e { s with env := rest } with
      | .ready s' => hostTurn rest s'
      | .aborted s' => .aborted s'

/-- The environment's steps before the engine's next one. -/
def engineTurn (s : State) : Turn := hostTurn s.env s

/-- One step of an idle core: the next step of the environment; with none left nothing changes
(60_exceptions.md R149). -/
def hostStep (s : State) : Host.Outcome State Fault Refusal :=
  match s.env with
  | [] => .next s
  | e :: rest =>
    match hostEvent e { s with env := rest } with
    | .ready s' => .next s'
    | .aborted s' => .next s'

/-! ### Running a command -/

/-- Where a part of a command leaves the engine: it goes on with a value; it raised an error (`ea` is the faulting
address of BUS, 0 otherwise); a reset cut it off; the spec gives the run no meaning; or a byte access left the
address space. -/
inductive Eng (α : Type) where
  | ok (a : α) (s : State)
  | raised (e : ErrCode) (ea : Nat) (s : State)
  | aborted (s : State)
  | refused (r : Refusal)
  | faulted (f : Fault)

/-- The next part of a command: "the first `raise` ends the command, and no code after it runs" (R140). -/
def Eng.bind {α β : Type} (x : Eng α) (k : α → State → Eng β) : Eng β :=
  match x with
  | .ok a s => k a s
  | .raised e ea s => .raised e ea s
  | .aborted s => .aborted s
  | .refused r => .refused r
  | .faulted f => .faulted f

/-- `if c: raise E`. -/
def raiseIf (c : Bool) (e : ErrCode) (s : State) : Eng Unit := if c then .raised e 0 s else .ok () s

/-- The engine's read of the byte at `a`, one engine step (20_memory.md R43, R45). -/
def readByte (a : Nat) (s : State) : Eng Byte :=
  if a < addressSpace then
    match engineTurn s with
    | .ready s => if s.cfg.busErrAt a .read then .raised .bus a s else .ok (s.mem.read a) s
    | .aborted s => .aborted s
  else .faulted (.addressSpace a)

/-- The state after the engine wrote `v` to `a`: `W <- W ++ [a]` (R44). -/
def State.engineWrite (s : State) (a : Nat) (v : Byte) : State :=
  { s with
    mem := s.mem.write a v
    work := { s.work with written := s.work.written ++ [BitVec.ofNat 32 a] }
    journal := s.journal ++ [(s.mem.read a, v)] }

/-- The engine's write of `v` to `a`, one engine step (R44, R46). -/
def writeByte (a : Nat) (v : Byte) (s : State) : Eng Unit :=
  if a < addressSpace then
    match engineTurn s with
    | .ready s => if s.cfg.busErrAt a .write then .raised .bus a s else .ok () (s.engineWrite a v)
    | .aborted s => .aborted s
  else .faulted (.addressSpace a)

/-- `MemRead(a, n)` (R43). -/
def memRead (a n : Nat) (s : State) : Eng (List Byte) :=
  match n with
  | 0 => .ok [] s
  | n + 1 =>
    (readByte a s).bind fun b s =>
    (memRead (a + 1) n s).bind fun bs s =>
    .ok (b :: bs) s

/-- `MemWrite(a, bs)` (R44). -/
def memWrite (a : Nat) (bs : List Byte) (s : State) : Eng Unit :=
  match bs with
  | [] => .ok () s
  | b :: bs => (writeByte a b s).bind fun _ s => memWrite (a + 1) bs s

/-! ### The checks before a command -/

/-- The opcodes that use the static key (60_exceptions.md R130, R137). -/
def usesStaticKey (op : Nat) : Bool :=
  op == 0x02 || op == 0x03 || op == 0x04 || op == 0x07 || op == 0x08 || op == 0x09

/-- `Prologue()` (R137) of a legal command: its first check, ILLEGAL, is the decoder's. -/
def prologue (i : Instr) (s : State) : Eng Unit :=
  if (i.opcode == 0x08 || i.opcode == 0x0A) && decide (catCount ≤ i.arg) then .raised .catIndex 0 s
  else if i.opcode == 0x01 && s.skeyValid then .raised .skeyLocked 0 s
  else if usesStaticKey i.opcode && !s.skeyValid then .raised .skeyNotLoaded 0 s
  else .ok () s

/-- The first region that reaches a device. -/
def firstDevice (c : Config) (rs : List Region) : Option Region := rs.find? fun r => c.reachesDevice r.addr r.len

/-- A command whose regions are not all plain memory is refused (20_memory.md R41; log 6). -/
def requirePlain (rs : List Region) (s : State) : Eng Unit :=
  match firstDevice s.cfg rs with
  | some r => .refused (.notPlainMemory r.addr r.len)
  | none => .ok () s

/-- `CheckRegions(ins, out_max, has_out)` (60_exceptions.md R138): `out` is none for `has_out = false`. Regions that
pass are then required to be plain memory, and the extent is noted for R150. -/
def checkRegions (ins : List Region) (out : Option Nat) (s : State) : Eng Unit :=
  if ins.any (fun r => !r.inRange) then .raised .length 0 s
  else
    match out with
    | none => requirePlain ins s
    | some n =>
      let dst : Region := ⟨s.latch.dstAddr.toNat, n⟩
      if decide (s.latch.dstLen.toNat < n) || !dst.inRange then .raised .length 0 s
      else if ins.any (fun r => r.overlaps dst) then .raised .overlap 0 s
      else (requirePlain (ins ++ [dst]) s).bind fun _ s => .ok () { s with extent := n }

/-! ### Taking an error, and completing -/

/-- `Finish(code, n, ea)`, one atomic engine step (60_exceptions.md R140). -/
def State.finish (s : State) (code : ErrCode) (n ea : Nat) : State :=
  { s with
    work := Work.zero
    journal := []
    extent := 0
    result := code.code
    outLen := BitVec.ofNat 32 n
    errAddr := BitVec.ofNat 32 ea
    status := statusCompleted s.status
    irqStat := setBit s.irqStat 0 true }

/-- The completion step, after the environment's steps before it. -/
def completion (code : ErrCode) (n ea : Nat) (s : State) : Host.Outcome State Fault Refusal :=
  match engineTurn s with
  | .ready s => .next (s.finish code n ea)
  | .aborted s => .next s

/-- `Scrub()` over the addresses `ws`: 0x00 to each, in the order they were written, one engine step each (R141). -/
def scrub (ws : List Word) (s : State) : Turn :=
  match ws with
  | [] => .ready s
  | a :: ws =>
    match engineTurn s with
    | .ready s => scrub ws { s with mem := s.mem.write a.toNat 0 }
    | .aborted s => .aborted s

/-- Taking an error, `raise E(a)` (R140): the written bytes are scrubbed, then the completion step records the
code, with the faulting address for BUS alone. -/
def takeError (e : ErrCode) (ea : Nat) (s : State) : Host.Outcome State Fault Refusal :=
  match scrub s.work.written s with
  | .ready s => completion e 0 (if e = .bus then ea else 0) s
  | .aborted s => .next s

/-- How a command ends: `complete(n)` with its output length, or taking the error it raised (R140). After a reset
cut it off there is no completion (70_reset_and_hazards.md R150). -/
def conclude (x : Eng Nat) : Host.Outcome State Fault Refusal :=
  match x with
  | .ok n s => completion .ok n 0 s
  | .raised e ea s => takeError e ea s
  | .aborted s => .next s
  | .refused r => .refused r
  | .faulted f => .fault f

/-- An accepted word that is not legal: ILLEGAL, before any access (60_exceptions.md R129). -/
def runIllegal (s : State) : Host.Outcome State Fault Refusal := conclude (.raised .illegal 0 s)

end Sys2Proof.Machine
end

