-- ==== Sys2Proof/Machine/IndexDecoder.lean ====
section
/-! DEFINITION. The Index Decoder and DECODE_INDEX (41_index_decoder.md R77, R79). -/

namespace Sys2Proof.Machine

/-- `DecodeIndex(SK, MemRead(L.AUX_ADDR, L.AUX_LEN))`: the whole region is read before it is parsed; DBUF holds the
blob and then the deobfuscated buffer (R79, 10_state.md R35). -/
def readIndex (s : State) : Eng (List Byte × List Byte) :=
  (memRead s.latch.auxAddr.toNat s.latch.auxLen.toNat s).bind fun blob s =>
  match decodeIndexBlob s.sk blob with
  | .error e => .raised e 0 { s with work := { s.work with dbuf := blob } }
  | .ok keyIv => .ok keyIv { s with work := { s.work with dbuf := deobf s.sk (blob.drop 4) } }

/-- The run of DECODE_INDEX up to its completion: the output length, or the error raised (R79). -/
def runDecodeIndex (s : State) : Eng Nat :=
  (prologue .decodeIndex s).bind fun _ s =>
  (checkRegions [s.latch.aux] (some recordLength) s).bind fun _ s =>
  (readIndex s).bind fun keyIv s =>
  (memWrite s.latch.dstAddr.toNat (keyIv.1 ++ keyIv.2) s).bind fun _ s =>
  .ok recordLength s

/-- DECODE_INDEX (R79). -/
def execDecodeIndex (s : State) : Host.Outcome State Fault Refusal := conclude (runDecodeIndex s)

end Sys2Proof.Machine
end

