-- ==== Sys2Proof/Machine/Cipher.lean ====
section
/-! DEFINITION. The cipher commands and their streams (43_cbc_commands.md R99 to R104). -/

namespace Sys2Proof.Machine

/-- `(KEY, IV) <- (key, iv)` (R101, R103). -/
def State.setKeyIv (s : State) (key iv : List Byte) : State :=
  { s with work := { s.work with key := key, iv := Block.ofBytes iv } }

/-- `RK <- KeyExpansion(KEY); CHAIN <- IV` (R99, R100). -/
def State.startStream (s : State) : State :=
  { s with work := { s.work with rk := keyExpansion s.work.key, chain := s.work.iv } }

/-- `BLK <- p; CHAIN <- AES256_Encrypt(RK, BLK XOR CHAIN)` (R99). -/
def State.encryptBlock (s : State) (p : List Byte) : State :=
  { s with
    work := { s.work with
      blk := Block.ofBytes p
      chain := aesEncrypt s.work.rk ((Block.ofBytes p).xor s.work.chain) } }

/-- `BLK <- AES256_Decrypt(RK, C) XOR CHAIN; CHAIN <- C` (R100). -/
def State.decryptBlock (s : State) (c : List Byte) : State :=
  { s with
    work := { s.work with
      blk := (aesDecrypt s.work.rk (Block.ofBytes c)).xor s.work.chain
      chain := Block.ofBytes c } }

/-- The blocks of `EncStream` from offset `off` on: `full` whole blocks, then the last one with its padding (R99). -/
def encLoop (full off : Nat) (s : State) : Eng Unit :=
  match full with
  | 0 =>
    (memRead (s.latch.srcAddr.toNat + off) (s.latch.srcLen.toNat % 16) s).bind fun p s =>
    let s := s.encryptBlock (p ++ padBytes s.latch.srcLen.toNat)
    memWrite (s.latch.dstAddr.toNat + off) s.work.chain.toBytes s
  | full + 1 =>
    (memRead (s.latch.srcAddr.toNat + off) 16 s).bind fun p s =>
    let s := s.encryptBlock p
    (memWrite (s.latch.dstAddr.toNat + off) s.work.chain.toBytes s).bind fun _ s =>
    encLoop full (off + 16) s

/-- `EncStream(KEY, IV)`: the number of bytes written (R99). -/
def encStream (s : State) : Eng Nat :=
  (encLoop (s.latch.srcLen.toNat / 16) 0 s.startStream).bind fun _ s => .ok (encryptExtent s.latch.srcLen) s

/-- The blocks of `DecStream` from offset `off` on: `more` blocks that are not the final one, then the final one;
the value is the pad length (R100). -/
def decLoop (more off : Nat) (s : State) : Eng Nat :=
  match more with
  | 0 =>
    (memRead (s.latch.srcAddr.toNat + off) 16 s).bind fun c s =>
    let s := s.decryptBlock c
    match padLength s.work.blk.toBytes with
    | none => .raised .padding 0 s
    | some n =>
      (memWrite (s.latch.dstAddr.toNat + off) (s.work.blk.toBytes.take (16 - n)) s).bind fun _ s => .ok n s
  | more + 1 =>
    (memRead (s.latch.srcAddr.toNat + off) 16 s).bind fun c s =>
    let s := s.decryptBlock c
    (memWrite (s.latch.dstAddr.toNat + off) s.work.blk.toBytes s).bind fun _ s =>
    decLoop more (off + 16) s

/-- `DecStream(KEY, IV)` for a source length that is a positive multiple of 16: the plaintext's length (R100). -/
def decStream (s : State) : Eng Nat :=
  (decLoop (s.latch.srcLen.toNat / 16 - 1) 0 s.startStream).bind fun n s => .ok (s.latch.srcLen.toNat - n) s

/-- The ciphertext length of DECRYPT_* is 0 or no multiple of 16 (R102). -/
def badCiphertextLength (srcLen : Word) : Bool := srcLen == 0 || srcLen.toNat % 16 != 0

/-- `(KEY, IV) <- DecodeIndex(SK, MemRead(L.AUX_ADDR, L.AUX_LEN))` (R101). -/
def keyFromIndex (s : State) : Eng Unit :=
  (readIndex s).bind fun keyIv s => .ok () (s.setKeyIv keyIv.1 keyIv.2)

/-- `rec <- MemRead(L.AUX_ADDR, 48); KEY <- rec[0:32); IV <- rec[32:48)` (R103). -/
def keyFromRecord (s : State) : Eng Unit :=
  (memRead s.latch.auxAddr.toNat recordLength s).bind fun rec s =>
  .ok () (s.setKeyIv (rec.take 32) (rec.drop 32))

/-- The record region `(L.AUX_ADDR, 48)` of the *_RAW commands (R103). -/
def Latch.record (l : Latch) : Region := ⟨l.auxAddr.toNat, recordLength⟩

/-- The run of ENCRYPT_INDEX up to its completion: the output length, or the error raised (R101). -/
def runEncryptIndex (s : State) : Eng Nat :=
  (prologue .encryptIndex s).bind fun _ s =>
  (checkRegions [s.latch.aux, s.latch.src] (some (encryptExtent s.latch.srcLen)) s).bind fun _ s =>
  (keyFromIndex s).bind fun _ s =>
  encStream s

/-- ENCRYPT_INDEX (R101). -/
def execEncryptIndex (s : State) : Host.Outcome State Fault Refusal := conclude (runEncryptIndex s)

/-- The run of DECRYPT_INDEX up to its completion: the output length, or the error raised (R102). -/
def runDecryptIndex (s : State) : Eng Nat :=
  (prologue .decryptIndex s).bind fun _ s =>
  (raiseIf (badCiphertextLength s.latch.srcLen) .padding s).bind fun _ s =>
  (checkRegions [s.latch.aux, s.latch.src] (some (decryptExtent s.latch.srcLen)) s).bind fun _ s =>
  (keyFromIndex s).bind fun _ s =>
  decStream s

/-- DECRYPT_INDEX (R102). -/
def execDecryptIndex (s : State) : Host.Outcome State Fault Refusal := conclude (runDecryptIndex s)

/-- The run of ENCRYPT_RAW up to its completion: the output length, or the error raised (R103). -/
def runEncryptRaw (s : State) : Eng Nat :=
  (prologue .encryptRaw s).bind fun _ s =>
  (raiseIf (s.latch.auxLen.toNat != recordLength) .length s).bind fun _ s =>
  (checkRegions [s.latch.record, s.latch.src] (some (encryptExtent s.latch.srcLen)) s).bind fun _ s =>
  (keyFromRecord s).bind fun _ s =>
  encStream s

/-- ENCRYPT_RAW (R103). -/
def execEncryptRaw (s : State) : Host.Outcome State Fault Refusal := conclude (runEncryptRaw s)

/-- The run of DECRYPT_RAW up to its completion: the output length, or the error raised (R104). -/
def runDecryptRaw (s : State) : Eng Nat :=
  (prologue .decryptRaw s).bind fun _ s =>
  (raiseIf (badCiphertextLength s.latch.srcLen) .padding s).bind fun _ s =>
  (raiseIf (s.latch.auxLen.toNat != recordLength) .length s).bind fun _ s =>
  (checkRegions [s.latch.record, s.latch.src] (some (decryptExtent s.latch.srcLen)) s).bind fun _ s =>
  (keyFromRecord s).bind fun _ s =>
  decStream s

/-- DECRYPT_RAW (R104). -/
def execDecryptRaw (s : State) : Host.Outcome State Fault Refusal := conclude (runDecryptRaw s)

end Sys2Proof.Machine
end

