-- ==== Sys2Proof/Machine/Fingerprint.lean ====
section
/-! DEFINITION. The Fingerprint Engine and the catalogue commands (45_fingerprint.md R119 to R122). -/

namespace Sys2Proof.Machine

/-- The state after hashing `FpMsg(SK, name)`: H holds the final hash state, MBUF the bytes past the last whole
message block and the bit count (10_state.md R35; log 14). -/
def State.hashed (s : State) (name : List Byte) : State :=
  let m := fpMsg s.sk name
  { s with
    work := { s.work with h := shaState m, mbuf := ⟨m.drop (m.length / 64 * 64), 8 * m.length⟩ } }

/-- `d <- SHA256(FpMsg(SK, name)); MemWrite(a, FpOut(d, RAW))` (R119). -/
def writeFingerprint (name : List Byte) (raw : Bool) (a : Nat) (s : State) : Eng Unit :=
  let s := s.hashed name
  memWrite a (fpOut (hashBytes s.work.h) raw) s

/-- The records of FINGERPRINT_ALL for the `n` entries from `k` on (R121). -/
def writeRecords (raw : Bool) (n k : Nat) (s : State) : Eng Unit :=
  match n with
  | 0 => .ok () s
  | n + 1 =>
    (writeFingerprint (s.cfg.name k) raw (s.latch.dstAddr.toNat + fingerprintWidth raw * k) s).bind fun _ s =>
    writeRecords raw n (k + 1) s

/-- The run of FINGERPRINT up to its completion: the output length, or the error raised (R119). -/
def runFingerprint (raw : Bool) (s : State) : Eng Nat :=
  (prologue (.fingerprint raw) s).bind fun _ s =>
  (checkRegions [s.latch.src] (some (fingerprintWidth raw)) s).bind fun _ s =>
  (memRead s.latch.srcAddr.toNat s.latch.srcLen.toNat s).bind fun name s =>
  (raiseIf (!wellFormedUtf8 name) .utf8 s).bind fun _ s =>
  (writeFingerprint name raw s.latch.dstAddr.toNat s).bind fun _ s =>
  .ok (fingerprintWidth raw) s

/-- FINGERPRINT (R119). -/
def execFingerprint (raw : Bool) (s : State) : Host.Outcome State Fault Refusal := conclude (runFingerprint raw s)

/-- The run of FINGERPRINT_CAT up to its completion: the output length, or the error raised (R120). -/
def runFingerprintCat (k : Nat) (raw : Bool) (s : State) : Eng Nat :=
  (prologue (.fingerprintCat k raw) s).bind fun _ s =>
  (checkRegions [] (some (fingerprintWidth raw)) s).bind fun _ s =>
  (writeFingerprint (s.cfg.name k) raw s.latch.dstAddr.toNat s).bind fun _ s =>
  .ok (fingerprintWidth raw) s

/-- FINGERPRINT_CAT (R120). -/
def execFingerprintCat (k : Nat) (raw : Bool) (s : State) : Host.Outcome State Fault Refusal := conclude (runFingerprintCat k raw s)

/-- The run of FINGERPRINT_ALL up to its completion: the output length, or the error raised (R121). -/
def runFingerprintAll (raw : Bool) (s : State) : Eng Nat :=
  (prologue (.fingerprintAll raw) s).bind fun _ s =>
  (checkRegions [] (some (catCount * fingerprintWidth raw)) s).bind fun _ s =>
  (writeRecords raw catCount 0 s).bind fun _ s =>
  .ok (catCount * fingerprintWidth raw) s

/-- FINGERPRINT_ALL (R121). -/
def execFingerprintAll (raw : Bool) (s : State) : Host.Outcome State Fault Refusal := conclude (runFingerprintAll raw s)

/-- The run of CATALOGUE_NAME up to its completion: the output length, or the error raised (R122). -/
def runCatalogueName (k : Nat) (s : State) : Eng Nat :=
  (prologue (.catalogueName k) s).bind fun _ s =>
  (checkRegions [] (some (s.cfg.name k).length) s).bind fun _ s =>
  (memWrite s.latch.dstAddr.toNat (s.cfg.name k) s).bind fun _ s =>
  .ok (s.cfg.name k).length s

/-- CATALOGUE_NAME (R122). -/
def execCatalogueName (k : Nat) (s : State) : Host.Outcome State Fault Refusal := conclude (runCatalogueName k s)

end Sys2Proof.Machine
end

