-- ==== Sys2Proof/Machine/KeyStore.lean ====
section
/-! DEFINITION. The static-key store and LOAD_SKEY (40_key_store.md R73). -/

namespace Sys2Proof.Machine

/-- `SKEY_RAM[0 : L.SRC_LEN) <- bs; SKEY_LEN <- L.SRC_LEN; SKEY_VALID <- 1` (R73). -/
def State.storeKey (s : State) (bs : List Byte) : State :=
  { s with
    skeyRam := bs ++ s.skeyRam.drop bs.length
    skeyLen := s.latch.srcLen
    status := setBit s.status 2 true }

/-- The run of LOAD_SKEY up to its completion: the output length, or the error raised (R73). -/
def runLoadSkey (s : State) : Eng Nat :=
  (prologue .loadSkey s).bind fun _ s =>
  (raiseIf (s.latch.srcLen == 0) .skeyEmpty s).bind fun _ s =>
  (raiseIf (decide (s.cfg.skeyMax < s.latch.srcLen.toNat)) .length s).bind fun _ s =>
  (checkRegions [s.latch.src] none s).bind fun _ s =>
  (memRead s.latch.srcAddr.toNat s.latch.srcLen.toNat s).bind fun bs s =>
  .ok 0 (s.storeKey bs)

/-- LOAD_SKEY (R73). -/
def execLoadSkey (s : State) : Host.Outcome State Fault Refusal := conclude (runLoadSkey s)

end Sys2Proof.Machine
end

