-- ==== Sys2Proof/Machine/Dispatch.lean ====
section
/-! DEFINITION. The meaning of each command: one arm per constructor, each one direct call. -/

namespace Sys2Proof.Machine

def exec (i : Instr) (s : State) : Host.Outcome State Fault Refusal :=
  match i with
  | .loadSkey => Sys2Proof.Machine.execLoadSkey s
  | .decodeIndex => Sys2Proof.Machine.execDecodeIndex s
  | .encryptIndex => Sys2Proof.Machine.execEncryptIndex s
  | .decryptIndex => Sys2Proof.Machine.execDecryptIndex s
  | .encryptRaw => Sys2Proof.Machine.execEncryptRaw s
  | .decryptRaw => Sys2Proof.Machine.execDecryptRaw s
  | .fingerprint raw => Sys2Proof.Machine.execFingerprint raw s
  | .fingerprintCat k raw => Sys2Proof.Machine.execFingerprintCat k raw s
  | .fingerprintAll raw => Sys2Proof.Machine.execFingerprintAll raw s
  | .catalogueName k => Sys2Proof.Machine.execCatalogueName k s

end Sys2Proof.Machine
end

