-- ==== Sys2Proof/Machine/Step.lean ====
section
/-! DEFINITION. One step of the machine (10_state.md R14, R16): with BUSY = 1 the accepted command runs, with the
host's steps scheduled inside it; with BUSY = 0 the environment takes its next step. -/

namespace Sys2Proof.Machine

/-- One step. "The sequencing state is the CMD register together with STATUS.BUSY" (R16): a busy core runs the
command its latch holds, or completes an illegal word with ILLEGAL; an idle core takes the next host step. -/
def step (s : State) : Host.Outcome State Fault Refusal :=
  if s.busy then
    match decode s.latch.cmd with
    | .ok i => exec i s
    | .error _ => runIllegal s
  else hostStep s

/-- `s` with the command word whose bits are `w` accepted (R23): the core fetches no instruction, so the host's write
of CMD is what makes the very next step run a command (log 8). -/
def State.withFetchWord (s : State) (nbits w : Nat) : State := s.accept (BitVec.ofNat 32 (w % 2 ^ nbits))

end Sys2Proof.Machine
end

