-- ==== Sys2Proof/Safety.lean ====
section
/-! DEFINITION. The terms claims use: which commands may run (60_exceptions.md R137 to R139), how a command ends
(R140), what memory then holds, what reset leaves (70_reset_and_hazards.md R150), the invariant of every step
boundary, and the host's obligations while a command runs (R153 to R155). -/

namespace Sys2Proof.Safety

open Sys2Proof.Machine

/-- A command just accepted, with a host that stays silent until it has completed: W is empty (10_state.md R23) and
nothing is scheduled. -/
def Fresh (s : State) : Prop := s.env = [] ∧ s.work.written = []

/-- The checks before the region checks let command `i` pass (60_exceptions.md R137, R139 items 2 to 5). -/
def Admitted (i : Instr) (s : State) : Prop :=
  match i with
  | .loadSkey =>
    s.skeyValid = false ∧ s.latch.srcLen.toNat ≠ 0 ∧ s.latch.srcLen.toNat ≤ s.cfg.skeyMax
  | .decodeIndex => s.skeyValid = true
  | .encryptIndex => s.skeyValid = true
  | .decryptIndex => s.skeyValid = true ∧ s.latch.srcLen.toNat ≠ 0 ∧ s.latch.srcLen.toNat % 16 = 0
  | .encryptRaw => s.latch.auxLen.toNat = 48
  | .decryptRaw => s.latch.srcLen.toNat ≠ 0 ∧ s.latch.srcLen.toNat % 16 = 0 ∧ s.latch.auxLen.toNat = 48
  | .fingerprint _ => s.skeyValid = true
  | .fingerprintCat k _ => k < 12 ∧ s.skeyValid = true
  | .fingerprintAll _ => s.skeyValid = true
  | .catalogueName k => k < 12

/-- The input regions of command `i`, in the order its rule lists them (R138, 30_encoding.md R65). -/
def inputs (i : Instr) (s : State) : List Region :=
  match i with
  | .loadSkey => [⟨s.latch.srcAddr.toNat, s.latch.srcLen.toNat⟩]
  | .decodeIndex => [⟨s.latch.auxAddr.toNat, s.latch.auxLen.toNat⟩]
  | .encryptIndex =>
    [⟨s.latch.auxAddr.toNat, s.latch.auxLen.toNat⟩, ⟨s.latch.srcAddr.toNat, s.latch.srcLen.toNat⟩]
  | .decryptIndex =>
    [⟨s.latch.auxAddr.toNat, s.latch.auxLen.toNat⟩, ⟨s.latch.srcAddr.toNat, s.latch.srcLen.toNat⟩]
  | .encryptRaw => [⟨s.latch.auxAddr.toNat, 48⟩, ⟨s.latch.srcAddr.toNat, s.latch.srcLen.toNat⟩]
  | .decryptRaw => [⟨s.latch.auxAddr.toNat, 48⟩, ⟨s.latch.srcAddr.toNat, s.latch.srcLen.toNat⟩]
  | .fingerprint _ => [⟨s.latch.srcAddr.toNat, s.latch.srcLen.toNat⟩]
  | .fingerprintCat _ _ => []
  | .fingerprintAll _ => []
  | .catalogueName _ => []

/-- `out_max` of command `i` (R138); none for LOAD_SKEY, which has no output. -/
def outMax (i : Instr) (s : State) : Option Nat :=
  match i with
  | .loadSkey => none
  | .decodeIndex => some 48
  | .encryptIndex => some ((s.latch.srcLen.toNat / 16 + 1) * 16)
  | .decryptIndex => some (s.latch.srcLen.toNat - 1)
  | .encryptRaw => some ((s.latch.srcLen.toNat / 16 + 1) * 16)
  | .decryptRaw => some (s.latch.srcLen.toNat - 1)
  | .fingerprint raw => some (if raw then 32 else 64)
  | .fingerprintCat _ raw => some (if raw then 32 else 64)
  | .fingerprintAll raw => some (12 * (if raw then 32 else 64))
  | .catalogueName k => some (s.cfg.name k).length

/-- The output extent of command `i`: `(L.DST_ADDR, out_max)`, empty for LOAD_SKEY (R138). -/
def outExtent (i : Instr) (s : State) : Region := ⟨s.latch.dstAddr.toNat, (outMax i s).getD 0⟩

/-- Every input region is in range (20_memory.md R50). -/
def InputsInRange (i : Instr) (s : State) : Prop := ∀ r ∈ inputs i s, r.addr + r.len ≤ 2 ^ 32

/-- The output extent fits the capacity and the address space (60_exceptions.md R133 (d), (e)). -/
def OutputFits (i : Instr) (s : State) : Prop :=
  ∀ n, outMax i s = some n → n ≤ s.latch.dstLen.toNat ∧ s.latch.dstAddr.toNat + n ≤ 2 ^ 32

/-- The output extent shares no byte with an input region (R134, 20_memory.md R51). -/
def NoOverlap (i : Instr) (s : State) : Prop :=
  ∀ n, outMax i s = some n → ∀ r ∈ inputs i s,
    ¬(0 < r.len ∧ 0 < n ∧ r.addr < s.latch.dstAddr.toNat + n ∧ s.latch.dstAddr.toNat < r.addr + r.len)

/-- No byte of the command's regions is a device's: the host obligation of 70_reset_and_hazards.md R155. -/
def PlainRegions (i : Instr) (s : State) : Prop :=
  ∀ r ∈ inputs i s ++ [outExtent i s], ∀ a, r.addr ≤ a → a < r.addr + r.len → s.cfg.deviceAt a = false

/-- Command `i` passes every check of R137 to R139 that comes before its first access, in plain memory. -/
structure Runnable (i : Instr) (s : State) : Prop where
  admitted : Admitted i s
  inputsInRange : InputsInRange i s
  outputFits : OutputFits i s
  noOverlap : NoOverlap i s
  plain : PlainRegions i s

/-- No read of an input region gets an error response. -/
def ReadsAnswered (i : Instr) (s : State) : Prop :=
  ∀ r ∈ inputs i s, ∀ a, r.addr ≤ a → a < r.addr + r.len → s.cfg.busErrAt a .read = false

/-- No write of the output extent gets an error response. -/
def WritesAnswered (i : Instr) (s : State) : Prop :=
  ∀ a, (outExtent i s).addr ≤ a → a < (outExtent i s).addr + (outExtent i s).len → s.cfg.busErrAt a .write = false

/-- The cipher commands' key and IV are `key` and `iv`: what the index blob decodes to, or the record's two fields
(43_cbc_commands.md R101, R103). No other command has them. -/
def Keys (i : Instr) (s : State) (key iv : List Byte) : Prop :=
  match i with
  | .encryptIndex => decodeIndexBlob s.sk (s.mem.readRun s.latch.auxAddr.toNat s.latch.auxLen.toNat) = .ok (key, iv)
  | .decryptIndex => decodeIndexBlob s.sk (s.mem.readRun s.latch.auxAddr.toNat s.latch.auxLen.toNat) = .ok (key, iv)
  | .encryptRaw =>
    key = s.mem.readRun s.latch.auxAddr.toNat 32 ∧ iv = s.mem.readRun (s.latch.auxAddr.toNat + 32) 16
  | .decryptRaw =>
    key = s.mem.readRun s.latch.auxAddr.toNat 32 ∧ iv = s.mem.readRun (s.latch.auxAddr.toNat + 32) 16
  | .loadSkey => False
  | .decodeIndex => False
  | .fingerprint _ => False
  | .fingerprintCat _ _ => False
  | .fingerprintAll _ => False
  | .catalogueName _ => False

/-- Command `i` finds no fault with its input data, and the bytes it then writes from L.DST_ADDR on are `bs`
(41_index_decoder.md R79, 43_cbc_commands.md R101 to R104, 45_fingerprint.md R119 to R122). -/
def Produces (i : Instr) (s : State) (bs : List Byte) : Prop :=
  match i with
  | .loadSkey => bs = []
  | .decodeIndex => ∃ key iv,
    decodeIndexBlob s.sk (s.mem.readRun s.latch.auxAddr.toNat s.latch.auxLen.toNat) = .ok (key, iv) ∧ bs = key ++ iv
  | .encryptIndex => ∃ key iv, Keys .encryptIndex s key iv ∧
    bs = cbcEncrypt key iv (s.mem.readRun s.latch.srcAddr.toNat s.latch.srcLen.toNat)
  | .decryptIndex => ∃ key iv, Keys .decryptIndex s key iv ∧
    cbcDecrypt key iv (s.mem.readRun s.latch.srcAddr.toNat s.latch.srcLen.toNat) = some bs
  | .encryptRaw => ∃ key iv, Keys .encryptRaw s key iv ∧
    bs = cbcEncrypt key iv (s.mem.readRun s.latch.srcAddr.toNat s.latch.srcLen.toNat)
  | .decryptRaw => ∃ key iv, Keys .decryptRaw s key iv ∧
    cbcDecrypt key iv (s.mem.readRun s.latch.srcAddr.toNat s.latch.srcLen.toNat) = some bs
  | .fingerprint raw =>
    wellFormedUtf8 (s.mem.readRun s.latch.srcAddr.toNat s.latch.srcLen.toNat) = true ∧
      bs = fpOut (fingerprint s.sk (s.mem.readRun s.latch.srcAddr.toNat s.latch.srcLen.toNat)) raw
  | .fingerprintCat k raw => bs = fpOut (fingerprint s.sk (s.cfg.name k)) raw
  | .fingerprintAll raw =>
    bs = ((List.range 12).map fun k => fpOut (fingerprint s.sk (s.cfg.name k)) raw).flatten
  | .catalogueName k => bs = s.cfg.name k

/-- `t` is `s` after a completion with code `e`, output length `n` and error address `ea` (60_exceptions.md R140),
in every register but the static-key store's and memory: the result registers, BUSY, DONE and DONE_IP are written,
the working state is zeroed, and everything else is unchanged. -/
structure Completes (s t : State) (e : ErrCode) (n ea : Nat) : Prop where
  result : t.result = e.code
  outLen : t.outLen.toNat = n
  errAddr : t.errAddr.toNat = ea
  busy : t.busy = false
  done : t.done = true
  ovr : t.ovr = s.ovr
  statusRest : ∀ j, 4 ≤ j → t.status.getLsbD j = s.status.getLsbD j
  doneIp : t.doneIp = true
  irqStatRest : ∀ j, 1 ≤ j → t.irqStat.getLsbD j = s.irqStat.getLsbD j
  irqEn : t.irqEn = s.irqEn
  cmd : t.cmd = s.cmd
  srcAddr : t.srcAddr = s.srcAddr
  srcLen : t.srcLen = s.srcLen
  auxAddr : t.auxAddr = s.auxAddr
  auxLen : t.auxLen = s.auxLen
  dstAddr : t.dstAddr = s.dstAddr
  dstLen : t.dstLen = s.dstLen
  latch : t.latch = s.latch
  work : t.work = Work.zero
  journal : t.journal = []
  extent : t.extent = 0
  cfg : t.cfg = s.cfg
  env : t.env = []
  replies : t.replies = s.replies

/-- The static-key store is unchanged: SKEY_RAM, SKEY_LEN and STATUS.SKEY_VALID (10_state.md R33). -/
def KeyKept (s t : State) : Prop :=
  t.skeyRam = s.skeyRam ∧ t.skeyLen = s.skeyLen ∧ t.skeyValid = s.skeyValid

/-- Memory holds the bytes `bs` from `a` on, and every other byte as before. -/
def Stored (m m' : Memory) (a : Nat) (bs : List Byte) : Prop :=
  ∀ b, m'.read b = if a ≤ b ∧ b < a + bs.length then bs.getD (b - a) 0 else m.read b

/-- Every byte of memory as before. -/
def MemKept (s t : State) : Prop := ∀ a, t.mem.read a = s.mem.read a

/-- `t` is `s` after an error `e` that wrote no byte: the completion with OUT_LEN = 0, the static-key store and
memory unchanged (R140). -/
def Errs (s t : State) (e : ErrCode) (ea : Nat) : Prop := Completes s t e 0 ea ∧ KeyKept s t ∧ MemKept s t

/-- The registers, the latch, the working state and the static-key store after reset (R150). -/
structure ResetRegisters (t : State) : Prop where
  cmd : t.cmd = 0
  status : t.status = 0
  result : t.result = 0
  outLen : t.outLen = 0
  errAddr : t.errAddr = 0
  irqEn : t.irqEn = 0
  irqStat : t.irqStat = 0
  srcAddr : t.srcAddr = 0
  srcLen : t.srcLen = 0
  auxAddr : t.auxAddr = 0
  auxLen : t.auxLen = 0
  dstAddr : t.dstAddr = 0
  dstLen : t.dstLen = 0
  skeyLen : t.skeyLen = 0
  skeyRam : t.skeyRam = List.replicate t.cfg.skeyMax 0
  latch : t.latch = ⟨0, 0, 0, 0, 0, 0, 0⟩
  work : t.work = Work.zero
  journal : t.journal = []
  extent : t.extent = 0

/-- What holds at every step boundary: the parameters are legal; memory is in canonical form; reserved bits are 0,
BUSY and DONE never hold together, and a busy core shows zero results (10_state.md R24, R25); RESULT is one of the
13 codes, with no output and no error address where the code says so (60_exceptions.md R124, R140); the static-key
store is as R33 says; no working state outlives a command (R35). -/
structure Inv (s : State) : Prop where
  cfgWf : s.cfg.wf = true
  memWf : s.mem.wf = true
  statusReserved : s.status.toNat < 16
  busyOrDone : ¬(s.busy = true ∧ s.done = true)
  busyResults : s.busy = true → s.result = 0 ∧ s.outLen = 0 ∧ s.errAddr = 0
  busyLatch : s.busy = true → s.latch.cmd = s.cmd
  resultCode : s.result.toNat ≤ 0x0C
  errorNoOutput : s.result ≠ 0 → s.outLen = 0
  errAddrBus : s.errAddr ≠ 0 → s.result = 0x04
  irqEnReserved : s.irqEn.toNat ≤ 1
  irqStatReserved : s.irqStat.toNat ≤ 1
  skeyRamSize : s.skeyRam.length = s.cfg.skeyMax
  skeyLenMax : s.skeyLen.toNat ≤ s.cfg.skeyMax
  skeyLenValid : s.skeyValid = true ↔ s.skeyLen ≠ 0
  skeyRamZero : s.skeyValid = false → s.skeyRam = List.replicate s.cfg.skeyMax 0
  workZero : s.work = Work.zero
  journalEmpty : s.journal = []
  extentZero : s.extent = 0

/-- The reset input is not asserted. -/
def NotReset (e : Event) : Prop :=
  match e with
  | .reset _ => False
  | .engine => True
  | .mmioRead _ _ => True
  | .mmioWrite _ _ _ => True
  | .memRead _ => True
  | .memWrite _ _ => True

/-- A host step that keeps 70_reset_and_hazards.md R154 while command `i` runs in state `s`: it writes no byte of an
input region and reads or writes no byte of the output extent. -/
def Respects (i : Instr) (s : State) (e : Event) : Prop :=
  match e with
  | .engine => True
  | .mmioRead _ _ => True
  | .mmioWrite _ _ _ => True
  | .memRead a => ¬((outExtent i s).addr ≤ a.toNat ∧ a.toNat < (outExtent i s).addr + (outExtent i s).len)
  | .memWrite a _ => ∀ r ∈ inputs i s ++ [outExtent i s], ¬(r.addr ≤ a.toNat ∧ a.toNat < r.addr + r.len)
  | .reset _ => False

/-- A continuation byte of a scalar. -/
def Continuation (b : Byte) : Prop := 0x80 ≤ b.toNat ∧ b.toNat ≤ 0xBF

/-- The byte sequence of one scalar: a row of 45_fingerprint.md R114's table. -/
def IsScalar (x : List Byte) : Prop :=
  match x with
  | [a] => a.toNat ≤ 0x7F
  | [a, b] => (0xC2 ≤ a.toNat ∧ a.toNat ≤ 0xDF) ∧ Continuation b
  | [a, b, c] =>
    ((a.toNat = 0xE0 ∧ 0xA0 ≤ b.toNat ∧ b.toNat ≤ 0xBF)
        ∨ (0xE1 ≤ a.toNat ∧ a.toNat ≤ 0xEC ∧ Continuation b)
        ∨ (a.toNat = 0xED ∧ 0x80 ≤ b.toNat ∧ b.toNat ≤ 0x9F)
        ∨ (0xEE ≤ a.toNat ∧ a.toNat ≤ 0xEF ∧ Continuation b))
      ∧ Continuation c
  | [a, b, c, d] =>
    ((a.toNat = 0xF0 ∧ 0x90 ≤ b.toNat ∧ b.toNat ≤ 0xBF)
        ∨ (0xF1 ≤ a.toNat ∧ a.toNat ≤ 0xF3 ∧ Continuation b)
        ∨ (a.toNat = 0xF4 ∧ 0x80 ≤ b.toNat ∧ b.toNat ≤ 0x8F))
      ∧ Continuation c ∧ Continuation d
  | _ => False

/-- The host must clean its caches before a CMD write, and invalidate the destination after completion (20_memory.md
R59, 70_reset_and_hazards.md R153): the core does not, whatever HOST_COHERENT is (log 9). -/
def hostMustMaintainCaches (c : Config) : Bool := !c.hostCoherent

end Sys2Proof.Safety
end

