-- ==== Sys2Proof/Certificates/Slice0/Obligations.lean ====
section
/-! DEFINITION. The statements for the provers, each a Prop, in the order of OBLIGATIONS.json. -/

open Sys2Proof Sys2Proof.Machine Sys2Proof.Safety

/-! ### The command word -/

/-- Decoding an encoded well-formed command gives it back (30_encoding.md R60, R72). -/
def Obligations.DecodeOfEncode : Prop :=
  ∀ i : Instr, i.wf = true → decode (encode i) = .ok i

/-- A word that decodes is the encoding of what it decodes to, which is well-formed: no bit of a legal word is
dropped (R60, R63). -/
def Obligations.EncodeOfDecode : Prop :=
  ∀ (v : Word) (i : Instr), decode v = .ok i → encode i = v ∧ i.wf = true

/-- The words that decode are those R63 calls legal: by its four conditions, and as the words that match exactly one
row of spec/opcode_table.json, written (mask, match). -/
def Obligations.LegalWords : Prop :=
  ∀ v : Word,
    ((∃ i, decode v = .ok i) ↔
      (1 ≤ v.toNat % 256 ∧ v.toNat % 256 ≤ 0x0A)
        ∧ v.toNat / 2 ^ 17 = 0
        ∧ (v.toNat / 2 ^ 16 % 2 = 0 ∨ v.toNat % 256 = 0x07 ∨ v.toNat % 256 = 0x08 ∨ v.toNat % 256 = 0x09)
        ∧ (v.toNat / 2 ^ 8 % 256 = 0 ∨ v.toNat % 256 = 0x08 ∨ v.toNat % 256 = 0x0A))
    ∧ ((∃ i, decode v = .ok i) ↔
      (([(0xFFFFFFFF, 0x00000001), (0xFFFFFFFF, 0x00000002), (0xFFFFFFFF, 0x00000003), (0xFFFFFFFF, 0x00000004),
          (0xFFFFFFFF, 0x00000005), (0xFFFFFFFF, 0x00000006), (0xFFFEFFFF, 0x00000007), (0xFFFE00FF, 0x00000008),
          (0xFFFEFFFF, 0x00000009), (0xFFFF00FF, 0x0000000A)] : List (Word × Word)).filter
        fun row => v &&& row.1 == row.2).length = 1)

/-- One word of each command, written from R60 and R62, and four illegal ones (R64). -/
def Obligations.SampleWords : Prop :=
  decodeTableWord 32 0x00000001 = some .loadSkey
    ∧ decodeTableWord 32 0x00000002 = some .decodeIndex
    ∧ decodeTableWord 32 0x00000003 = some .encryptIndex
    ∧ decodeTableWord 32 0x00000004 = some .decryptIndex
    ∧ decodeTableWord 32 0x00000005 = some .encryptRaw
    ∧ decodeTableWord 32 0x00000006 = some .decryptRaw
    ∧ decodeTableWord 32 0x00010007 = some (.fingerprint true)
    ∧ decodeTableWord 32 0x00010108 = some (.fingerprintCat 1 true)
    ∧ decodeTableWord 32 0x00000009 = some (.fingerprintAll false)
    ∧ decodeTableWord 32 0x00000B0A = some (.catalogueName 11)
    ∧ decodeTableWord 32 0x00000000 = none
    ∧ decodeTableWord 32 0x0000000B = none
    ∧ decodeTableWord 32 0x0001000A = none
    ∧ decodeTableWord 32 0x00020008 = none

/-! ### Steps -/

/-- A step of a busy core runs the command its latched word decodes to (10_state.md R16, 30_encoding.md R62); that one
step is the whole command is the model's choice (log 3), as is where the word is decoded (log 15). -/
def Obligations.StepRunsDecodedCommand : Prop :=
  ∀ (s : State) (i : Instr), s.busy = true → decode s.latch.cmd = .ok i → step s = exec i s

/-- A step of a busy core whose latched word is not legal completes with ILLEGAL: no output, ERR_ADDR 0, CMD, the
static-key store and memory unchanged (60_exceptions.md R129, 30_encoding.md R64). -/
def Obligations.IllegalWordCompletes : Prop :=
  ∀ s : State, Fresh s → s.busy = true → (∀ i, decode s.latch.cmd ≠ .ok i) →
    ∃ t, step s = .next t ∧ Errs s t .illegal 0

/-- An idle core changes nothing of its own: its step is the host's next one, and nothing at all where the host is
silent (60_exceptions.md R149). -/
def Obligations.IdleCoreIsStill : Prop :=
  ∀ s : State, s.busy = false →
    (s.env = [] → step s = .next s)
    ∧ ∀ e rest, s.env = e :: rest →
      (∀ t, hostEvent e { s with env := rest } = .ready t → step s = .next t)
      ∧ (∀ t, hostEvent e { s with env := rest } = .aborted t → step s = .next t)

/-! ### The host's accesses -/

/-- A host write of CMD (10_state.md R23). While BUSY = 1 only OVR is set. Otherwise the word and the six operand
registers are latched, CMD holds the word whole, RESULT, OUT_LEN and ERR_ADDR are 0, DONE is cleared, BUSY is set, W is
empty (with the model's own journal and extent, log 13), and nothing else changes, IRQ_STAT among the rest. -/
def Obligations.CommandAcceptance : Prop :=
  ∀ (s : State) (v : Word),
    (s.busy = true →
      ∃ t, hostEvent (.mmioWrite (s.cfg.base + 0x008) 32 v) s = .ready t
        ∧ t = { s with status := t.status }
        ∧ t.ovr = true
        ∧ ∀ j, j ≠ 3 → t.status.getLsbD j = s.status.getLsbD j)
    ∧ (s.busy = false →
      ∃ t, hostEvent (.mmioWrite (s.cfg.base + 0x008) 32 v) s = .ready t
        ∧ t = { s with
            cmd := v
            latch := ⟨v, s.srcAddr, s.srcLen, s.auxAddr, s.auxLen, s.dstAddr, s.dstLen⟩
            result := 0
            outLen := 0
            errAddr := 0
            status := t.status
            work := { s.work with written := [] }
            journal := []
            extent := 0 }
        ∧ t.busy = true ∧ t.done = false
        ∧ ∀ j, 2 ≤ j → t.status.getLsbD j = s.status.getLsbD j)

/-- A legal host read of a register answers with its value, reserved bits and reserved offsets as 0, and changes
nothing (10_state.md R18 to R22, R24 to R32; 20_memory.md R49). -/
def Obligations.RegisterReads : Prop :=
  ∀ s : State, s.cfg.skeyMax ≤ 65535 →
    (∀ p ∈ ([(0x000, 0xAB2C0001), (0x004, BitVec.ofNat 32 (12 * 65536 + s.cfg.skeyMax)), (0x008, s.cmd),
        (0x00C, BitVec.ofNat 32 (s.status.toNat % 16)), (0x010, BitVec.ofNat 32 (s.result.toNat % 256)),
        (0x014, s.outLen), (0x018, s.errAddr), (0x01C, BitVec.ofNat 32 (s.irqEn.toNat % 2)),
        (0x020, BitVec.ofNat 32 (s.irqStat.toNat % 2)), (0x024, s.srcAddr), (0x028, s.srcLen), (0x02C, s.auxAddr),
        (0x030, s.auxLen), (0x034, s.dstAddr), (0x038, s.dstLen), (0x03C, s.skeyLen)] : List (Nat × Word)),
      hostEvent (.mmioRead (s.cfg.base + p.1) 32) s = .ready { s with replies := .word p.2 :: s.replies })
    ∧ ∀ off, 0x040 ≤ off → off ≤ 0x0FC → off % 4 = 0 →
      hostEvent (.mmioRead (s.cfg.base + off) 32) s = .ready { s with replies := .word 0 :: s.replies }

/-- An access inside the window that is not 32 bits wide, or not at a multiple of 4, gets an error response with no
data and changes no core state (20_memory.md R40); what such an access is to the model, also one that starts inside the
window and ends past it, is log 12. -/
def Obligations.IllegalMmioAccess : Prop :=
  ∀ (s : State) (off bits : Nat) (v : Word), off < 256 → 1 ≤ bits → bits ≠ 32 ∨ off % 4 ≠ 0 →
    hostEvent (.mmioRead (s.cfg.base + off) bits) s = .ready { s with replies := .busError :: s.replies }
    ∧ hostEvent (.mmioWrite (s.cfg.base + off) bits v) s = .ready { s with replies := .busError :: s.replies }

/-- Legal host writes of the other registers: the six operand registers store any value, at once, busy or idle, and
change nothing else; the read-only registers and the reserved offsets ignore writes (10_state.md R19, R30 to R32). -/
def Obligations.RegisterWrites : Prop :=
  ∀ (s : State) (v : Word),
    hostEvent (.mmioWrite (s.cfg.base + 0x024) 32 v) s = .ready { s with srcAddr := v }
    ∧ hostEvent (.mmioWrite (s.cfg.base + 0x028) 32 v) s = .ready { s with srcLen := v }
    ∧ hostEvent (.mmioWrite (s.cfg.base + 0x02C) 32 v) s = .ready { s with auxAddr := v }
    ∧ hostEvent (.mmioWrite (s.cfg.base + 0x030) 32 v) s = .ready { s with auxLen := v }
    ∧ hostEvent (.mmioWrite (s.cfg.base + 0x034) 32 v) s = .ready { s with dstAddr := v }
    ∧ hostEvent (.mmioWrite (s.cfg.base + 0x038) 32 v) s = .ready { s with dstLen := v }
    ∧ (∀ off ∈ [0x000, 0x004, 0x010, 0x014, 0x018, 0x03C],
      hostEvent (.mmioWrite (s.cfg.base + off) 32 v) s = .ready s)
    ∧ ∀ off, 0x040 ≤ off → off ≤ 0x0FC → off % 4 = 0 →
      hostEvent (.mmioWrite (s.cfg.base + off) 32 v) s = .ready s

/-- Host writes of STATUS, IRQ_EN and IRQ_STAT (10_state.md R24, R28, R29): writing 1 to OVR or DONE_IP clears that
bit, writing 0 leaves it; DONE_IE takes the written bit 0; no other bit and no other state changes. -/
def Obligations.FlagWrites : Prop :=
  ∀ (s : State) (v : Word),
    (∃ t, hostEvent (.mmioWrite (s.cfg.base + 0x00C) 32 v) s = .ready t
      ∧ t = { s with status := t.status }
      ∧ t.ovr = (s.ovr && !v.getLsbD 3)
      ∧ ∀ j, j ≠ 3 → t.status.getLsbD j = s.status.getLsbD j)
    ∧ (∃ t, hostEvent (.mmioWrite (s.cfg.base + 0x01C) 32 v) s = .ready t
      ∧ t = { s with irqEn := t.irqEn }
      ∧ t.irqEn.toNat = v.toNat % 2)
    ∧ (∃ t, hostEvent (.mmioWrite (s.cfg.base + 0x020) 32 v) s = .ready t
      ∧ t = { s with irqStat := t.irqStat }
      ∧ t.doneIp = (s.doneIp && !v.getLsbD 0)
      ∧ ∀ j, 1 ≤ j → t.irqStat.getLsbD j = s.irqStat.getLsbD j)

/-- The interrupt line (60_exceptions.md R143): asserted by a completion exactly while DONE_IE = 1; deasserted by
clearing DONE_IP or DONE_IE; asserted by setting DONE_IE while DONE_IP = 1. -/
def Obligations.InterruptLine : Prop :=
  (∀ (i : Instr) (s t : State), Fresh s → exec i s = .next t → t.doneIp = true ∧ t.irq = s.doneIe)
    ∧ ∀ (s t : State) (v : Word),
      (hostEvent (.mmioWrite (s.cfg.base + 0x020) 32 v) s = .ready t → v.getLsbD 0 = true → t.irq = false)
      ∧ (hostEvent (.mmioWrite (s.cfg.base + 0x01C) 32 v) s = .ready t → t.irq = (v.getLsbD 0 && s.doneIp))

/-! ### Reset -/

/-- The state after reset (70_reset_and_hazards.md R150): every register 0, the static-key store zero, the latch and
the working state zero, the interrupt line deasserted; the journal and the extent, the model's own, are empty (log
13). -/
def Obligations.ResetState : Prop :=
  ResetRegisters State.reset ∧ State.reset.irq = false ∧ State.reset.skeyRam.length = State.reset.cfg.skeyMax

/-- The reset input, busy or idle (R150): one atomic step to the reset values; the instance, the schedule and the
replies given stay; memory changes only inside the output extent of a command that was running (`extent` bytes from
L.DST_ADDR on), and there each byte keeps its value, becomes 0x00, or becomes a value of the journal: the byte the
command replaced or the byte it wrote. The list of choices, the journal and the extent are the model's (log 5, log
13). -/
def Obligations.ResetEvent : Prop :=
  ∀ (s : State) (rs : List Residue), s.mem.wf = true → s.latch.dstAddr.toNat + s.extent ≤ 2 ^ 32 →
    ∃ t, hostEvent (.reset rs) s = .aborted t
      ∧ ResetRegisters t ∧ t.cfg = s.cfg ∧ t.env = s.env ∧ t.replies = s.replies
      ∧ (∀ a, ¬(s.latch.dstAddr.toNat ≤ a ∧ a < s.latch.dstAddr.toNat + s.extent) → t.mem.read a = s.mem.read a)
      ∧ ∀ k, k < s.extent →
        t.mem.read (s.latch.dstAddr.toNat + k) = s.mem.read (s.latch.dstAddr.toNat + k)
        ∨ t.mem.read (s.latch.dstAddr.toNat + k) = 0
        ∨ ∃ p, s.journal[k]? = some p ∧
          (t.mem.read (s.latch.dstAddr.toNat + k) = p.1 ∨ t.mem.read (s.latch.dstAddr.toNat + k) = p.2)

/-- A reset after `n` engine turns of a running command (R150): either the command has completed before it, and the
reset is still to come, or the command is abandoned with no completion, every register at its reset value, DONE_IP not
set, and no byte of memory outside the command's output extent changed. A byte inside the output extent is the old
byte, or 0x00, or the byte the command wrote: where the same command under a silent host succeeds, the byte it leaves
there. The schedule is the model's (log 3). -/
def Obligations.ResetAbandonsCommand : Prop :=
  ∀ (i : Instr) (s t : State) (n : Nat) (rs : List Residue),
    s.env = List.replicate n .engine ++ [.reset rs] → s.mem.wf = true →
    s.work.written = [] → s.journal = [] → s.extent = 0 → exec i s = .next t →
    (t.env ≠ [] ∧ t.busy = false ∧ t.done = true)
    ∨ (t.env = [] ∧ ResetRegisters t ∧ t.doneIp = false
      ∧ (∀ a, ¬((outExtent i s).addr ≤ a ∧ a < (outExtent i s).addr + (outExtent i s).len) →
        t.mem.read a = s.mem.read a)
      ∧ ∀ a, (outExtent i s).addr ≤ a → a < (outExtent i s).addr + (outExtent i s).len →
        ∀ u, exec i { s with env := [] } = .next u → u.result = 0 →
          t.mem.read a = s.mem.read a ∨ t.mem.read a = 0 ∨ t.mem.read a = u.mem.read a)

/-! ### Every step -/

/-- Every step keeps the invariant of the step boundaries: canonical memory, reserved bits 0, BUSY and DONE never
together, zero results while busy, RESULT one of the 13 codes, no output with an error, ERR_ADDR only with BUS, the
static-key store as R33 says, no working state between commands (the journal and the extent with it, log 13). -/
def Obligations.StepKeepsInvariant : Prop :=
  ∀ s t : State, Inv s → step s = .next t → Inv t

/-- The state after reset meets the invariant. -/
def Obligations.ResetMeetsInvariant : Prop := Inv State.reset

/-- Once loaded, the static key has the same value after every step until reset (40_key_store.md R74): whatever runs
and whatever the host does short of a reset. -/
def Obligations.StaticKeyIsImmutable : Prop :=
  ∀ s t : State, s.skeyValid = true → (∀ e ∈ s.env, NotReset e) → step s = .next t →
    t.skeyValid = true ∧ t.sk = s.sk ∧ KeyKept s t

/-- No command but LOAD_SKEY writes the static-key store, with any host short of a reset (10_state.md R33). -/
def Obligations.OnlyLoadSkeyWritesKey : Prop :=
  ∀ (i : Instr) (s t : State), s.busy = true → i ≠ .loadSkey → (∀ e ∈ s.env, NotReset e) → exec i s = .next t →
    KeyKept s t

/-- No step faults: every byte access a command makes lies inside the address space (20_memory.md R38, R50). -/
def Obligations.NoStepFaults : Prop :=
  ∀ (s : State) (f : Fault), step s ≠ .fault f

/-- No step changes a parameter of the instance, the catalogue among them (00_scope.md R7, 10_state.md R36). -/
def Obligations.ParametersAreConstant : Prop :=
  ∀ s t : State, step s = .next t → t.cfg = s.cfg

/-- With a silent host and plain memory every command ends in exactly one completion, success or error: the result
registers, BUSY, DONE and DONE_IP are written, the working state is zeroed, every other register is unchanged; an
error has no output and leaves the static-key store; ERR_ADDR is 0 but for BUS (60_exceptions.md R140). Plain memory is
a premise because the model refuses other regions (R41, log 6). -/
def Obligations.EveryCommandCompletes : Prop :=
  ∀ (i : Instr) (s : State), Fresh s → PlainRegions i s →
    ∃ t e n ea, exec i s = .next t ∧ Completes s t e n ea
      ∧ (e ≠ .ok → n = 0 ∧ KeyKept s t)
      ∧ (e ≠ .bus → ea = 0)

/-- After an error, whatever it is and wherever it came, every destination byte the command wrote reads 0x00 and
every other byte of memory is as before: the zeroed bytes are the first `n` of the output extent (R141, R140). -/
def Obligations.ErrorLeavesNoOutput : Prop :=
  ∀ (i : Instr) (s t : State), Fresh s → s.mem.wf = true → exec i s = .next t → t.result ≠ 0 →
    t.outLen = 0 ∧ KeyKept s t
      ∧ ∃ n, n ≤ (outExtent i s).len ∧ ∀ a, t.mem.read a =
        if s.latch.dstAddr.toNat ≤ a ∧ a < s.latch.dstAddr.toNat + n then 0 else s.mem.read a

/-- A command completes within R160's number of engine steps: its input lengths, plus `out_max`, plus the scrub of at
most `out_max` bytes, plus the completion step; a reset that comes after that many turns comes too late to abandon
it. The schedule is the model's (log 3). -/
def Obligations.BoundedCompletion : Prop :=
  ∀ (i : Instr) (s : State) (n : Nat) (rs : List Residue),
    s.env = List.replicate n .engine ++ [.reset rs] → s.work.written = [] → PlainRegions i s →
    ((inputs i s).map Region.len).sum + 2 * (outExtent i s).len + 1 ≤ n →
    ∃ t, exec i s = .next t ∧ t.env ≠ [] ∧ t.busy = false ∧ t.done = true

/-- Only a reset stops an accepted command (R160): whatever else the host does, on the register window, in plain
memory or at a device, also where it breaks R154, the command runs to its completion. Plain regions of the command
are a premise because the model refuses others (R41, log 6). -/
def Obligations.OnlyResetStopsCommand : Prop :=
  ∀ (i : Instr) (s : State), s.busy = true → PlainRegions i s → (∀ e ∈ s.env, NotReset e) →
    ∃ t, exec i s = .next t ∧ t.busy = false ∧ t.done = true

/-- A host that keeps R154 does not matter to a running command: whatever it does on the register window and
elsewhere in memory, the command ends with the same RESULT, OUT_LEN and ERR_ADDR, the same static-key store and the
same bytes in its output extent as under a silent host (70_reset_and_hazards.md R154, R156; 20_memory.md R55). -/
def Obligations.RespectfulHostDoesNotMatter : Prop :=
  ∀ (i : Instr) (s t : State), s.busy = true → s.mem.wf = true → s.work.written = [] →
    (∀ e ∈ s.env, Respects i s e) → exec i { s with env := [] } = .next t →
    ∃ u, exec i s = .next u ∧ u.result = t.result ∧ u.outLen = t.outLen ∧ u.errAddr = t.errAddr
      ∧ u.busy = t.busy ∧ u.done = t.done ∧ KeyKept t u
      ∧ ∀ a, (outExtent i s).addr ≤ a → a < (outExtent i s).addr + (outExtent i s).len →
        u.mem.read a = t.mem.read a

/-- What a host step short of a reset leaves alone. While a command runs: its latch, its working state, BUSY, the
result registers (which keep reading 0) and the static-key store (10_state.md R34, R35; R156). While the core is
idle: RESULT, OUT_LEN, ERR_ADDR and DONE, until the next acceptance (R152, R157). -/
def Obligations.HostStepsLeaveResults : Prop :=
  ∀ (e : Event) (s t : State), hostEvent e s = .ready t →
    (s.busy = true →
      t.busy = true ∧ t.latch = s.latch ∧ t.work = s.work ∧ t.journal = s.journal ∧ t.extent = s.extent
        ∧ t.result = s.result ∧ t.outLen = s.outLen ∧ t.errAddr = s.errAddr ∧ KeyKept s t)
    ∧ (s.busy = false → t.busy = false →
      t.result = s.result ∧ t.outLen = s.outLen ∧ t.errAddr = s.errAddr ∧ t.done = s.done ∧ KeyKept s t)

/-- Host accesses to system memory, each one step (20_memory.md R53, R55). In plain memory a read answers with the byte
as it stands and changes nothing else; a store changes its own byte and nothing else, and keeps the canonical form. At
a device's address, where the spec gives no effect, the model's choice (log 16) is that a read answers with some byte
and a store changes neither the core nor plain memory. -/
def Obligations.HostMemoryAccess : Prop :=
  ∀ (s : State) (a : Word) (v : Byte),
    (s.cfg.deviceAt a.toNat = false →
      hostEvent (.memRead a) s = .ready { s with replies := .byte (s.mem.read a.toNat) :: s.replies }
      ∧ ∃ t, hostEvent (.memWrite a v) s = .ready t
        ∧ t = { s with mem := t.mem }
        ∧ (s.mem.wf = true →
          t.mem.wf = true ∧ ∀ b, t.mem.read b = if b = a.toNat then v else s.mem.read b))
    ∧ (s.cfg.deviceAt a.toNat = true →
      (∃ b, hostEvent (.memRead a) s = .ready { s with replies := .byte b :: s.replies })
      ∧ hostEvent (.memWrite a v) s = .ready s)

/-! ### What each command does -/

/-- LOAD_SKEY (40_key_store.md R73): the static key becomes the source region's bytes, the store is locked, OUT_LEN
is 0, and memory is unchanged. -/
def Obligations.LoadSkeyResult : Prop :=
  ∀ s : State, Fresh s → Runnable .loadSkey s → ReadsAnswered .loadSkey s →
    ∃ t, exec .loadSkey s = .next t ∧ Completes s t .ok 0 0
      ∧ t.skeyValid = true ∧ t.skeyLen = s.latch.srcLen
      ∧ t.sk = s.mem.readRun s.latch.srcAddr.toNat s.latch.srcLen.toNat
      ∧ t.skeyRam.drop s.latch.srcLen.toNat = s.skeyRam.drop s.latch.srcLen.toNat
      ∧ MemKept s t

/-- DECODE_INDEX on a blob that decodes (41_index_decoder.md R79): the record key, then IV, at the destination. -/
def Obligations.DecodeIndexResult : Prop :=
  ∀ (s : State) (key iv : List Byte), Fresh s → s.mem.wf = true → Runnable .decodeIndex s →
    ReadsAnswered .decodeIndex s → WritesAnswered .decodeIndex s →
    decodeIndexBlob s.sk (s.mem.readRun s.latch.auxAddr.toNat s.latch.auxLen.toNat) = .ok (key, iv) →
    ∃ t, exec .decodeIndex s = .next t ∧ Completes s t .ok 48 0 ∧ KeyKept s t
      ∧ Stored s.mem t.mem s.latch.dstAddr.toNat (key ++ iv)

/-- ENCRYPT_INDEX on a blob that decodes (43_cbc_commands.md R101): CBC encryption of the source region under the
blob's key and IV. -/
def Obligations.EncryptIndexResult : Prop :=
  ∀ (s : State) (key iv : List Byte), Fresh s → s.mem.wf = true → Runnable .encryptIndex s →
    ReadsAnswered .encryptIndex s → WritesAnswered .encryptIndex s →
    decodeIndexBlob s.sk (s.mem.readRun s.latch.auxAddr.toNat s.latch.auxLen.toNat) = .ok (key, iv) →
    ∃ t, exec .encryptIndex s = .next t
      ∧ Completes s t .ok ((s.latch.srcLen.toNat / 16 + 1) * 16) 0 ∧ KeyKept s t
      ∧ Stored s.mem t.mem s.latch.dstAddr.toNat
        (cbcEncrypt key iv (s.mem.readRun s.latch.srcAddr.toNat s.latch.srcLen.toNat))

/-- DECRYPT_INDEX on a blob that decodes and a ciphertext that decrypts (R102): the plaintext, and no byte beyond
it. -/
def Obligations.DecryptIndexResult : Prop :=
  ∀ (s : State) (key iv plain : List Byte), Fresh s → s.mem.wf = true → Runnable .decryptIndex s →
    ReadsAnswered .decryptIndex s → WritesAnswered .decryptIndex s →
    decodeIndexBlob s.sk (s.mem.readRun s.latch.auxAddr.toNat s.latch.auxLen.toNat) = .ok (key, iv) →
    cbcDecrypt key iv (s.mem.readRun s.latch.srcAddr.toNat s.latch.srcLen.toNat) = some plain →
    ∃ t, exec .decryptIndex s = .next t ∧ Completes s t .ok plain.length 0 ∧ KeyKept s t
      ∧ Stored s.mem t.mem s.latch.dstAddr.toNat plain

/-- ENCRYPT_RAW (R103): CBC encryption of the source region under the record's key and IV, with or without a static
key. -/
def Obligations.EncryptRawResult : Prop :=
  ∀ s : State, Fresh s → s.mem.wf = true → Runnable .encryptRaw s →
    ReadsAnswered .encryptRaw s → WritesAnswered .encryptRaw s →
    ∃ t, exec .encryptRaw s = .next t
      ∧ Completes s t .ok ((s.latch.srcLen.toNat / 16 + 1) * 16) 0 ∧ KeyKept s t
      ∧ Stored s.mem t.mem s.latch.dstAddr.toNat
        (cbcEncrypt (s.mem.readRun s.latch.auxAddr.toNat 32) (s.mem.readRun (s.latch.auxAddr.toNat + 32) 16)
          (s.mem.readRun s.latch.srcAddr.toNat s.latch.srcLen.toNat))

/-- DECRYPT_RAW on a ciphertext that decrypts (R104): the plaintext, and no byte beyond it. -/
def Obligations.DecryptRawResult : Prop :=
  ∀ (s : State) (plain : List Byte), Fresh s → s.mem.wf = true → Runnable .decryptRaw s →
    ReadsAnswered .decryptRaw s → WritesAnswered .decryptRaw s →
    cbcDecrypt (s.mem.readRun s.latch.auxAddr.toNat 32) (s.mem.readRun (s.latch.auxAddr.toNat + 32) 16)
      (s.mem.readRun s.latch.srcAddr.toNat s.latch.srcLen.toNat) = some plain →
    ∃ t, exec .decryptRaw s = .next t ∧ Completes s t .ok plain.length 0 ∧ KeyKept s t
      ∧ Stored s.mem t.mem s.latch.dstAddr.toNat plain

/-- FINGERPRINT of a well-formed name (45_fingerprint.md R119): its fingerprint under the static key, in hex or raw. -/
def Obligations.FingerprintResult : Prop :=
  ∀ (s : State) (raw : Bool), Fresh s → s.mem.wf = true → Runnable (.fingerprint raw) s →
    ReadsAnswered (.fingerprint raw) s → WritesAnswered (.fingerprint raw) s →
    wellFormedUtf8 (s.mem.readRun s.latch.srcAddr.toNat s.latch.srcLen.toNat) = true →
    ∃ t, exec (.fingerprint raw) s = .next t ∧ Completes s t .ok (if raw then 32 else 64) 0 ∧ KeyKept s t
      ∧ Stored s.mem t.mem s.latch.dstAddr.toNat
        (fpOut (fingerprint s.sk (s.mem.readRun s.latch.srcAddr.toNat s.latch.srcLen.toNat)) raw)

/-- FINGERPRINT_CAT (R120): the fingerprint of catalogue entry `k`. -/
def Obligations.FingerprintCatResult : Prop :=
  ∀ (s : State) (k : Nat) (raw : Bool), Fresh s → s.mem.wf = true → Runnable (.fingerprintCat k raw) s →
    WritesAnswered (.fingerprintCat k raw) s →
    ∃ t, exec (.fingerprintCat k raw) s = .next t ∧ Completes s t .ok (if raw then 32 else 64) 0 ∧ KeyKept s t
      ∧ Stored s.mem t.mem s.latch.dstAddr.toNat (fpOut (fingerprint s.sk (s.cfg.name k)) raw)

/-- FINGERPRINT_ALL (R121, R71): record `k` of the table, for every `k` below 12, is the fingerprint of catalogue
entry `k`; no byte outside the table changes. -/
def Obligations.FingerprintAllResult : Prop :=
  ∀ (s : State) (raw : Bool), Fresh s → s.mem.wf = true → Runnable (.fingerprintAll raw) s →
    WritesAnswered (.fingerprintAll raw) s →
    ∃ t, exec (.fingerprintAll raw) s = .next t ∧ Completes s t .ok (12 * (if raw then 32 else 64)) 0 ∧ KeyKept s t
      ∧ (∀ k, k < 12 →
        t.mem.readRun (s.latch.dstAddr.toNat + (if raw then 32 else 64) * k) (if raw then 32 else 64) =
          fpOut (fingerprint s.sk (s.cfg.name k)) raw)
      ∧ ∀ a, ¬(s.latch.dstAddr.toNat ≤ a ∧ a < s.latch.dstAddr.toNat + 12 * (if raw then 32 else 64)) →
        t.mem.read a = s.mem.read a

/-- CATALOGUE_NAME (R122): the bytes of catalogue entry `k`, with no terminator. -/
def Obligations.CatalogueNameResult : Prop :=
  ∀ (s : State) (k : Nat), Fresh s → s.mem.wf = true → Runnable (.catalogueName k) s →
    WritesAnswered (.catalogueName k) s →
    ∃ t, exec (.catalogueName k) s = .next t ∧ Completes s t .ok (s.cfg.name k).length 0 ∧ KeyKept s t
      ∧ Stored s.mem t.mem s.latch.dstAddr.toNat (s.cfg.name k)

/-- DECRYPT_INDEX undoes ENCRYPT_INDEX, and DECRYPT_RAW undoes ENCRYPT_RAW (R97). First, run on a source region that
holds the ciphertext of `plain` under the same key and IV, they write `plain`. Then the two commands one after the
other: where ENCRYPT_* has run, DECRYPT_* on its output, with the same blob or record and, for the index commands, the
same static key, writes the plaintext that ENCRYPT_* read, and OUT_LEN is its length. No command fails for an
interface reason: that is R97's proviso. -/
def Obligations.CommandRoundTrip : Prop :=
  (∀ (s : State) (key iv plain : List Byte), Fresh s → s.mem.wf = true → Runnable .decryptIndex s →
    ReadsAnswered .decryptIndex s → WritesAnswered .decryptIndex s →
    decodeIndexBlob s.sk (s.mem.readRun s.latch.auxAddr.toNat s.latch.auxLen.toNat) = .ok (key, iv) →
    s.mem.readRun s.latch.srcAddr.toNat s.latch.srcLen.toNat = cbcEncrypt key iv plain →
    ∃ t, exec .decryptIndex s = .next t ∧ t.result = 0 ∧ t.outLen.toNat = plain.length
      ∧ Stored s.mem t.mem s.latch.dstAddr.toNat plain)
  ∧ (∀ (s : State) (plain : List Byte), Fresh s → s.mem.wf = true → Runnable .decryptRaw s →
    ReadsAnswered .decryptRaw s → WritesAnswered .decryptRaw s →
    s.mem.readRun s.latch.srcAddr.toNat s.latch.srcLen.toNat =
      cbcEncrypt (s.mem.readRun s.latch.auxAddr.toNat 32) (s.mem.readRun (s.latch.auxAddr.toNat + 32) 16) plain →
    ∃ t, exec .decryptRaw s = .next t ∧ t.result = 0 ∧ t.outLen.toNat = plain.length
      ∧ Stored s.mem t.mem s.latch.dstAddr.toNat plain)
  ∧ ∀ p ∈ [(Instr.encryptIndex, Instr.decryptIndex), (Instr.encryptRaw, Instr.decryptRaw)],
    ∀ (s : State) (key iv : List Byte), Fresh s → s.mem.wf = true → Runnable p.1 s →
      ReadsAnswered p.1 s → WritesAnswered p.1 s → Keys p.1 s key iv →
      ∃ t, exec p.1 s = .next t ∧ t.result = 0
        ∧ ∀ u : State, (p.1 = .encryptIndex → u.sk = s.sk) →
          u.mem.readRun u.latch.auxAddr.toNat u.latch.auxLen.toNat =
            s.mem.readRun s.latch.auxAddr.toNat s.latch.auxLen.toNat →
          u.mem.readRun u.latch.srcAddr.toNat u.latch.srcLen.toNat =
            t.mem.readRun s.latch.dstAddr.toNat t.outLen.toNat →
          Fresh u → u.mem.wf = true → Runnable p.2 u → ReadsAnswered p.2 u → WritesAnswered p.2 u →
          ∃ v, exec p.2 u = .next v ∧ v.result = 0 ∧ v.outLen.toNat = s.latch.srcLen.toNat
            ∧ Stored u.mem v.mem u.latch.dstAddr.toNat
              (s.mem.readRun s.latch.srcAddr.toNat s.latch.srcLen.toNat)

/-! ### How each command fails -/

/-- PADDING (b) (60_exceptions.md R127): a ciphertext whose last decrypted block has invalid padding ends DECRYPT_*
with no output, and the non-final blocks' bytes, already written, read 0x00; nothing else changes. -/
def Obligations.InvalidPaddingIsScrubbed : Prop :=
  (∀ (s : State) (key iv : List Byte), Fresh s → s.mem.wf = true → Runnable .decryptIndex s →
    ReadsAnswered .decryptIndex s → WritesAnswered .decryptIndex s →
    decodeIndexBlob s.sk (s.mem.readRun s.latch.auxAddr.toNat s.latch.auxLen.toNat) = .ok (key, iv) →
    cbcDecrypt key iv (s.mem.readRun s.latch.srcAddr.toNat s.latch.srcLen.toNat) = none →
    ∃ t, exec .decryptIndex s = .next t ∧ Completes s t .padding 0 0 ∧ KeyKept s t
      ∧ Stored s.mem t.mem s.latch.dstAddr.toNat (List.replicate (s.latch.srcLen.toNat - 16) 0))
  ∧ ∀ s : State, Fresh s → s.mem.wf = true → Runnable .decryptRaw s →
    ReadsAnswered .decryptRaw s → WritesAnswered .decryptRaw s →
    cbcDecrypt (s.mem.readRun s.latch.auxAddr.toNat 32) (s.mem.readRun (s.latch.auxAddr.toNat + 32) 16)
      (s.mem.readRun s.latch.srcAddr.toNat s.latch.srcLen.toNat) = none →
    ∃ t, exec .decryptRaw s = .next t ∧ Completes s t .padding 0 0 ∧ KeyKept s t
      ∧ Stored s.mem t.mem s.latch.dstAddr.toNat (List.replicate (s.latch.srcLen.toNat - 16) 0)

/-- CAT_INDEX (R136, R139): an index of 12 or more, with or without a static key. -/
def Obligations.CatIndexError : Prop :=
  ∀ (s : State) (k : Nat) (raw : Bool), Fresh s → 12 ≤ k →
    (∃ t, exec (.fingerprintCat k raw) s = .next t ∧ Errs s t .catIndex 0)
    ∧ ∃ t, exec (.catalogueName k) s = .next t ∧ Errs s t .catIndex 0

/-- SKEY_NOT_LOADED (R130, R139): each command that uses the static key, before LOAD_SKEY, whatever its regions. -/
def Obligations.SkeyNotLoadedError : Prop :=
  ∀ (s : State) (k : Nat) (raw : Bool), Fresh s → s.skeyValid = false → k < 12 →
    ∀ i ∈ [Instr.decodeIndex, .encryptIndex, .decryptIndex, .fingerprint raw, .fingerprintCat k raw,
      .fingerprintAll raw],
      ∃ t, exec i s = .next t ∧ Errs s t .skeyNotLoaded 0

/-- The errors of LOAD_SKEY before its first access, in their order (R132, R131, R133 (a); 40_key_store.md R73): a key
already loaded, an empty key, a key longer than the store. -/
def Obligations.LoadSkeyErrors : Prop :=
  ∀ s : State, Fresh s →
    (s.skeyValid = true → ∃ t, exec .loadSkey s = .next t ∧ Errs s t .skeyLocked 0)
    ∧ (s.skeyValid = false → s.latch.srcLen = 0 → ∃ t, exec .loadSkey s = .next t ∧ Errs s t .skeyEmpty 0)
    ∧ (s.skeyValid = false → s.latch.srcLen ≠ 0 → s.cfg.skeyMax < s.latch.srcLen.toNat →
      ∃ t, exec .loadSkey s = .next t ∧ Errs s t .length 0)

/-- PADDING (a) and LENGTH (b) (R127, R133, R139): a ciphertext length of 0 or no multiple of 16, checked before the
regions; then a record length other than 48. -/
def Obligations.CipherLengthErrors : Prop :=
  ∀ s : State, Fresh s →
    ((s.latch.srcLen.toNat = 0 ∨ s.latch.srcLen.toNat % 16 ≠ 0) →
      (s.skeyValid = true → ∃ t, exec .decryptIndex s = .next t ∧ Errs s t .padding 0)
      ∧ ∃ t, exec .decryptRaw s = .next t ∧ Errs s t .padding 0)
    ∧ (s.latch.auxLen.toNat ≠ 48 →
      (∃ t, exec .encryptRaw s = .next t ∧ Errs s t .length 0)
      ∧ (s.latch.srcLen.toNat ≠ 0 → s.latch.srcLen.toNat % 16 = 0 →
        ∃ t, exec .decryptRaw s = .next t ∧ Errs s t .length 0))

/-- LENGTH (c), (d), (e), then OVERLAP, of every command, in their order (R133, R134, R138): an input region that
wraps; an output extent past the capacity or the address space; an output extent that shares a byte with an input. -/
def Obligations.RegionErrors : Prop :=
  ∀ (i : Instr) (s : State), Fresh s → Admitted i s →
    (¬InputsInRange i s → ∃ t, exec i s = .next t ∧ Errs s t .length 0)
    ∧ (InputsInRange i s → ¬OutputFits i s → ∃ t, exec i s = .next t ∧ Errs s t .length 0)
    ∧ (InputsInRange i s → OutputFits i s → ¬NoOverlap i s → ∃ t, exec i s = .next t ∧ Errs s t .overlap 0)

/-- UTF8 (R135): an ill-formed name, found after the whole name has been read, before any write. -/
def Obligations.Utf8Error : Prop :=
  ∀ (s : State) (raw : Bool), Fresh s → Runnable (.fingerprint raw) s → ReadsAnswered (.fingerprint raw) s →
    wellFormedUtf8 (s.mem.readRun s.latch.srcAddr.toNat s.latch.srcLen.toNat) = false →
    ∃ t, exec (.fingerprint raw) s = .next t ∧ Errs s t .utf8 0

/-- HEADER and FORMAT (R125, R126) of the three commands that read an index blob, once the whole blob has been read:
a blob without the magic; then a payload that declares other lengths than 16 and 32, or is too short for them. -/
def Obligations.IndexErrors : Prop :=
  ∀ (i : Instr) (s : State) (blob buf : List Byte),
    i ∈ [Instr.decodeIndex, .encryptIndex, .decryptIndex] → Fresh s → Runnable i s →
    (∀ a, s.latch.auxAddr.toNat ≤ a → a < s.latch.auxAddr.toNat + s.latch.auxLen.toNat →
      s.cfg.busErrAt a .read = false) →
    blob = s.mem.readRun s.latch.auxAddr.toNat s.latch.auxLen.toNat → buf = deobf s.sk (blob.drop 4) →
    (blob.take 4 ≠ [0xAB, 0xBA, 0x01, 0x00] → ∃ t, exec i s = .next t ∧ Errs s t .header 0)
    ∧ (blob.take 4 = [0xAB, 0xBA, 0x01, 0x00] →
      (buf.length < 52 ∨ (buf.getD 0 0).toNat + 256 * (buf.getD 1 0).toNat ≠ 16
        ∨ (buf.getD 2 0).toNat + 256 * (buf.getD 3 0).toNat ≠ 32) →
      ∃ t, exec i s = .next t ∧ Errs s t .format 0)

/-- BUS on a read (R128, 20_memory.md R45, R52). The first input region is read first and whole, so its first byte in
address order that gets an error response ends the command, with that byte's address in ERR_ADDR and memory
unchanged. The second one, the source of the cipher commands, is read block by block after the key: the first byte of
it that gets an error response ends the command, with its address in ERR_ADDR, and the bytes of the blocks written
before it read 0x00 (R141). -/
def Obligations.BusErrorOnRead : Prop :=
  (∀ (i : Instr) (s : State) (r : Region) (rest : List Region) (j : Nat), Fresh s → Runnable i s →
    inputs i s = r :: rest → j < r.len →
    (∀ m, m < j → s.cfg.busErrAt (r.addr + m) .read = false) → s.cfg.busErrAt (r.addr + j) .read = true →
    ∃ t, exec i s = .next t ∧ Errs s t .bus (r.addr + j))
  ∧ ∀ (i : Instr) (s : State) (key iv : List Byte) (j : Nat), Fresh s → s.mem.wf = true → Runnable i s →
    Keys i s key iv →
    (∀ a, s.latch.auxAddr.toNat ≤ a → a < s.latch.auxAddr.toNat + s.latch.auxLen.toNat →
      s.cfg.busErrAt a .read = false) →
    j < s.latch.srcLen.toNat →
    (∀ m, m < j → s.cfg.busErrAt (s.latch.srcAddr.toNat + m) .read = false) →
    s.cfg.busErrAt (s.latch.srcAddr.toNat + j) .read = true →
    (∀ m, m < 16 * (j / 16) → s.cfg.busErrAt (s.latch.dstAddr.toNat + m) .write = false) →
    ∃ t, exec i s = .next t ∧ Completes s t .bus 0 (s.latch.srcAddr.toNat + j) ∧ KeyKept s t
      ∧ Stored s.mem t.mem s.latch.dstAddr.toNat (List.replicate (16 * (j / 16)) 0)

/-- BUS on a write (R128, R141, 20_memory.md R46), of every command that writes: where its reads are answered and its
input data have no fault, the first byte of its output that gets an error response is in ERR_ADDR and keeps its value,
and the bytes before it read 0x00. -/
def Obligations.BusErrorOnWrite : Prop :=
  ∀ (i : Instr) (s : State) (bs : List Byte) (j : Nat), Fresh s → s.mem.wf = true → Runnable i s →
    ReadsAnswered i s → Produces i s bs → j < bs.length →
    (∀ m, m < j → s.cfg.busErrAt (s.latch.dstAddr.toNat + m) .write = false) →
    s.cfg.busErrAt (s.latch.dstAddr.toNat + j) .write = true →
    ∃ t, exec i s = .next t ∧ Completes s t .bus 0 (s.latch.dstAddr.toNat + j) ∧ KeyKept s t
      ∧ Stored s.mem t.mem s.latch.dstAddr.toNat (List.replicate j 0)

/-! ### The functions of the datapaths -/

/-- The cyclic XOR, byte by byte, and that it undoes itself (41_index_decoder.md R75, R76). -/
def Obligations.Deobfuscation : Prop :=
  (∀ sk p : List Byte, 1 ≤ sk.length →
    (deobf sk p).length = p.length
      ∧ ∀ i, i < p.length → (deobf sk p).getD i 0 = p.getD i 0 ^^^ sk.getD (i % sk.length) 0)
  ∧ ∀ sk p : List Byte, deobf sk (deobf sk p) = p

/-- DecodeIndex in terms of the blob's own bytes (R77, 30_encoding.md R66, R67): which blobs decode, and where the IV
and the key stand; and bytes from 56 on are filler (R78). -/
def Obligations.IndexFields : Prop :=
  (∀ sk blob key iv : List Byte,
    decodeIndexBlob sk blob = .ok (key, iv) ↔
      56 ≤ blob.length ∧ blob.take 4 = [0xAB, 0xBA, 0x01, 0x00]
        ∧ (∀ b : Nat → Byte, (∀ n, b n = blob.getD (4 + n) 0 ^^^ sk.getD (n % sk.length) 0) →
          (b 0).toNat + 256 * (b 1).toNat = 16 ∧ (b 2).toNat + 256 * (b 3).toNat = 32
            ∧ iv = (List.range 16).map (fun n => b (4 + n)) ∧ key = (List.range 32).map (fun n => b (20 + n))))
  ∧ ∀ sk blob : List Byte, decodeIndexBlob sk (blob.take 56) = decodeIndexBlob sk blob

/-- The S-box is the affine transform of the inverse in GF(2^8), and the inverse S-box undoes it (42_aes_core.md
R80 to R82). -/
def Obligations.SBoxes : Prop :=
  (∀ a : Byte, ∃ b : Byte, ((a = 0 ∧ b = 0) ∨ gmul a b = 1)
      ∧ sbox a = b ^^^ b.rotateLeft 1 ^^^ b.rotateLeft 2 ^^^ b.rotateLeft 3 ^^^ b.rotateLeft 4 ^^^ 0x63)
    ∧ ∀ a : Byte, invSbox (sbox a) = a ∧ sbox (invSbox a) = a

/-- The inverse cipher undoes the cipher and the cipher undoes the inverse cipher, for every key schedule: each is a
bijection on blocks (R92). -/
def Obligations.AesInverse : Prop :=
  ∀ (w : List Quad) (b : Block), aesDecrypt w (aesEncrypt w b) = b ∧ aesEncrypt w (aesDecrypt w b) = b

/-- PKCS#7 (43_cbc_commands.md R93, R94): what Pad appends, and that Unpad takes off exactly `n` bytes of value `n`,
`1 ≤ n ≤ 16`, and fails otherwise. -/
def Obligations.Padding : Prop :=
  (∀ p : List Byte, ∃ n, 1 ≤ n ∧ n ≤ 16 ∧ n = 16 - p.length % 16 ∧ pad p = p ++ List.replicate n (BitVec.ofNat 8 n))
  ∧ ∀ d p : List Byte, unpad d = some p ↔ ∃ n, 1 ≤ n ∧ n ≤ 16 ∧ d = p ++ List.replicate n (BitVec.ofNat 8 n)

/-- The ciphertext length law (R96). -/
def Obligations.CiphertextLength : Prop :=
  ∀ key iv p : List Byte, (cbcEncrypt key iv p).length = (p.length / 16 + 1) * 16

/-- Decryption undoes encryption for every 32-byte key, 16-byte IV and plaintext (R97). -/
def Obligations.CbcRoundTrip : Prop :=
  ∀ key iv p : List Byte, key.length = 32 → iv.length = 16 → cbcDecrypt key iv (cbcEncrypt key iv p) = some p

/-- The padded SHA-256 message (44_sha256_core.md R109): the message, 80, the fewest zeros that make whole blocks, and
the bit length, most significant byte first; and the digest has 32 bytes (R112). -/
def Obligations.ShaPadding : Prop :=
  ∀ m : List Byte, m.length < 2 ^ 61 →
    (∃ k, k < 64 ∧ (m.length + 1 + k) % 64 = 56
      ∧ shaPad m = m ++ [0x80] ++ List.replicate k 0 ++
        (List.range 8).map (fun j => BitVec.ofNat 8 (8 * m.length / 256 ^ (7 - j))))
    ∧ (shaPad m).length % 64 = 0
    ∧ (sha256 m).length = 32

/-- Well-formed names (45_fingerprint.md R114): a name's scalars are the one way to split it into byte sequences of
the table, and it is well-formed exactly when there is one. -/
def Obligations.Utf8Scalars : Prop :=
  (∀ (name : List Byte) (l : List (List Byte)),
    scalars name = some l ↔ name = l.flatten ∧ ∀ x ∈ l, IsScalar x)
  ∧ ∀ name : List Byte, wellFormedUtf8 name = true ↔ ∃ l : List (List Byte), name = l.flatten ∧ ∀ x ∈ l, IsScalar x

/-- The fingerprint message and its output form (R115, 30_encoding.md R70): the whole static key, then each scalar
and a 00; two uppercase hex digits a digest byte, high nibble first, or the digest itself. -/
def Obligations.FingerprintForms : Prop :=
  (∀ (sk : List Byte) (l : List (List Byte)), (∀ x ∈ l, IsScalar x) →
    fpMsg sk l.flatten = sk ++ (l.map (fun x => x ++ [0])).flatten
      ∧ (fpMsg sk l.flatten).length = sk.length + l.flatten.length + l.length)
  ∧ ∀ d : List Byte, d.length = 32 →
    fpOut d true = d ∧ (fpOut d false).length = 64
      ∧ ∀ j, j < 32 → ∀ digits : List Byte,
        digits = [0x30, 0x31, 0x32, 0x33, 0x34, 0x35, 0x36, 0x37, 0x38, 0x39, 0x41, 0x42, 0x43, 0x44, 0x45, 0x46] →
        (fpOut d false).getD (2 * j) 0 = digits.getD ((d.getD j 0).toNat / 16) 0
          ∧ (fpOut d false).getD (2 * j + 1) 0 = digits.getD ((d.getD j 0).toNat % 16) 0
end

