-- ==== Sys2Proof/Laws/Config.lean ====
section
/-! SUPPORT. The instance of State.reset meets what 00_scope.md R7 and 10_state.md R36 require, whatever its free
values are. -/

namespace Sys2Proof

/-- The spec's test catalogue is a legal one. -/
theorem placeholderCatalogue_wf : catalogueWf placeholderCatalogue = true := by decide +kernel

/-- The free catalogue is a legal one. -/
theorem Config.someCatalogue_wf : catalogueWf Config.someCatalogue = true := by
  unfold Config.someCatalogue
  simp only
  split
  · assumption
  · exact placeholderCatalogue_wf

/-- A legal catalogue has twelve names. -/
theorem catalogueWf_length {names : List Name} (h : catalogueWf names = true) : names.length = 12 := by
  simp only [catalogueWf, Bool.and_eq_true, beq_iff_eq] at h
  exact h.1.1.1.1.1

/-- The instance's twelve names, spelt out, are the free catalogue. -/
theorem Config.default_catalogue : Config.default.catalogue = Config.someCatalogue := by
  have h := catalogueWf_length Config.someCatalogue_wf
  simp only [Config.default, Config.someName]
  generalize Config.someCatalogue = l at h
  match l, h with
  | [_, _, _, _, _, _, _, _, _, _, _, _], _ => rfl

/-- The instance of State.reset is a legal one. -/
theorem Config.default_wf : Config.default.wf = true := by
  have h : catalogueWf Config.default.catalogue = true := by
    rw [Config.default_catalogue]; exact Config.someCatalogue_wf
  simp only [Config.wf, h, Bool.and_true]
  simp [Config.default]

end Sys2Proof
end

