-- ==== Sys2Proof/Laws/Flags.lean ====
section
/-! SUPPORT. The flag bits: what setting one bit does to the others, and to a word whose reserved bits are 0. -/

namespace Sys2Proof.Machine

/-- Setting bit `i` changes bit `i` alone. -/
theorem getLsbD_setBit (w : Word) (i j : Nat) (b : Bool) (hi : i < 32) :
    (setBit w i b).getLsbD j = if j = i then b else w.getLsbD j := by
  cases b
  · by_cases h : j = i
    · subst h; simp [setBit, hi]
    · by_cases hj : j < 32
      · simp [setBit, h, hj]
      · simp [setBit, h, BitVec.getLsbD_of_ge w j (by omega)]
  · by_cases h : j = i
    · subst h; simp [setBit, hi]
    · simp [setBit, BitVec.getLsbD_twoPow, h, Ne.symm h]

/-- Acceptance sets BUSY, clears DONE and leaves the other bits (10_state.md R23). -/
theorem getLsbD_statusAccepted (w : Word) (j : Nat) :
    (statusAccepted w).getLsbD j = if j = 0 then true else if j = 1 then false else w.getLsbD j := by
  simp [statusAccepted, getLsbD_setBit]

/-- Completion clears BUSY, sets DONE and leaves the other bits (60_exceptions.md R140). -/
theorem getLsbD_statusCompleted (w : Word) (j : Nat) :
    (statusCompleted w).getLsbD j = if j = 1 then true else if j = 0 then false else w.getLsbD j := by
  simp [statusCompleted, getLsbD_setBit]

/-- A word whose bits from `n` on are 0 is a number below `2 ^ n`. -/
theorem toNat_lt_of_bits {w : Word} (n : Nat) (h : ∀ j, n ≤ j → w.getLsbD j = false) : w.toNat < 2 ^ n := by
  refine Nat.lt_pow_two_of_testBit _ fun j hj => ?_
  simpa [BitVec.getLsbD] using h j hj

/-- The bits from `n` on of a number below `2 ^ n` are 0. -/
theorem getLsbD_of_toNat_lt {w : Word} {n j : Nat} (h : w.toNat < 2 ^ n) (hj : n ≤ j) : w.getLsbD j = false := by
  rw [BitVec.getLsbD]
  exact Nat.testBit_lt_two_pow (Nat.lt_of_lt_of_le h (Nat.pow_le_pow_right (by omega) hj))

end Sys2Proof.Machine
end

