-- ==== Sys2Proof/Laws/Memory.lean ====
section
/-! SUPPORT. Memory: read after write, the canonical form, runs of bytes. -/

namespace Sys2Proof.Machine

theorem Memory.wfFrom_mono {m : Memory} {lo lo' : Nat} (h : Memory.wfFrom lo m = true) (hl : lo' ≤ lo) :
    Memory.wfFrom lo' m = true := by
  cases m with
  | nil => rfl
  | cons p rest =>
    simp only [Memory.wfFrom, Bool.and_eq_true, decide_eq_true_eq] at h ⊢
    exact ⟨by omega, h.2⟩

theorem Memory.read_below {m : Memory} {lo a : Nat} (h : Memory.wfFrom lo m = true) (ha : a < lo) :
    m.read a = Memory.background := by
  induction m generalizing lo with
  | nil => rfl
  | cons p rest ih =>
    simp only [Memory.wfFrom, Bool.and_eq_true, decide_eq_true_eq] at h
    have hne : a ≠ p.1 := by omega
    simpa [Memory.read, hne] using ih h.2.2.2 (by omega)

theorem Memory.wfFrom_write {m : Memory} {lo a : Nat} (v : Byte) (h : Memory.wfFrom lo m = true) (hl : lo ≤ a)
    (ha : a < addressSpace) : Memory.wfFrom lo (m.write a v) = true := by
  induction m generalizing lo with
  | nil => by_cases hv : v = Memory.background <;> simp [Memory.write, Memory.wfFrom, hv, hl, ha]
  | cons p rest ih =>
    obtain ⟨b, w⟩ := p
    simp only [Memory.wfFrom, Bool.and_eq_true, decide_eq_true_eq] at h
    obtain ⟨h1, h2, h3, h4⟩ := h
    rcases lt_trichotomy a b with hlt | rfl | hgt
    · have h4' : Memory.wfFrom (b + 1) rest = true := h4
      by_cases hv : v = Memory.background
      · simp [Memory.write, Memory.wfFrom, hv, hlt, h1, h2, h3, h4]
      · simp only [Memory.write, hlt, if_true, hv, if_false, Memory.wfFrom, Bool.and_eq_true, decide_eq_true_eq]
        exact ⟨hl, ha, by simpa using hv, by omega, h2, h3, h4'⟩
    · by_cases hv : v = Memory.background
      · simpa [Memory.write, hv] using Memory.wfFrom_mono h4 (by omega)
      · simp [Memory.write, Memory.wfFrom, hv, hl, ha, h4]
    · have hn1 : ¬ a < b := by omega
      have hn2 : a ≠ b := by omega
      simp only [Memory.write, hn1, if_false, hn2, Memory.wfFrom, Bool.and_eq_true, decide_eq_true_eq]
      exact ⟨h1, h2, h3, ih h4 (by omega)⟩

/-- Every write at an address of system memory keeps the canonical form. -/
theorem Memory.wf_write {m : Memory} {a : Nat} (v : Byte) (h : m.wf = true) (ha : a < addressSpace) :
    (m.write a v).wf = true := Memory.wfFrom_write v h (Nat.zero_le a) ha

theorem Memory.read_write_from {m : Memory} {lo : Nat} (a b : Nat) (v : Byte) (h : Memory.wfFrom lo m = true) :
    (m.write a v).read b = if b = a then v else m.read b := by
  induction m generalizing lo with
  | nil =>
    by_cases hv : v = Memory.background <;> by_cases hb : b = a <;>
      simp [Memory.write, Memory.read, hv, hb]
  | cons p rest ih =>
    obtain ⟨c, w⟩ := p
    simp only [Memory.wfFrom, Bool.and_eq_true, decide_eq_true_eq] at h
    obtain ⟨-, -, -, h4⟩ := h
    rcases lt_trichotomy a c with hlt | rfl | hgt
    · by_cases hv : v = Memory.background
      · by_cases hb : b = a
        · have hbc : b ≠ c := by omega
          simp [Memory.write, Memory.read, hlt, hv, hb, show a ≠ c by omega,
            Memory.read_below h4 (show a < c + 1 by omega)]
        · simp [Memory.write, hlt, hv, hb]
      · by_cases hb : b = a <;> simp [Memory.write, Memory.read, hlt, hv, hb]
    · by_cases hv : v = Memory.background
      · by_cases hb : b = a
        · simp [Memory.write, hv, hb, Memory.read_below h4 (show a < a + 1 by omega)]
        · simp [Memory.write, Memory.read, hv, hb]
      · by_cases hb : b = a <;> simp [Memory.write, Memory.read, hv, hb]
    · have hn1 : ¬ a < c := by omega
      have hn2 : a ≠ c := by omega
      by_cases hb : b = c
      · simp [Memory.write, Memory.read, hn1, hn2, hb, show c ≠ a by omega]
      · simp [Memory.write, Memory.read, hn1, hn2, hb, ih h4]

/-- Reading after a write: the byte written, and every other byte as before. -/
theorem Memory.read_write {m : Memory} (h : m.wf = true) (a b : Nat) (v : Byte) :
    (m.write a v).read b = if b = a then v else m.read b := Memory.read_write_from a b v h

/-- A run of writes inside system memory keeps the canonical form. -/
theorem Memory.wf_writeRun {m : Memory} {a : Nat} (bs : List Byte) (h : m.wf = true)
    (ha : a + bs.length ≤ addressSpace) : (m.writeRun a bs).wf = true := by
  induction bs generalizing m a with
  | nil => exact h
  | cons b bs ih =>
    simp only [List.length_cons] at ha
    exact ih (Memory.wf_write b h (by omega)) (by omega)

/-- Reading after a run of writes: the bytes written, and every other byte as before. -/
theorem Memory.read_writeRun {m : Memory} {a : Nat} (bs : List Byte) (h : m.wf = true)
    (ha : a + bs.length ≤ addressSpace) (b : Nat) :
    (m.writeRun a bs).read b = if a ≤ b ∧ b < a + bs.length then bs.getD (b - a) 0 else m.read b := by
  induction bs generalizing m a with
  | nil => simp [Memory.writeRun, show ¬(a ≤ b ∧ b < a) by omega]
  | cons x bs ih =>
    simp only [List.length_cons] at ha ⊢
    rw [Memory.writeRun, ih (Memory.wf_write x h (by omega)) (by omega), Memory.read_write h]
    by_cases hab : b = a
    · subst hab
      simp
    · by_cases hin : a + 1 ≤ b ∧ b < a + 1 + bs.length
      · have h2 : a ≤ b ∧ b < a + (bs.length + 1) := by omega
        rw [if_pos hin, if_pos h2]
        obtain ⟨k, rfl⟩ : ∃ k, b = a + 1 + k := ⟨b - (a + 1), by omega⟩
        rw [show a + 1 + k - (a + 1) = k by omega, show a + 1 + k - a = k + 1 by omega]
        rfl
      · have h2 : ¬(a ≤ b ∧ b < a + (bs.length + 1)) := by omega
        rw [if_neg hin, if_neg hab, if_neg h2]

@[simp] theorem Memory.length_readRun (m : Memory) (a n : Nat) : (m.readRun a n).length = n := by
  induction n generalizing a with
  | zero => rfl
  | succ n ih => simp [Memory.readRun, ih]

theorem Memory.getD_readRun (m : Memory) (a n i : Nat) (h : i < n) :
    (m.readRun a n).getD i 0 = m.read (a + i) := by
  induction n generalizing a i with
  | zero => omega
  | succ n ih =>
    cases i with
    | zero => simp [Memory.readRun]
    | succ i =>
      have h1 := ih (a + 1) i (by omega)
      rw [show a + (i + 1) = a + 1 + i by omega, ← h1]
      rfl

/-- Two memories that agree on a region read the same bytes there. -/
theorem Memory.readRun_congr {m m' : Memory} {a n : Nat}
    (h : ∀ b, a ≤ b → b < a + n → m'.read b = m.read b) : m'.readRun a n = m.readRun a n := by
  induction n generalizing a with
  | zero => rfl
  | succ n ih =>
    simp only [Memory.readRun]
    rw [h a (by omega) (by omega), ih fun b hb hb' => h b (by omega) (by omega)]

theorem Memory.readRun_add (m : Memory) (a n k : Nat) :
    m.readRun a (n + k) = m.readRun a n ++ m.readRun (a + n) k := by
  induction n generalizing a with
  | zero => simp [Memory.readRun]
  | succ n ih =>
    rw [show n + 1 + k = (n + k) + 1 by omega]
    simp only [Memory.readRun, List.cons_append]
    rw [ih, show a + 1 + n = a + (n + 1) by omega]

theorem Memory.writeRun_append (m : Memory) (a : Nat) (xs ys : List Byte) :
    m.writeRun a (xs ++ ys) = (m.writeRun a xs).writeRun (a + xs.length) ys := by
  induction xs generalizing m a with
  | nil => simp [Memory.writeRun]
  | cons x xs ih =>
    simp only [List.cons_append, Memory.writeRun, List.length_cons]
    rw [ih, show a + 1 + xs.length = a + (xs.length + 1) by omega]

theorem Memory.eq_of_read_from {m m' : Memory} {lo lo' : Nat} (h : Memory.wfFrom lo m = true)
    (h' : Memory.wfFrom lo' m' = true) (he : ∀ a, m.read a = m'.read a) : m = m' := by
  induction m generalizing lo lo' m' with
  | nil =>
    cases m' with
    | nil => rfl
    | cons q rest' =>
      simp only [Memory.wfFrom, Bool.and_eq_true, bne_iff_ne] at h'
      have := he q.1
      simp [Memory.read] at this
      exact absurd this.symm h'.2.2.1
  | cons p rest ih =>
    cases m' with
    | nil =>
      simp only [Memory.wfFrom, Bool.and_eq_true, bne_iff_ne] at h
      have := he p.1
      simp [Memory.read] at this
      exact absurd this h.2.2.1
    | cons q rest' =>
      simp only [Memory.wfFrom, Bool.and_eq_true, bne_iff_ne, decide_eq_true_eq] at h h'
      obtain ⟨-, -, hp, hr⟩ := h
      obtain ⟨-, -, hq, hr'⟩ := h'
      have hkey : p.1 = q.1 := by
        rcases lt_trichotomy p.1 q.1 with hlt | heq | hgt
        · have := he p.1
          simp [Memory.read, Nat.ne_of_lt hlt, Memory.read_below hr' (show p.1 < q.1 + 1 by omega)] at this
          exact absurd this hp
        · exact heq
        · have := he q.1
          simp [Memory.read, Nat.ne_of_lt hgt, Memory.read_below hr (show q.1 < p.1 + 1 by omega)] at this
          exact absurd this.symm hq
      have hval : p.2 = q.2 := by
        have := he p.1
        simpa [Memory.read, hkey] using this
      have htail : rest = rest' := by
        refine ih hr hr' fun a => ?_
        by_cases ha : a = p.1
        · rw [Memory.read_below hr (by omega), Memory.read_below hr' (by omega)]
        · have := he a
          have hb : a ≠ q.1 := by omega
          simpa [Memory.read, ha, hb] using this
      rw [htail, show p = q from Prod.ext hkey hval]

/-- Memories in canonical form that read alike are equal. -/
theorem Memory.eq_of_read {m m' : Memory} (h : m.wf = true) (h' : m'.wf = true)
    (he : ∀ a, m.read a = m'.read a) : m = m' := Memory.eq_of_read_from h h' he

end Sys2Proof.Machine
end

