-- ==== Sys2Proof/Laws/State.lean ====
section
/-! SUPPORT. One lemma per field of State and per named update, true by rfl. -/

namespace Sys2Proof.Machine

@[simp] theorem State.accept_cfg (s : State) (v : Word) :
    (s.accept v).cfg = s.cfg := rfl
@[simp] theorem State.accept_cmd (s : State) (v : Word) :
    (s.accept v).cmd = v := rfl
@[simp] theorem State.accept_status (s : State) (v : Word) :
    (s.accept v).status = statusAccepted s.status := rfl
@[simp] theorem State.accept_result (s : State) (v : Word) :
    (s.accept v).result = 0 := rfl
@[simp] theorem State.accept_outLen (s : State) (v : Word) :
    (s.accept v).outLen = 0 := rfl
@[simp] theorem State.accept_errAddr (s : State) (v : Word) :
    (s.accept v).errAddr = 0 := rfl
@[simp] theorem State.accept_irqEn (s : State) (v : Word) :
    (s.accept v).irqEn = s.irqEn := rfl
@[simp] theorem State.accept_irqStat (s : State) (v : Word) :
    (s.accept v).irqStat = s.irqStat := rfl
@[simp] theorem State.accept_srcAddr (s : State) (v : Word) :
    (s.accept v).srcAddr = s.srcAddr := rfl
@[simp] theorem State.accept_srcLen (s : State) (v : Word) :
    (s.accept v).srcLen = s.srcLen := rfl
@[simp] theorem State.accept_auxAddr (s : State) (v : Word) :
    (s.accept v).auxAddr = s.auxAddr := rfl
@[simp] theorem State.accept_auxLen (s : State) (v : Word) :
    (s.accept v).auxLen = s.auxLen := rfl
@[simp] theorem State.accept_dstAddr (s : State) (v : Word) :
    (s.accept v).dstAddr = s.dstAddr := rfl
@[simp] theorem State.accept_dstLen (s : State) (v : Word) :
    (s.accept v).dstLen = s.dstLen := rfl
@[simp] theorem State.accept_skeyLen (s : State) (v : Word) :
    (s.accept v).skeyLen = s.skeyLen := rfl
@[simp] theorem State.accept_skeyRam (s : State) (v : Word) :
    (s.accept v).skeyRam = s.skeyRam := rfl
@[simp] theorem State.accept_latch (s : State) (v : Word) :
    (s.accept v).latch = ⟨v, s.srcAddr, s.srcLen, s.auxAddr, s.auxLen, s.dstAddr, s.dstLen⟩ := rfl
@[simp] theorem State.accept_work (s : State) (v : Word) :
    (s.accept v).work = { s.work with written := [] } := rfl
@[simp] theorem State.accept_mem (s : State) (v : Word) :
    (s.accept v).mem = s.mem := rfl
@[simp] theorem State.accept_journal (s : State) (v : Word) :
    (s.accept v).journal = [] := rfl
@[simp] theorem State.accept_extent (s : State) (v : Word) :
    (s.accept v).extent = 0 := rfl
@[simp] theorem State.accept_env (s : State) (v : Word) :
    (s.accept v).env = s.env := rfl
@[simp] theorem State.accept_replies (s : State) (v : Word) :
    (s.accept v).replies = s.replies := rfl

@[simp] theorem State.overrun_cfg (s : State) :
    (s.overrun).cfg = s.cfg := rfl
@[simp] theorem State.overrun_cmd (s : State) :
    (s.overrun).cmd = s.cmd := rfl
@[simp] theorem State.overrun_status (s : State) :
    (s.overrun).status = setBit s.status 3 true := rfl
@[simp] theorem State.overrun_result (s : State) :
    (s.overrun).result = s.result := rfl
@[simp] theorem State.overrun_outLen (s : State) :
    (s.overrun).outLen = s.outLen := rfl
@[simp] theorem State.overrun_errAddr (s : State) :
    (s.overrun).errAddr = s.errAddr := rfl
@[simp] theorem State.overrun_irqEn (s : State) :
    (s.overrun).irqEn = s.irqEn := rfl
@[simp] theorem State.overrun_irqStat (s : State) :
    (s.overrun).irqStat = s.irqStat := rfl
@[simp] theorem State.overrun_srcAddr (s : State) :
    (s.overrun).srcAddr = s.srcAddr := rfl
@[simp] theorem State.overrun_srcLen (s : State) :
    (s.overrun).srcLen = s.srcLen := rfl
@[simp] theorem State.overrun_auxAddr (s : State) :
    (s.overrun).auxAddr = s.auxAddr := rfl
@[simp] theorem State.overrun_auxLen (s : State) :
    (s.overrun).auxLen = s.auxLen := rfl
@[simp] theorem State.overrun_dstAddr (s : State) :
    (s.overrun).dstAddr = s.dstAddr := rfl
@[simp] theorem State.overrun_dstLen (s : State) :
    (s.overrun).dstLen = s.dstLen := rfl
@[simp] theorem State.overrun_skeyLen (s : State) :
    (s.overrun).skeyLen = s.skeyLen := rfl
@[simp] theorem State.overrun_skeyRam (s : State) :
    (s.overrun).skeyRam = s.skeyRam := rfl
@[simp] theorem State.overrun_latch (s : State) :
    (s.overrun).latch = s.latch := rfl
@[simp] theorem State.overrun_work (s : State) :
    (s.overrun).work = s.work := rfl
@[simp] theorem State.overrun_mem (s : State) :
    (s.overrun).mem = s.mem := rfl
@[simp] theorem State.overrun_journal (s : State) :
    (s.overrun).journal = s.journal := rfl
@[simp] theorem State.overrun_extent (s : State) :
    (s.overrun).extent = s.extent := rfl
@[simp] theorem State.overrun_env (s : State) :
    (s.overrun).env = s.env := rfl
@[simp] theorem State.overrun_replies (s : State) :
    (s.overrun).replies = s.replies := rfl

@[simp] theorem State.reply_cfg (s : State) (r : Reply) :
    (s.reply r).cfg = s.cfg := rfl
@[simp] theorem State.reply_cmd (s : State) (r : Reply) :
    (s.reply r).cmd = s.cmd := rfl
@[simp] theorem State.reply_status (s : State) (r : Reply) :
    (s.reply r).status = s.status := rfl
@[simp] theorem State.reply_result (s : State) (r : Reply) :
    (s.reply r).result = s.result := rfl
@[simp] theorem State.reply_outLen (s : State) (r : Reply) :
    (s.reply r).outLen = s.outLen := rfl
@[simp] theorem State.reply_errAddr (s : State) (r : Reply) :
    (s.reply r).errAddr = s.errAddr := rfl
@[simp] theorem State.reply_irqEn (s : State) (r : Reply) :
    (s.reply r).irqEn = s.irqEn := rfl
@[simp] theorem State.reply_irqStat (s : State) (r : Reply) :
    (s.reply r).irqStat = s.irqStat := rfl
@[simp] theorem State.reply_srcAddr (s : State) (r : Reply) :
    (s.reply r).srcAddr = s.srcAddr := rfl
@[simp] theorem State.reply_srcLen (s : State) (r : Reply) :
    (s.reply r).srcLen = s.srcLen := rfl
@[simp] theorem State.reply_auxAddr (s : State) (r : Reply) :
    (s.reply r).auxAddr = s.auxAddr := rfl
@[simp] theorem State.reply_auxLen (s : State) (r : Reply) :
    (s.reply r).auxLen = s.auxLen := rfl
@[simp] theorem State.reply_dstAddr (s : State) (r : Reply) :
    (s.reply r).dstAddr = s.dstAddr := rfl
@[simp] theorem State.reply_dstLen (s : State) (r : Reply) :
    (s.reply r).dstLen = s.dstLen := rfl
@[simp] theorem State.reply_skeyLen (s : State) (r : Reply) :
    (s.reply r).skeyLen = s.skeyLen := rfl
@[simp] theorem State.reply_skeyRam (s : State) (r : Reply) :
    (s.reply r).skeyRam = s.skeyRam := rfl
@[simp] theorem State.reply_latch (s : State) (r : Reply) :
    (s.reply r).latch = s.latch := rfl
@[simp] theorem State.reply_work (s : State) (r : Reply) :
    (s.reply r).work = s.work := rfl
@[simp] theorem State.reply_mem (s : State) (r : Reply) :
    (s.reply r).mem = s.mem := rfl
@[simp] theorem State.reply_journal (s : State) (r : Reply) :
    (s.reply r).journal = s.journal := rfl
@[simp] theorem State.reply_extent (s : State) (r : Reply) :
    (s.reply r).extent = s.extent := rfl
@[simp] theorem State.reply_env (s : State) (r : Reply) :
    (s.reply r).env = s.env := rfl
@[simp] theorem State.reply_replies (s : State) (r : Reply) :
    (s.reply r).replies = r :: s.replies := rfl

@[simp] theorem State.hardReset_cfg (s : State) (rs : List Residue) :
    (s.hardReset rs).cfg = s.cfg := rfl
@[simp] theorem State.hardReset_cmd (s : State) (rs : List Residue) :
    (s.hardReset rs).cmd = 0 := rfl
@[simp] theorem State.hardReset_status (s : State) (rs : List Residue) :
    (s.hardReset rs).status = 0 := rfl
@[simp] theorem State.hardReset_result (s : State) (rs : List Residue) :
    (s.hardReset rs).result = 0 := rfl
@[simp] theorem State.hardReset_outLen (s : State) (rs : List Residue) :
    (s.hardReset rs).outLen = 0 := rfl
@[simp] theorem State.hardReset_errAddr (s : State) (rs : List Residue) :
    (s.hardReset rs).errAddr = 0 := rfl
@[simp] theorem State.hardReset_irqEn (s : State) (rs : List Residue) :
    (s.hardReset rs).irqEn = 0 := rfl
@[simp] theorem State.hardReset_irqStat (s : State) (rs : List Residue) :
    (s.hardReset rs).irqStat = 0 := rfl
@[simp] theorem State.hardReset_srcAddr (s : State) (rs : List Residue) :
    (s.hardReset rs).srcAddr = 0 := rfl
@[simp] theorem State.hardReset_srcLen (s : State) (rs : List Residue) :
    (s.hardReset rs).srcLen = 0 := rfl
@[simp] theorem State.hardReset_auxAddr (s : State) (rs : List Residue) :
    (s.hardReset rs).auxAddr = 0 := rfl
@[simp] theorem State.hardReset_auxLen (s : State) (rs : List Residue) :
    (s.hardReset rs).auxLen = 0 := rfl
@[simp] theorem State.hardReset_dstAddr (s : State) (rs : List Residue) :
    (s.hardReset rs).dstAddr = 0 := rfl
@[simp] theorem State.hardReset_dstLen (s : State) (rs : List Residue) :
    (s.hardReset rs).dstLen = 0 := rfl
@[simp] theorem State.hardReset_skeyLen (s : State) (rs : List Residue) :
    (s.hardReset rs).skeyLen = 0 := rfl
@[simp] theorem State.hardReset_skeyRam (s : State) (rs : List Residue) :
    (s.hardReset rs).skeyRam = List.replicate s.cfg.skeyMax 0 := rfl
@[simp] theorem State.hardReset_latch (s : State) (rs : List Residue) :
    (s.hardReset rs).latch = Latch.zero := rfl
@[simp] theorem State.hardReset_work (s : State) (rs : List Residue) :
    (s.hardReset rs).work = Work.zero := rfl
@[simp] theorem State.hardReset_mem (s : State) (rs : List Residue) :
    (s.hardReset rs).mem = leaveResidue rs s.extent s.latch.dstAddr.toNat s.journal s.mem := rfl
@[simp] theorem State.hardReset_journal (s : State) (rs : List Residue) :
    (s.hardReset rs).journal = [] := rfl
@[simp] theorem State.hardReset_extent (s : State) (rs : List Residue) :
    (s.hardReset rs).extent = 0 := rfl
@[simp] theorem State.hardReset_env (s : State) (rs : List Residue) :
    (s.hardReset rs).env = s.env := rfl
@[simp] theorem State.hardReset_replies (s : State) (rs : List Residue) :
    (s.hardReset rs).replies = s.replies := rfl

@[simp] theorem State.engineWrite_cfg (s : State) (a : Nat) (v : Byte) :
    (s.engineWrite a v).cfg = s.cfg := rfl
@[simp] theorem State.engineWrite_cmd (s : State) (a : Nat) (v : Byte) :
    (s.engineWrite a v).cmd = s.cmd := rfl
@[simp] theorem State.engineWrite_status (s : State) (a : Nat) (v : Byte) :
    (s.engineWrite a v).status = s.status := rfl
@[simp] theorem State.engineWrite_result (s : State) (a : Nat) (v : Byte) :
    (s.engineWrite a v).result = s.result := rfl
@[simp] theorem State.engineWrite_outLen (s : State) (a : Nat) (v : Byte) :
    (s.engineWrite a v).outLen = s.outLen := rfl
@[simp] theorem State.engineWrite_errAddr (s : State) (a : Nat) (v : Byte) :
    (s.engineWrite a v).errAddr = s.errAddr := rfl
@[simp] theorem State.engineWrite_irqEn (s : State) (a : Nat) (v : Byte) :
    (s.engineWrite a v).irqEn = s.irqEn := rfl
@[simp] theorem State.engineWrite_irqStat (s : State) (a : Nat) (v : Byte) :
    (s.engineWrite a v).irqStat = s.irqStat := rfl
@[simp] theorem State.engineWrite_srcAddr (s : State) (a : Nat) (v : Byte) :
    (s.engineWrite a v).srcAddr = s.srcAddr := rfl
@[simp] theorem State.engineWrite_srcLen (s : State) (a : Nat) (v : Byte) :
    (s.engineWrite a v).srcLen = s.srcLen := rfl
@[simp] theorem State.engineWrite_auxAddr (s : State) (a : Nat) (v : Byte) :
    (s.engineWrite a v).auxAddr = s.auxAddr := rfl
@[simp] theorem State.engineWrite_auxLen (s : State) (a : Nat) (v : Byte) :
    (s.engineWrite a v).auxLen = s.auxLen := rfl
@[simp] theorem State.engineWrite_dstAddr (s : State) (a : Nat) (v : Byte) :
    (s.engineWrite a v).dstAddr = s.dstAddr := rfl
@[simp] theorem State.engineWrite_dstLen (s : State) (a : Nat) (v : Byte) :
    (s.engineWrite a v).dstLen = s.dstLen := rfl
@[simp] theorem State.engineWrite_skeyLen (s : State) (a : Nat) (v : Byte) :
    (s.engineWrite a v).skeyLen = s.skeyLen := rfl
@[simp] theorem State.engineWrite_skeyRam (s : State) (a : Nat) (v : Byte) :
    (s.engineWrite a v).skeyRam = s.skeyRam := rfl
@[simp] theorem State.engineWrite_latch (s : State) (a : Nat) (v : Byte) :
    (s.engineWrite a v).latch = s.latch := rfl
@[simp] theorem State.engineWrite_work (s : State) (a : Nat) (v : Byte) :
    (s.engineWrite a v).work = { s.work with written := s.work.written ++ [BitVec.ofNat 32 a] } := rfl
@[simp] theorem State.engineWrite_mem (s : State) (a : Nat) (v : Byte) :
    (s.engineWrite a v).mem = s.mem.write a v := rfl
@[simp] theorem State.engineWrite_journal (s : State) (a : Nat) (v : Byte) :
    (s.engineWrite a v).journal = s.journal ++ [(s.mem.read a, v)] := rfl
@[simp] theorem State.engineWrite_extent (s : State) (a : Nat) (v : Byte) :
    (s.engineWrite a v).extent = s.extent := rfl
@[simp] theorem State.engineWrite_env (s : State) (a : Nat) (v : Byte) :
    (s.engineWrite a v).env = s.env := rfl
@[simp] theorem State.engineWrite_replies (s : State) (a : Nat) (v : Byte) :
    (s.engineWrite a v).replies = s.replies := rfl

@[simp] theorem State.finish_cfg (s : State) (e : ErrCode) (n ea : Nat) :
    (s.finish e n ea).cfg = s.cfg := rfl
@[simp] theorem State.finish_cmd (s : State) (e : ErrCode) (n ea : Nat) :
    (s.finish e n ea).cmd = s.cmd := rfl
@[simp] theorem State.finish_status (s : State) (e : ErrCode) (n ea : Nat) :
    (s.finish e n ea).status = statusCompleted s.status := rfl
@[simp] theorem State.finish_result (s : State) (e : ErrCode) (n ea : Nat) :
    (s.finish e n ea).result = e.code := rfl
@[simp] theorem State.finish_outLen (s : State) (e : ErrCode) (n ea : Nat) :
    (s.finish e n ea).outLen = BitVec.ofNat 32 n := rfl
@[simp] theorem State.finish_errAddr (s : State) (e : ErrCode) (n ea : Nat) :
    (s.finish e n ea).errAddr = BitVec.ofNat 32 ea := rfl
@[simp] theorem State.finish_irqEn (s : State) (e : ErrCode) (n ea : Nat) :
    (s.finish e n ea).irqEn = s.irqEn := rfl
@[simp] theorem State.finish_irqStat (s : State) (e : ErrCode) (n ea : Nat) :
    (s.finish e n ea).irqStat = setBit s.irqStat 0 true := rfl
@[simp] theorem State.finish_srcAddr (s : State) (e : ErrCode) (n ea : Nat) :
    (s.finish e n ea).srcAddr = s.srcAddr := rfl
@[simp] theorem State.finish_srcLen (s : State) (e : ErrCode) (n ea : Nat) :
    (s.finish e n ea).srcLen = s.srcLen := rfl
@[simp] theorem State.finish_auxAddr (s : State) (e : ErrCode) (n ea : Nat) :
    (s.finish e n ea).auxAddr = s.auxAddr := rfl
@[simp] theorem State.finish_auxLen (s : State) (e : ErrCode) (n ea : Nat) :
    (s.finish e n ea).auxLen = s.auxLen := rfl
@[simp] theorem State.finish_dstAddr (s : State) (e : ErrCode) (n ea : Nat) :
    (s.finish e n ea).dstAddr = s.dstAddr := rfl
@[simp] theorem State.finish_dstLen (s : State) (e : ErrCode) (n ea : Nat) :
    (s.finish e n ea).dstLen = s.dstLen := rfl
@[simp] theorem State.finish_skeyLen (s : State) (e : ErrCode) (n ea : Nat) :
    (s.finish e n ea).skeyLen = s.skeyLen := rfl
@[simp] theorem State.finish_skeyRam (s : State) (e : ErrCode) (n ea : Nat) :
    (s.finish e n ea).skeyRam = s.skeyRam := rfl
@[simp] theorem State.finish_latch (s : State) (e : ErrCode) (n ea : Nat) :
    (s.finish e n ea).latch = s.latch := rfl
@[simp] theorem State.finish_work (s : State) (e : ErrCode) (n ea : Nat) :
    (s.finish e n ea).work = Work.zero := rfl
@[simp] theorem State.finish_mem (s : State) (e : ErrCode) (n ea : Nat) :
    (s.finish e n ea).mem = s.mem := rfl
@[simp] theorem State.finish_journal (s : State) (e : ErrCode) (n ea : Nat) :
    (s.finish e n ea).journal = [] := rfl
@[simp] theorem State.finish_extent (s : State) (e : ErrCode) (n ea : Nat) :
    (s.finish e n ea).extent = 0 := rfl
@[simp] theorem State.finish_env (s : State) (e : ErrCode) (n ea : Nat) :
    (s.finish e n ea).env = s.env := rfl
@[simp] theorem State.finish_replies (s : State) (e : ErrCode) (n ea : Nat) :
    (s.finish e n ea).replies = s.replies := rfl

@[simp] theorem State.storeKey_cfg (s : State) (bs : List Byte) :
    (s.storeKey bs).cfg = s.cfg := rfl
@[simp] theorem State.storeKey_cmd (s : State) (bs : List Byte) :
    (s.storeKey bs).cmd = s.cmd := rfl
@[simp] theorem State.storeKey_status (s : State) (bs : List Byte) :
    (s.storeKey bs).status = setBit s.status 2 true := rfl
@[simp] theorem State.storeKey_result (s : State) (bs : List Byte) :
    (s.storeKey bs).result = s.result := rfl
@[simp] theorem State.storeKey_outLen (s : State) (bs : List Byte) :
    (s.storeKey bs).outLen = s.outLen := rfl
@[simp] theorem State.storeKey_errAddr (s : State) (bs : List Byte) :
    (s.storeKey bs).errAddr = s.errAddr := rfl
@[simp] theorem State.storeKey_irqEn (s : State) (bs : List Byte) :
    (s.storeKey bs).irqEn = s.irqEn := rfl
@[simp] theorem State.storeKey_irqStat (s : State) (bs : List Byte) :
    (s.storeKey bs).irqStat = s.irqStat := rfl
@[simp] theorem State.storeKey_srcAddr (s : State) (bs : List Byte) :
    (s.storeKey bs).srcAddr = s.srcAddr := rfl
@[simp] theorem State.storeKey_srcLen (s : State) (bs : List Byte) :
    (s.storeKey bs).srcLen = s.srcLen := rfl
@[simp] theorem State.storeKey_auxAddr (s : State) (bs : List Byte) :
    (s.storeKey bs).auxAddr = s.auxAddr := rfl
@[simp] theorem State.storeKey_auxLen (s : State) (bs : List Byte) :
    (s.storeKey bs).auxLen = s.auxLen := rfl
@[simp] theorem State.storeKey_dstAddr (s : State) (bs : List Byte) :
    (s.storeKey bs).dstAddr = s.dstAddr := rfl
@[simp] theorem State.storeKey_dstLen (s : State) (bs : List Byte) :
    (s.storeKey bs).dstLen = s.dstLen := rfl
@[simp] theorem State.storeKey_skeyLen (s : State) (bs : List Byte) :
    (s.storeKey bs).skeyLen = s.latch.srcLen := rfl
@[simp] theorem State.storeKey_skeyRam (s : State) (bs : List Byte) :
    (s.storeKey bs).skeyRam = bs ++ s.skeyRam.drop bs.length := rfl
@[simp] theorem State.storeKey_latch (s : State) (bs : List Byte) :
    (s.storeKey bs).latch = s.latch := rfl
@[simp] theorem State.storeKey_work (s : State) (bs : List Byte) :
    (s.storeKey bs).work = s.work := rfl
@[simp] theorem State.storeKey_mem (s : State) (bs : List Byte) :
    (s.storeKey bs).mem = s.mem := rfl
@[simp] theorem State.storeKey_journal (s : State) (bs : List Byte) :
    (s.storeKey bs).journal = s.journal := rfl
@[simp] theorem State.storeKey_extent (s : State) (bs : List Byte) :
    (s.storeKey bs).extent = s.extent := rfl
@[simp] theorem State.storeKey_env (s : State) (bs : List Byte) :
    (s.storeKey bs).env = s.env := rfl
@[simp] theorem State.storeKey_replies (s : State) (bs : List Byte) :
    (s.storeKey bs).replies = s.replies := rfl

@[simp] theorem State.setKeyIv_cfg (s : State) (k iv : List Byte) :
    (s.setKeyIv k iv).cfg = s.cfg := rfl
@[simp] theorem State.setKeyIv_cmd (s : State) (k iv : List Byte) :
    (s.setKeyIv k iv).cmd = s.cmd := rfl
@[simp] theorem State.setKeyIv_status (s : State) (k iv : List Byte) :
    (s.setKeyIv k iv).status = s.status := rfl
@[simp] theorem State.setKeyIv_result (s : State) (k iv : List Byte) :
    (s.setKeyIv k iv).result = s.result := rfl
@[simp] theorem State.setKeyIv_outLen (s : State) (k iv : List Byte) :
    (s.setKeyIv k iv).outLen = s.outLen := rfl
@[simp] theorem State.setKeyIv_errAddr (s : State) (k iv : List Byte) :
    (s.setKeyIv k iv).errAddr = s.errAddr := rfl
@[simp] theorem State.setKeyIv_irqEn (s : State) (k iv : List Byte) :
    (s.setKeyIv k iv).irqEn = s.irqEn := rfl
@[simp] theorem State.setKeyIv_irqStat (s : State) (k iv : List Byte) :
    (s.setKeyIv k iv).irqStat = s.irqStat := rfl
@[simp] theorem State.setKeyIv_srcAddr (s : State) (k iv : List Byte) :
    (s.setKeyIv k iv).srcAddr = s.srcAddr := rfl
@[simp] theorem State.setKeyIv_srcLen (s : State) (k iv : List Byte) :
    (s.setKeyIv k iv).srcLen = s.srcLen := rfl
@[simp] theorem State.setKeyIv_auxAddr (s : State) (k iv : List Byte) :
    (s.setKeyIv k iv).auxAddr = s.auxAddr := rfl
@[simp] theorem State.setKeyIv_auxLen (s : State) (k iv : List Byte) :
    (s.setKeyIv k iv).auxLen = s.auxLen := rfl
@[simp] theorem State.setKeyIv_dstAddr (s : State) (k iv : List Byte) :
    (s.setKeyIv k iv).dstAddr = s.dstAddr := rfl
@[simp] theorem State.setKeyIv_dstLen (s : State) (k iv : List Byte) :
    (s.setKeyIv k iv).dstLen = s.dstLen := rfl
@[simp] theorem State.setKeyIv_skeyLen (s : State) (k iv : List Byte) :
    (s.setKeyIv k iv).skeyLen = s.skeyLen := rfl
@[simp] theorem State.setKeyIv_skeyRam (s : State) (k iv : List Byte) :
    (s.setKeyIv k iv).skeyRam = s.skeyRam := rfl
@[simp] theorem State.setKeyIv_latch (s : State) (k iv : List Byte) :
    (s.setKeyIv k iv).latch = s.latch := rfl
@[simp] theorem State.setKeyIv_work (s : State) (k iv : List Byte) :
    (s.setKeyIv k iv).work = { s.work with key := k, iv := Block.ofBytes iv } := rfl
@[simp] theorem State.setKeyIv_mem (s : State) (k iv : List Byte) :
    (s.setKeyIv k iv).mem = s.mem := rfl
@[simp] theorem State.setKeyIv_journal (s : State) (k iv : List Byte) :
    (s.setKeyIv k iv).journal = s.journal := rfl
@[simp] theorem State.setKeyIv_extent (s : State) (k iv : List Byte) :
    (s.setKeyIv k iv).extent = s.extent := rfl
@[simp] theorem State.setKeyIv_env (s : State) (k iv : List Byte) :
    (s.setKeyIv k iv).env = s.env := rfl
@[simp] theorem State.setKeyIv_replies (s : State) (k iv : List Byte) :
    (s.setKeyIv k iv).replies = s.replies := rfl

@[simp] theorem State.startStream_cfg (s : State) :
    (s.startStream).cfg = s.cfg := rfl
@[simp] theorem State.startStream_cmd (s : State) :
    (s.startStream).cmd = s.cmd := rfl
@[simp] theorem State.startStream_status (s : State) :
    (s.startStream).status = s.status := rfl
@[simp] theorem State.startStream_result (s : State) :
    (s.startStream).result = s.result := rfl
@[simp] theorem State.startStream_outLen (s : State) :
    (s.startStream).outLen = s.outLen := rfl
@[simp] theorem State.startStream_errAddr (s : State) :
    (s.startStream).errAddr = s.errAddr := rfl
@[simp] theorem State.startStream_irqEn (s : State) :
    (s.startStream).irqEn = s.irqEn := rfl
@[simp] theorem State.startStream_irqStat (s : State) :
    (s.startStream).irqStat = s.irqStat := rfl
@[simp] theorem State.startStream_srcAddr (s : State) :
    (s.startStream).srcAddr = s.srcAddr := rfl
@[simp] theorem State.startStream_srcLen (s : State) :
    (s.startStream).srcLen = s.srcLen := rfl
@[simp] theorem State.startStream_auxAddr (s : State) :
    (s.startStream).auxAddr = s.auxAddr := rfl
@[simp] theorem State.startStream_auxLen (s : State) :
    (s.startStream).auxLen = s.auxLen := rfl
@[simp] theorem State.startStream_dstAddr (s : State) :
    (s.startStream).dstAddr = s.dstAddr := rfl
@[simp] theorem State.startStream_dstLen (s : State) :
    (s.startStream).dstLen = s.dstLen := rfl
@[simp] theorem State.startStream_skeyLen (s : State) :
    (s.startStream).skeyLen = s.skeyLen := rfl
@[simp] theorem State.startStream_skeyRam (s : State) :
    (s.startStream).skeyRam = s.skeyRam := rfl
@[simp] theorem State.startStream_latch (s : State) :
    (s.startStream).latch = s.latch := rfl
@[simp] theorem State.startStream_work (s : State) :
    (s.startStream).work = { s.work with rk := keyExpansion s.work.key, chain := s.work.iv } := rfl
@[simp] theorem State.startStream_mem (s : State) :
    (s.startStream).mem = s.mem := rfl
@[simp] theorem State.startStream_journal (s : State) :
    (s.startStream).journal = s.journal := rfl
@[simp] theorem State.startStream_extent (s : State) :
    (s.startStream).extent = s.extent := rfl
@[simp] theorem State.startStream_env (s : State) :
    (s.startStream).env = s.env := rfl
@[simp] theorem State.startStream_replies (s : State) :
    (s.startStream).replies = s.replies := rfl

@[simp] theorem State.encryptBlock_cfg (s : State) (p : List Byte) :
    (s.encryptBlock p).cfg = s.cfg := rfl
@[simp] theorem State.encryptBlock_cmd (s : State) (p : List Byte) :
    (s.encryptBlock p).cmd = s.cmd := rfl
@[simp] theorem State.encryptBlock_status (s : State) (p : List Byte) :
    (s.encryptBlock p).status = s.status := rfl
@[simp] theorem State.encryptBlock_result (s : State) (p : List Byte) :
    (s.encryptBlock p).result = s.result := rfl
@[simp] theorem State.encryptBlock_outLen (s : State) (p : List Byte) :
    (s.encryptBlock p).outLen = s.outLen := rfl
@[simp] theorem State.encryptBlock_errAddr (s : State) (p : List Byte) :
    (s.encryptBlock p).errAddr = s.errAddr := rfl
@[simp] theorem State.encryptBlock_irqEn (s : State) (p : List Byte) :
    (s.encryptBlock p).irqEn = s.irqEn := rfl
@[simp] theorem State.encryptBlock_irqStat (s : State) (p : List Byte) :
    (s.encryptBlock p).irqStat = s.irqStat := rfl
@[simp] theorem State.encryptBlock_srcAddr (s : State) (p : List Byte) :
    (s.encryptBlock p).srcAddr = s.srcAddr := rfl
@[simp] theorem State.encryptBlock_srcLen (s : State) (p : List Byte) :
    (s.encryptBlock p).srcLen = s.srcLen := rfl
@[simp] theorem State.encryptBlock_auxAddr (s : State) (p : List Byte) :
    (s.encryptBlock p).auxAddr = s.auxAddr := rfl
@[simp] theorem State.encryptBlock_auxLen (s : State) (p : List Byte) :
    (s.encryptBlock p).auxLen = s.auxLen := rfl
@[simp] theorem State.encryptBlock_dstAddr (s : State) (p : List Byte) :
    (s.encryptBlock p).dstAddr = s.dstAddr := rfl
@[simp] theorem State.encryptBlock_dstLen (s : State) (p : List Byte) :
    (s.encryptBlock p).dstLen = s.dstLen := rfl
@[simp] theorem State.encryptBlock_skeyLen (s : State) (p : List Byte) :
    (s.encryptBlock p).skeyLen = s.skeyLen := rfl
@[simp] theorem State.encryptBlock_skeyRam (s : State) (p : List Byte) :
    (s.encryptBlock p).skeyRam = s.skeyRam := rfl
@[simp] theorem State.encryptBlock_latch (s : State) (p : List Byte) :
    (s.encryptBlock p).latch = s.latch := rfl
@[simp] theorem State.encryptBlock_work (s : State) (p : List Byte) :
    (s.encryptBlock p).work = { s.work with blk := Block.ofBytes p, chain := aesEncrypt s.work.rk ((Block.ofBytes p).xor s.work.chain) } := rfl
@[simp] theorem State.encryptBlock_mem (s : State) (p : List Byte) :
    (s.encryptBlock p).mem = s.mem := rfl
@[simp] theorem State.encryptBlock_journal (s : State) (p : List Byte) :
    (s.encryptBlock p).journal = s.journal := rfl
@[simp] theorem State.encryptBlock_extent (s : State) (p : List Byte) :
    (s.encryptBlock p).extent = s.extent := rfl
@[simp] theorem State.encryptBlock_env (s : State) (p : List Byte) :
    (s.encryptBlock p).env = s.env := rfl
@[simp] theorem State.encryptBlock_replies (s : State) (p : List Byte) :
    (s.encryptBlock p).replies = s.replies := rfl

@[simp] theorem State.decryptBlock_cfg (s : State) (c : List Byte) :
    (s.decryptBlock c).cfg = s.cfg := rfl
@[simp] theorem State.decryptBlock_cmd (s : State) (c : List Byte) :
    (s.decryptBlock c).cmd = s.cmd := rfl
@[simp] theorem State.decryptBlock_status (s : State) (c : List Byte) :
    (s.decryptBlock c).status = s.status := rfl
@[simp] theorem State.decryptBlock_result (s : State) (c : List Byte) :
    (s.decryptBlock c).result = s.result := rfl
@[simp] theorem State.decryptBlock_outLen (s : State) (c : List Byte) :
    (s.decryptBlock c).outLen = s.outLen := rfl
@[simp] theorem State.decryptBlock_errAddr (s : State) (c : List Byte) :
    (s.decryptBlock c).errAddr = s.errAddr := rfl
@[simp] theorem State.decryptBlock_irqEn (s : State) (c : List Byte) :
    (s.decryptBlock c).irqEn = s.irqEn := rfl
@[simp] theorem State.decryptBlock_irqStat (s : State) (c : List Byte) :
    (s.decryptBlock c).irqStat = s.irqStat := rfl
@[simp] theorem State.decryptBlock_srcAddr (s : State) (c : List Byte) :
    (s.decryptBlock c).srcAddr = s.srcAddr := rfl
@[simp] theorem State.decryptBlock_srcLen (s : State) (c : List Byte) :
    (s.decryptBlock c).srcLen = s.srcLen := rfl
@[simp] theorem State.decryptBlock_auxAddr (s : State) (c : List Byte) :
    (s.decryptBlock c).auxAddr = s.auxAddr := rfl
@[simp] theorem State.decryptBlock_auxLen (s : State) (c : List Byte) :
    (s.decryptBlock c).auxLen = s.auxLen := rfl
@[simp] theorem State.decryptBlock_dstAddr (s : State) (c : List Byte) :
    (s.decryptBlock c).dstAddr = s.dstAddr := rfl
@[simp] theorem State.decryptBlock_dstLen (s : State) (c : List Byte) :
    (s.decryptBlock c).dstLen = s.dstLen := rfl
@[simp] theorem State.decryptBlock_skeyLen (s : State) (c : List Byte) :
    (s.decryptBlock c).skeyLen = s.skeyLen := rfl
@[simp] theorem State.decryptBlock_skeyRam (s : State) (c : List Byte) :
    (s.decryptBlock c).skeyRam = s.skeyRam := rfl
@[simp] theorem State.decryptBlock_latch (s : State) (c : List Byte) :
    (s.decryptBlock c).latch = s.latch := rfl
@[simp] theorem State.decryptBlock_work (s : State) (c : List Byte) :
    (s.decryptBlock c).work = { s.work with blk := (aesDecrypt s.work.rk (Block.ofBytes c)).xor s.work.chain, chain := Block.ofBytes c } := rfl
@[simp] theorem State.decryptBlock_mem (s : State) (c : List Byte) :
    (s.decryptBlock c).mem = s.mem := rfl
@[simp] theorem State.decryptBlock_journal (s : State) (c : List Byte) :
    (s.decryptBlock c).journal = s.journal := rfl
@[simp] theorem State.decryptBlock_extent (s : State) (c : List Byte) :
    (s.decryptBlock c).extent = s.extent := rfl
@[simp] theorem State.decryptBlock_env (s : State) (c : List Byte) :
    (s.decryptBlock c).env = s.env := rfl
@[simp] theorem State.decryptBlock_replies (s : State) (c : List Byte) :
    (s.decryptBlock c).replies = s.replies := rfl

@[simp] theorem State.hashed_cfg (s : State) (name : List Byte) :
    (s.hashed name).cfg = s.cfg := rfl
@[simp] theorem State.hashed_cmd (s : State) (name : List Byte) :
    (s.hashed name).cmd = s.cmd := rfl
@[simp] theorem State.hashed_status (s : State) (name : List Byte) :
    (s.hashed name).status = s.status := rfl
@[simp] theorem State.hashed_result (s : State) (name : List Byte) :
    (s.hashed name).result = s.result := rfl
@[simp] theorem State.hashed_outLen (s : State) (name : List Byte) :
    (s.hashed name).outLen = s.outLen := rfl
@[simp] theorem State.hashed_errAddr (s : State) (name : List Byte) :
    (s.hashed name).errAddr = s.errAddr := rfl
@[simp] theorem State.hashed_irqEn (s : State) (name : List Byte) :
    (s.hashed name).irqEn = s.irqEn := rfl
@[simp] theorem State.hashed_irqStat (s : State) (name : List Byte) :
    (s.hashed name).irqStat = s.irqStat := rfl
@[simp] theorem State.hashed_srcAddr (s : State) (name : List Byte) :
    (s.hashed name).srcAddr = s.srcAddr := rfl
@[simp] theorem State.hashed_srcLen (s : State) (name : List Byte) :
    (s.hashed name).srcLen = s.srcLen := rfl
@[simp] theorem State.hashed_auxAddr (s : State) (name : List Byte) :
    (s.hashed name).auxAddr = s.auxAddr := rfl
@[simp] theorem State.hashed_auxLen (s : State) (name : List Byte) :
    (s.hashed name).auxLen = s.auxLen := rfl
@[simp] theorem State.hashed_dstAddr (s : State) (name : List Byte) :
    (s.hashed name).dstAddr = s.dstAddr := rfl
@[simp] theorem State.hashed_dstLen (s : State) (name : List Byte) :
    (s.hashed name).dstLen = s.dstLen := rfl
@[simp] theorem State.hashed_skeyLen (s : State) (name : List Byte) :
    (s.hashed name).skeyLen = s.skeyLen := rfl
@[simp] theorem State.hashed_skeyRam (s : State) (name : List Byte) :
    (s.hashed name).skeyRam = s.skeyRam := rfl
@[simp] theorem State.hashed_latch (s : State) (name : List Byte) :
    (s.hashed name).latch = s.latch := rfl
@[simp] theorem State.hashed_work (s : State) (name : List Byte) :
    (s.hashed name).work = { s.work with h := shaState (fpMsg s.sk name), mbuf := ⟨(fpMsg s.sk name).drop ((fpMsg s.sk name).length / 64 * 64), 8 * (fpMsg s.sk name).length⟩ } := rfl
@[simp] theorem State.hashed_mem (s : State) (name : List Byte) :
    (s.hashed name).mem = s.mem := rfl
@[simp] theorem State.hashed_journal (s : State) (name : List Byte) :
    (s.hashed name).journal = s.journal := rfl
@[simp] theorem State.hashed_extent (s : State) (name : List Byte) :
    (s.hashed name).extent = s.extent := rfl
@[simp] theorem State.hashed_env (s : State) (name : List Byte) :
    (s.hashed name).env = s.env := rfl
@[simp] theorem State.hashed_replies (s : State) (name : List Byte) :
    (s.hashed name).replies = s.replies := rfl

end Sys2Proof.Machine
end

