-- ==== Sys2Proof/Laws/Quiet.lean ====
section
/-! SUPPORT. The shared operations with a silent host (nothing scheduled): what each one answers, said once. -/

namespace Sys2Proof.Machine

/-- `s` without what a running command's accesses change: memory, the working state, the journal, the extent. -/
def State.rest (s : State) : State := { s with mem := [], work := Work.zero, journal := [], extent := 0 }

theorem State.cfg_of_rest {s t : State} (h : t.rest = s.rest) : t.cfg = s.cfg := by
  have h' := congrArg State.cfg h
  exact h'
theorem State.cmd_of_rest {s t : State} (h : t.rest = s.rest) : t.cmd = s.cmd := by
  have h' := congrArg State.cmd h
  exact h'
theorem State.status_of_rest {s t : State} (h : t.rest = s.rest) : t.status = s.status := by
  have h' := congrArg State.status h
  exact h'
theorem State.result_of_rest {s t : State} (h : t.rest = s.rest) : t.result = s.result := by
  have h' := congrArg State.result h
  exact h'
theorem State.outLen_of_rest {s t : State} (h : t.rest = s.rest) : t.outLen = s.outLen := by
  have h' := congrArg State.outLen h
  exact h'
theorem State.errAddr_of_rest {s t : State} (h : t.rest = s.rest) : t.errAddr = s.errAddr := by
  have h' := congrArg State.errAddr h
  exact h'
theorem State.irqEn_of_rest {s t : State} (h : t.rest = s.rest) : t.irqEn = s.irqEn := by
  have h' := congrArg State.irqEn h
  exact h'
theorem State.irqStat_of_rest {s t : State} (h : t.rest = s.rest) : t.irqStat = s.irqStat := by
  have h' := congrArg State.irqStat h
  exact h'
theorem State.srcAddr_of_rest {s t : State} (h : t.rest = s.rest) : t.srcAddr = s.srcAddr := by
  have h' := congrArg State.srcAddr h
  exact h'
theorem State.srcLen_of_rest {s t : State} (h : t.rest = s.rest) : t.srcLen = s.srcLen := by
  have h' := congrArg State.srcLen h
  exact h'
theorem State.auxAddr_of_rest {s t : State} (h : t.rest = s.rest) : t.auxAddr = s.auxAddr := by
  have h' := congrArg State.auxAddr h
  exact h'
theorem State.auxLen_of_rest {s t : State} (h : t.rest = s.rest) : t.auxLen = s.auxLen := by
  have h' := congrArg State.auxLen h
  exact h'
theorem State.dstAddr_of_rest {s t : State} (h : t.rest = s.rest) : t.dstAddr = s.dstAddr := by
  have h' := congrArg State.dstAddr h
  exact h'
theorem State.dstLen_of_rest {s t : State} (h : t.rest = s.rest) : t.dstLen = s.dstLen := by
  have h' := congrArg State.dstLen h
  exact h'
theorem State.skeyLen_of_rest {s t : State} (h : t.rest = s.rest) : t.skeyLen = s.skeyLen := by
  have h' := congrArg State.skeyLen h
  exact h'
theorem State.skeyRam_of_rest {s t : State} (h : t.rest = s.rest) : t.skeyRam = s.skeyRam := by
  have h' := congrArg State.skeyRam h
  exact h'
theorem State.latch_of_rest {s t : State} (h : t.rest = s.rest) : t.latch = s.latch := by
  have h' := congrArg State.latch h
  exact h'
theorem State.env_of_rest {s t : State} (h : t.rest = s.rest) : t.env = s.env := by
  have h' := congrArg State.env h
  exact h'
theorem State.replies_of_rest {s t : State} (h : t.rest = s.rest) : t.replies = s.replies := by
  have h' := congrArg State.replies h
  exact h'

@[simp] theorem State.rest_engineWrite (s : State) (a : Nat) (v : Byte) : (s.engineWrite a v).rest = s.rest := rfl
@[simp] theorem State.rest_setKeyIv (s : State) (k iv : List Byte) : (s.setKeyIv k iv).rest = s.rest := rfl
@[simp] theorem State.rest_startStream (s : State) : s.startStream.rest = s.rest := rfl
@[simp] theorem State.rest_encryptBlock (s : State) (p : List Byte) : (s.encryptBlock p).rest = s.rest := rfl
@[simp] theorem State.rest_decryptBlock (s : State) (c : List Byte) : (s.decryptBlock c).rest = s.rest := rfl
@[simp] theorem State.rest_hashed (s : State) (n : List Byte) : (s.hashed n).rest = s.rest := rfl

/-! ### The engine's turn and single accesses -/

/-- With nothing scheduled the engine's turn comes at once. -/
theorem engineTurn_quiet {s : State} (h : s.env = []) : engineTurn s = .ready s := by
  cases s
  simp only at h
  subst h
  rfl

theorem readByte_quiet {s : State} {a : Nat} (h : s.env = []) (ha : a < addressSpace) :
    readByte a s = if s.cfg.busErrAt a .read then .raised .bus a s else .ok (s.mem.read a) s := by
  simp [readByte, ha, engineTurn_quiet h]

theorem writeByte_quiet {s : State} {a : Nat} (v : Byte) (h : s.env = []) (ha : a < addressSpace) :
    writeByte a v s = if s.cfg.busErrAt a .write then .raised .bus a s else .ok () (s.engineWrite a v) := by
  simp [writeByte, ha, engineTurn_quiet h]

/-! ### Runs of accesses -/

/-- `MemRead` of a region in range that answers every read: its bytes, and no change of state. -/
theorem memRead_quiet {s : State} {a n : Nat} (h : s.env = []) (ha : a + n ≤ addressSpace)
    (hr : ∀ b, a ≤ b → b < a + n → s.cfg.busErrAt b .read = false) :
    memRead a n s = .ok (s.mem.readRun a n) s := by
  induction n generalizing a with
  | zero => rfl
  | succ n ih =>
    simp only [memRead, readByte_quiet h (show a < addressSpace by omega), hr a (by omega) (by omega)]
    simp only [Bool.false_eq_true, if_false, Eng.bind, ih (show a + 1 + n ≤ addressSpace by omega)
      fun b hb hb' => hr b (by omega) (by omega), Memory.readRun]

/-- `MemRead` of a region in range whose first byte that gets an error response is byte `j`. -/
theorem memRead_quiet_bus {s : State} {a n j : Nat} (h : s.env = []) (ha : a + n ≤ addressSpace) (hj : j < n)
    (hok : ∀ i, i < j → s.cfg.busErrAt (a + i) .read = false) (hbad : s.cfg.busErrAt (a + j) .read = true) :
    memRead a n s = .raised .bus (a + j) s := by
  induction n generalizing a j with
  | zero => omega
  | succ n ih =>
    simp only [memRead, readByte_quiet h (show a < addressSpace by omega)]
    cases j with
    | zero => simp only [Nat.add_zero] at hbad; simp [hbad, Eng.bind]
    | succ j =>
      have h0 := hok 0 (by omega)
      simp only [Nat.add_zero] at h0
      have := ih (a := a + 1) (j := j) (by omega) (by omega)
        (fun i hi => by rw [show a + 1 + i = a + (i + 1) by omega]; exact hok (i + 1) (by omega))
        (by rw [show a + 1 + j = a + (j + 1) by omega]; exact hbad)
      simp [h0, Eng.bind, this, show a + 1 + j = a + (j + 1) by omega]

/-- The addresses of `n` bytes from `a` on, as W lists them. -/
def addresses (a n : Nat) : List Word :=
  match n with
  | 0 => []
  | n + 1 => BitVec.ofNat 32 a :: addresses (a + 1) n

/-- The journal of writing `bs` from `a` on over memory `m`. -/
def replaced (m : Memory) (a : Nat) (bs : List Byte) : List (Byte × Byte) :=
  match bs with
  | [] => []
  | b :: bs => (m.read a, b) :: replaced (m.write a b) (a + 1) bs

@[simp] theorem length_addresses (a n : Nat) : (addresses a n).length = n := by
  induction n generalizing a with
  | zero => rfl
  | succ n ih => simp [addresses, ih]

theorem addresses_add (a n k : Nat) : addresses a (n + k) = addresses a n ++ addresses (a + n) k := by
  induction n generalizing a with
  | zero => simp [addresses]
  | succ n ih =>
    rw [show n + 1 + k = (n + k) + 1 by omega]
    simp only [addresses, List.cons_append]
    rw [ih, show a + 1 + n = a + (n + 1) by omega]

/-- `s` after the engine wrote `bs` from `a` on. -/
def State.wrote (s : State) (a : Nat) (bs : List Byte) : State :=
  { s with
    mem := s.mem.writeRun a bs
    work := { s.work with written := s.work.written ++ addresses a bs.length }
    journal := s.journal ++ replaced s.mem a bs }

@[simp] theorem State.rest_wrote (s : State) (a : Nat) (bs : List Byte) : (s.wrote a bs).rest = s.rest := rfl
@[simp] theorem State.wrote_cfg (s : State) (a : Nat) (bs : List Byte) : (s.wrote a bs).cfg = s.cfg := rfl
@[simp] theorem State.wrote_latch (s : State) (a : Nat) (bs : List Byte) : (s.wrote a bs).latch = s.latch := rfl
@[simp] theorem State.wrote_env (s : State) (a : Nat) (bs : List Byte) : (s.wrote a bs).env = s.env := rfl
@[simp] theorem State.wrote_mem (s : State) (a : Nat) (bs : List Byte) :
    (s.wrote a bs).mem = s.mem.writeRun a bs := rfl
@[simp] theorem State.wrote_work (s : State) (a : Nat) (bs : List Byte) :
    (s.wrote a bs).work = { s.work with written := s.work.written ++ addresses a bs.length } := rfl
@[simp] theorem State.wrote_sk (s : State) (a : Nat) (bs : List Byte) : (s.wrote a bs).sk = s.sk := rfl

theorem State.wrote_cons (s : State) (a : Nat) (b : Byte) (bs : List Byte) :
    (s.engineWrite a b).wrote (a + 1) bs = s.wrote a (b :: bs) := by
  simp [State.wrote, State.engineWrite, Memory.writeRun, addresses, replaced]

/-- `MemWrite` inside the address space that answers every write. -/
theorem memWrite_quiet {s : State} {a : Nat} (bs : List Byte) (h : s.env = []) (ha : a + bs.length ≤ addressSpace)
    (hw : ∀ b, a ≤ b → b < a + bs.length → s.cfg.busErrAt b .write = false) :
    memWrite a bs s = .ok () (s.wrote a bs) := by
  induction bs generalizing a s with
  | nil => simp [memWrite, State.wrote, Memory.writeRun, addresses, replaced]
  | cons b bs ih =>
    simp only [List.length_cons] at ha hw
    have h0 := hw a (by omega) (by omega)
    simp only [memWrite, writeByte_quiet b h (show a < addressSpace by omega), h0, Bool.false_eq_true, if_false,
      Eng.bind]
    rw [ih (s := s.engineWrite a b) (a := a + 1) (by simpa using h) (by omega)
      (fun c hc hc' => by simpa using hw c (by omega) (by omega)), State.wrote_cons]

/-- `MemWrite` inside the address space whose first byte that gets an error response is byte `j`: the bytes before
it are written, and no other. -/
theorem memWrite_quiet_bus {s : State} {a j : Nat} (bs : List Byte) (h : s.env = [])
    (ha : a + bs.length ≤ addressSpace) (hj : j < bs.length)
    (hok : ∀ i, i < j → s.cfg.busErrAt (a + i) .write = false) (hbad : s.cfg.busErrAt (a + j) .write = true) :
    memWrite a bs s = .raised .bus (a + j) (s.wrote a (bs.take j)) := by
  induction bs generalizing a j s with
  | nil => simp at hj
  | cons b bs ih =>
    simp only [List.length_cons] at ha hj
    simp only [memWrite, writeByte_quiet b h (show a < addressSpace by omega)]
    cases j with
    | zero =>
      simp only [Nat.add_zero] at hbad
      simp [hbad, Eng.bind, State.wrote, Memory.writeRun, addresses, replaced]
    | succ j =>
      have h0 := hok 0 (by omega)
      simp only [Nat.add_zero] at h0
      have := ih (s := s.engineWrite a b) (a := a + 1) (j := j) (by simpa using h) (by omega) (by omega)
        (fun i hi => by rw [show a + 1 + i = a + (i + 1) by omega]; simpa using hok (i + 1) (by omega))
        (by rw [show a + 1 + j = a + (j + 1) by omega]; simpa using hbad)
      simp only [h0, Bool.false_eq_true, if_false, Eng.bind, this, List.take_succ_cons, State.wrote_cons]
      rw [show a + 1 + j = a + (j + 1) by omega]

/-! ### Scrub and completion -/

/-- Memory with 0x00 at each of the addresses `ws`. -/
def zeroAll (ws : List Word) (m : Memory) : Memory :=
  match ws with
  | [] => m
  | a :: ws => zeroAll ws (m.write a.toNat 0)

theorem zeroAll_append (xs ys : List Word) (m : Memory) : zeroAll (xs ++ ys) m = zeroAll ys (zeroAll xs m) := by
  induction xs generalizing m with
  | nil => rfl
  | cons x xs ih => simp [zeroAll, ih]

/-- Zeroing the addresses of a run inside the address space is writing zeros over the run. -/
theorem zeroAll_addresses (m : Memory) (a n : Nat) (h : a + n ≤ addressSpace) :
    zeroAll (addresses a n) m = m.writeRun a (List.replicate n 0) := by
  induction n generalizing a m with
  | zero => rfl
  | succ n ih =>
    have ha : (BitVec.ofNat 32 a).toNat = a := by
      simp only [addressSpace] at h
      simp only [BitVec.toNat_ofNat]
      omega
    simp only [addresses, zeroAll, ha, List.replicate_succ, Memory.writeRun]
    exact ih _ _ (by omega)

theorem scrub_quiet {s : State} (ws : List Word) (h : s.env = []) :
    scrub ws s = .ready { s with mem := zeroAll ws s.mem } := by
  induction ws generalizing s with
  | nil => rfl
  | cons a ws ih =>
    simp only [scrub, engineTurn_quiet h]
    rw [ih (s := { s with mem := s.mem.write a.toNat 0 }) h]
    rfl

theorem conclude_ok_quiet {s : State} (n : Nat) (h : s.env = []) :
    conclude (.ok n s) = .next (s.finish .ok n 0) := by
  simp [conclude, completion, engineTurn_quiet h]

theorem conclude_raised_quiet {s : State} (e : ErrCode) (ea : Nat) (h : s.env = []) :
    conclude (.raised e ea s) =
      .next (State.finish { s with mem := zeroAll s.work.written s.mem } e 0 (if e = .bus then ea else 0)) := by
  simp only [conclude, takeError, scrub_quiet s.work.written h, completion]
  rw [engineTurn_quiet (s := { s with mem := zeroAll s.work.written s.mem }) h]

/-- A completion step of a state with the registers of `s` completes `s`. -/
theorem completes_finish {s t : State} (e : ErrCode) {n ea : Nat} (h : t.rest = s.rest) (hn : n < 2 ^ 32)
    (hea : ea < 2 ^ 32) (henv : s.env = []) : Safety.Completes s (t.finish e n ea) e n ea := by
  have hst : t.status = s.status := State.status_of_rest h
  have hiq : t.irqStat = s.irqStat := State.irqStat_of_rest h
  exact
    { result := rfl
      outLen := by simp only [State.finish_outLen, BitVec.toNat_ofNat]; omega
      errAddr := by simp only [State.finish_errAddr, BitVec.toNat_ofNat]; omega
      busy := by simp only [State.busy, State.finish_status, getLsbD_statusCompleted]; rfl
      done := by simp only [State.done, State.finish_status, getLsbD_statusCompleted]; rfl
      ovr := by simp only [State.ovr, State.finish_status, getLsbD_statusCompleted, hst]; rfl
      statusRest := fun j hj => by
        simp [getLsbD_statusCompleted, hst, show j ≠ 1 by omega, show j ≠ 0 by omega]
      doneIp := by simp only [State.doneIp, State.finish_irqStat, getLsbD_setBit _ _ _ _ (show 0 < 32 by omega)]; rfl
      irqStatRest := fun j hj => by simp [getLsbD_setBit, hiq, show j ≠ 0 by omega]
      irqEn := (show t.irqEn = s.irqEn from State.irqEn_of_rest h)
      cmd := (show t.cmd = s.cmd from State.cmd_of_rest h)
      srcAddr := (show t.srcAddr = s.srcAddr from State.srcAddr_of_rest h)
      srcLen := (show t.srcLen = s.srcLen from State.srcLen_of_rest h)
      auxAddr := (show t.auxAddr = s.auxAddr from State.auxAddr_of_rest h)
      auxLen := (show t.auxLen = s.auxLen from State.auxLen_of_rest h)
      dstAddr := (show t.dstAddr = s.dstAddr from State.dstAddr_of_rest h)
      dstLen := (show t.dstLen = s.dstLen from State.dstLen_of_rest h)
      latch := (show t.latch = s.latch from State.latch_of_rest h)
      work := rfl
      journal := rfl
      extent := rfl
      cfg := (show t.cfg = s.cfg from State.cfg_of_rest h)
      env := (show t.env = [] from (State.env_of_rest h).trans henv)
      replies := (show t.replies = s.replies from State.replies_of_rest h) }

/-- LOAD_SKEY's store before the completion step changes nothing that the completion is judged by. -/
theorem completes_storeKey {s t : State} {e : ErrCode} {n ea : Nat} (bs : List Byte)
    (h : Safety.Completes s (t.finish e n ea) e n ea) :
    Safety.Completes s ((t.storeKey bs).finish e n ea) e n ea := by
  have hb (j : Nat) (hj : j ≠ 2) : (statusCompleted (setBit t.status 2 true)).getLsbD j =
      (statusCompleted t.status).getLsbD j := by
    simp only [getLsbD_statusCompleted, getLsbD_setBit _ _ _ _ (show 2 < 32 by omega), if_neg hj]
  exact
    { h with
      busy := (hb 0 (by omega)).trans h.busy
      done := (hb 1 (by omega)).trans h.done
      ovr := (hb 3 (by omega)).trans h.ovr
      statusRest := fun j hj => (hb j (by omega)).trans (h.statusRest j hj) }

/-- A completion step leaves the key store. -/
theorem keyKept_finish {s t : State} (e : ErrCode) (n ea : Nat) (h : t.rest = s.rest) :
    Safety.KeyKept s (t.finish e n ea) := by
  have hst : t.status = s.status := State.status_of_rest h
  exact ⟨(show t.skeyRam = s.skeyRam from State.skeyRam_of_rest h),
    (show t.skeyLen = s.skeyLen from State.skeyLen_of_rest h),
    by simp only [State.skeyValid, State.finish_status, getLsbD_statusCompleted, hst]; rfl⟩

/-- An error raised with nothing written: the completion with the code, nothing else changed. -/
theorem conclude_raised_clean {s : State} (e : ErrCode) (ea : Nat) (hf : Safety.Fresh s) (hea : ea < 2 ^ 32) :
    ∃ t, conclude (.raised e ea s) = .next t ∧ Safety.Errs s t e (if e = .bus then ea else 0) := by
  refine ⟨_, conclude_raised_quiet e ea hf.1, ?_, ?_, ?_⟩
  · rw [hf.2]
    exact completes_finish e rfl (by omega) (by split <;> omega) hf.1
  · rw [hf.2]
    exact keyKept_finish e _ _ rfl
  · intro a
    rw [hf.2]
    rfl

/-! ### The region checks -/

theorem Region.inRange_iff (r : Region) : r.inRange = true ↔ r.addr + r.len ≤ 2 ^ 32 := by
  unfold Region.inRange
  exact decide_eq_true_iff

theorem any_not_inRange {ins : List Region} (h : ∀ r ∈ ins, r.addr + r.len ≤ 2 ^ 32) :
    ins.any (fun r => !r.inRange) = false := by
  simp only [List.any_eq_false]
  intro r hr
  simp [(Region.inRange_iff r).mpr (h r hr)]

theorem outputFits_iff (s : State) (n : Nat) :
    (decide (s.latch.dstLen.toNat < n) || !Region.inRange ⟨s.latch.dstAddr.toNat, n⟩) = true ↔
      s.latch.dstLen.toNat < n ∨ 2 ^ 32 < s.latch.dstAddr.toNat + n := by
  rw [Bool.or_eq_true, decide_eq_true_iff, Bool.not_eq_true', Bool.eq_false_iff, ne_eq, Region.inRange_iff]
  exact or_congr Iff.rfl Nat.not_le

theorem outputFits_eq_false {s : State} {n : Nat}
    (h : n ≤ s.latch.dstLen.toNat ∧ s.latch.dstAddr.toNat + n ≤ 2 ^ 32) :
    (decide (s.latch.dstLen.toNat < n) || !Region.inRange ⟨s.latch.dstAddr.toNat, n⟩) = false := by
  rw [Bool.eq_false_iff, ne_eq, outputFits_iff]
  omega

theorem reachesDevice_eq_false {c : Config} {a n : Nat}
    (h : ∀ b, a ≤ b → b < a + n → c.deviceAt b = false) : c.reachesDevice a n = false := by
  rw [Bool.eq_false_iff]
  intro hr
  simp only [Config.reachesDevice, List.any_eq_true, Bool.and_eq_true, decide_eq_true_eq] at hr
  obtain ⟨r, hm, h1, h2, h3, h4⟩ := hr
  have := h (max a r.lo) (by omega) (by omega)
  simp only [Config.deviceAt, List.any_eq_false, Bool.and_eq_true, decide_eq_true_eq] at this
  exact this r hm ⟨by omega, by omega⟩

theorem firstDevice_eq_none {c : Config} {rs : List Region}
    (h : ∀ r ∈ rs, ∀ a, r.addr ≤ a → a < r.addr + r.len → c.deviceAt a = false) : firstDevice c rs = none := by
  simp only [firstDevice, List.find?_eq_none]
  intro r hr
  simp [reachesDevice_eq_false (h r hr)]

/-- Regions that pass every check of R138, in plain memory. -/
theorem checkRegions_ok {s : State} {ins : List Region} {n : Nat}
    (hin : ∀ r ∈ ins, r.addr + r.len ≤ 2 ^ 32)
    (hfit : n ≤ s.latch.dstLen.toNat ∧ s.latch.dstAddr.toNat + n ≤ 2 ^ 32)
    (hov : ∀ r ∈ ins,
      ¬(0 < r.len ∧ 0 < n ∧ r.addr < s.latch.dstAddr.toNat + n ∧ s.latch.dstAddr.toNat < r.addr + r.len))
    (hpl : ∀ r ∈ ins ++ [⟨s.latch.dstAddr.toNat, n⟩], ∀ a, r.addr ≤ a → a < r.addr + r.len →
      s.cfg.deviceAt a = false) :
    checkRegions ins (some n) s = .ok () { s with extent := n } := by
  have h1 := any_not_inRange hin
  have h2 : ins.any (fun r => r.overlaps ⟨s.latch.dstAddr.toNat, n⟩) = false := by
    simp only [List.any_eq_false]
    intro r hr
    have := hov r hr
    simp only [Region.overlaps, Bool.and_eq_true, decide_eq_true_eq]
    exact this
  have h3 := outputFits_eq_false hfit
  simp only [checkRegions, h1, Bool.false_eq_true, if_false, h3, h2, requirePlain, firstDevice_eq_none hpl, Eng.bind]

/-- An input region out of range: LENGTH (R133 (c)). -/
theorem checkRegions_inputRange {s : State} {ins : List Region} (out : Option Nat)
    (h : ∃ r ∈ ins, 2 ^ 32 < r.addr + r.len) : checkRegions ins out s = .raised .length 0 s := by
  obtain ⟨r, hr, h⟩ := h
  have h1 : ins.any (fun r => !r.inRange) = true := by
    rw [List.any_eq_true]
    refine ⟨r, hr, ?_⟩
    rw [Bool.not_eq_true', Bool.eq_false_iff, ne_eq, Region.inRange_iff]
    omega
  simp [checkRegions, h1]

/-- An output extent that does not fit: LENGTH (R133 (d), (e)). -/
theorem checkRegions_outputRange {s : State} {ins : List Region} {n : Nat}
    (hin : ∀ r ∈ ins, r.addr + r.len ≤ 2 ^ 32)
    (h : s.latch.dstLen.toNat < n ∨ 2 ^ 32 < s.latch.dstAddr.toNat + n) :
    checkRegions ins (some n) s = .raised .length 0 s := by
  have h1 := any_not_inRange hin
  have h3 := (outputFits_iff s n).mpr h
  simp [checkRegions, h1, h3]

/-- An output extent that shares a byte with an input region: OVERLAP (R134). -/
theorem checkRegions_overlap {s : State} {ins : List Region} {n : Nat}
    (hin : ∀ r ∈ ins, r.addr + r.len ≤ 2 ^ 32)
    (hfit : n ≤ s.latch.dstLen.toNat ∧ s.latch.dstAddr.toNat + n ≤ 2 ^ 32)
    (hov : ∃ r ∈ ins,
      0 < r.len ∧ 0 < n ∧ r.addr < s.latch.dstAddr.toNat + n ∧ s.latch.dstAddr.toNat < r.addr + r.len) :
    checkRegions ins (some n) s = .raised .overlap 0 s := by
  have h1 := any_not_inRange hin
  have h3 := outputFits_eq_false hfit
  have h2 : ins.any (fun r => r.overlaps ⟨s.latch.dstAddr.toNat, n⟩) = true := by
    obtain ⟨r, hr, h⟩ := hov
    rw [List.any_eq_true]
    refine ⟨r, hr, ?_⟩
    simpa only [Region.overlaps, Bool.and_eq_true, decide_eq_true_eq] using h
  simp only [checkRegions, h1, Bool.false_eq_true, if_false, h3, h2, if_true]

end Sys2Proof.Machine
end

