-- ==== Sys2Proof/Laws/Stream.lean ====
section
/-! SUPPORT. The cipher streams with a silent host: they write the CBC functions of the bytes they read
(43_cbc_commands.md R95, R99, R100). -/

namespace Sys2Proof.Machine

/-! ### Blocks and their bytes -/

@[simp] theorem Block.length_toBytes (b : Block) : b.toBytes.length = 16 := rfl

@[simp] theorem Block.ofBytes_toBytes (b : Block) : Block.ofBytes b.toBytes = b := by
  cases b; rfl

/-- A block is read from the first 16 bytes alone. -/
theorem Block.ofBytes_append (p q : List Byte) (h : p.length = 16) : Block.ofBytes (p ++ q) = Block.ofBytes p := by
  have e (i : Nat) (hi : i < 16) : (p ++ q).getD i 0 = p.getD i 0 := List.getD_append _ _ _ _ (by omega)
  simp only [Block.ofBytes, Quad.ofBytes]
  simp only [Nat.zero_add, Nat.reduceAdd]
  rw [e 0, e 1, e 2, e 3, e 4, e 5, e 6, e 7, e 8, e 9, e 10, e 11, e 12, e 13, e 14, e 15] <;> omega

@[simp] theorem length_padBytes (n : Nat) : (padBytes n).length = 16 - n % 16 := by simp [padBytes]

theorem length_cbcEncryptBlocks (w : List Quad) (m : Nat) (c : Block) (q : List Byte) :
    (cbcEncryptBlocks w m c q).length = 16 * m := by
  induction m generalizing c q with
  | zero => rfl
  | succ m ih => simp [cbcEncryptBlocks, ih]; omega

theorem length_cbcDecryptBlocks (w : List Quad) (m : Nat) (c : Block) (q : List Byte) :
    (cbcDecryptBlocks w m c q).length = 16 * m := by
  induction m generalizing c q with
  | zero => rfl
  | succ m ih => simp [cbcDecryptBlocks, ih]; omega

/-- The pad length is decided by the last 16 bytes. -/
theorem padLength_append (x y : List Byte) (h : y.length = 16) : padLength (x ++ y) = padLength y := by
  obtain ⟨z, l, rfl⟩ : ∃ z l, y = z ++ [l] := by
    cases y using List.reverseRecOn with
    | nil => simp at h
    | append_singleton z l => exact ⟨z, l, rfl⟩
  simp only [List.length_append, List.length_cons, List.length_nil] at h
  simp only [padLength, ← List.append_assoc, List.getLastD_concat]
  by_cases hn : 1 ≤ l.toNat ∧ l.toNat ≤ 16
  · have e : (x ++ z ++ [l]).drop ((x ++ z ++ [l]).length - l.toNat) = (z ++ [l]).drop ((z ++ [l]).length - l.toNat) := by
      rw [List.append_assoc, List.drop_append]
      simp only [List.length_append, List.length_cons, List.length_nil]
      rw [List.drop_eq_nil_of_le (by omega), List.nil_append]
      congr 1
      omega
    rw [e]
    simp [hn.1, hn.2, show l.toNat ≤ z.length + 1 by omega, show l.toNat ≤ x.length + (z.length + 1) by omega]
  · rw [if_neg (by tauto), if_neg (by tauto)]

/-- A pad length is between 1 and 16. -/
theorem padLength_bounds {d : List Byte} {n : Nat} (h : padLength d = some n) : 1 ≤ n ∧ n ≤ 16 ∧ n ≤ d.length := by
  simp only [padLength] at h
  split at h
  · rename_i hc; cases h; exact ⟨hc.1, hc.2.1, hc.2.2.1⟩
  · cases h

/-! ### The streams -/

/-- What the streams need of their two regions from offset `off` on, `n` bytes to read and `m` to write. -/
structure StreamOk (s : State) (off n m : Nat) : Prop where
  env : s.env = []
  memWf : s.mem.wf = true
  srcRange : s.latch.srcAddr.toNat + off + n ≤ addressSpace
  dstRange : s.latch.dstAddr.toNat + off + m ≤ addressSpace
  reads : ∀ b, s.latch.srcAddr.toNat + off ≤ b → b < s.latch.srcAddr.toNat + off + n → s.cfg.busErrAt b .read = false
  writes : ∀ b, s.latch.dstAddr.toNat + off ≤ b → b < s.latch.dstAddr.toNat + off + m →
    s.cfg.busErrAt b .write = false
  apart : ∀ b, s.latch.srcAddr.toNat + off ≤ b → b < s.latch.srcAddr.toNat + off + n →
    ¬(s.latch.dstAddr.toNat + off ≤ b ∧ b < s.latch.dstAddr.toNat + off + m)

/-- One block later. -/
theorem StreamOk.next {s t : State} {off n m : Nat} (h : StreamOk s off (16 + n) (16 + m)) (hr : t.rest = s.rest)
    (hm : t.mem.wf = true) : StreamOk t (off + 16) n m where
  env := (State.env_of_rest hr).trans h.env
  memWf := hm
  srcRange := by rw [State.latch_of_rest hr]; have := h.srcRange; omega
  dstRange := by rw [State.latch_of_rest hr]; have := h.dstRange; omega
  reads := by
    rw [State.latch_of_rest hr, State.cfg_of_rest hr]
    exact fun b h1 h2 => h.reads b (by omega) (by omega)
  writes := by
    rw [State.latch_of_rest hr, State.cfg_of_rest hr]
    exact fun b h1 h2 => h.writes b (by omega) (by omega)
  apart := by
    rw [State.latch_of_rest hr]
    exact fun b h1 h2 h3 => h.apart b (by omega) (by omega) ⟨by omega, by omega⟩

/-- `t` is `s` after the engine wrote `bs` from `a` on, whatever else its working state holds. -/
structure Wrote (s t : State) (a : Nat) (bs : List Byte) : Prop where
  rest : t.rest = s.rest
  mem : t.mem = s.mem.writeRun a bs
  written : t.work.written = s.work.written ++ addresses a bs.length

theorem Wrote.trans {s t u : State} {a : Nat} {bs cs : List Byte} (h : Wrote s t a bs)
    (h' : Wrote t u (a + bs.length) cs) : Wrote s u a (bs ++ cs) where
  rest := h'.rest.trans h.rest
  mem := by rw [h'.mem, h.mem, Memory.writeRun_append]
  written := by rw [h'.written, h.written, List.length_append, addresses_add, List.append_assoc]

theorem Wrote.refl (s : State) (a : Nat) : Wrote s s a [] := ⟨rfl, rfl, by simp [addresses]⟩

/-- A block written leaves the source bytes after it. -/
theorem StreamOk.readRun_next {s u : State} {off n m : Nat} {b : List Byte} (h : StreamOk s off (16 + n) (16 + m))
    (hw : Wrote s u (s.latch.dstAddr.toNat + off) b) (hb : b.length = 16) :
    u.mem.readRun (s.latch.srcAddr.toNat + (off + 16)) n = s.mem.readRun (s.latch.srcAddr.toNat + (off + 16)) n := by
  refine Memory.readRun_congr fun c h1 h2 => ?_
  rw [hw.mem, Memory.read_writeRun _ h.memWf (by have := h.dstRange; omega), if_neg]
  intro hc
  exact h.apart c (by omega) (by omega) ⟨by omega, by omega⟩

/-- One block of `EncStream` that is not the last one. -/
theorem encLoop_step {s : State} (full : Nat) {off n m : Nat} (h : StreamOk s off (16 + n) (16 + m)) :
    ∃ u b, encLoop (full + 1) off s = encLoop full (off + 16) u ∧ StreamOk u (off + 16) n m ∧ b.length = 16 ∧
      Wrote s u (s.latch.dstAddr.toNat + off) b ∧
      ∀ k tail, cbcEncryptBlocks s.work.rk (k + 1) s.work.chain
          (s.mem.readRun (s.latch.srcAddr.toNat + off) (16 + n) ++ tail) =
        b ++ cbcEncryptBlocks u.work.rk k u.work.chain
          (u.mem.readRun (u.latch.srcAddr.toNat + (off + 16)) n ++ tail) := by
  have hr := memRead_quiet (s := s) (a := s.latch.srcAddr.toNat + off) (n := 16) h.env
    (by have := h.srcRange; omega) (fun b h1 h2 => h.reads b h1 (by omega))
  have hw := memWrite_quiet
    (s := s.encryptBlock (s.mem.readRun (s.latch.srcAddr.toNat + off) 16))
    (a := s.latch.dstAddr.toNat + off)
    (s.encryptBlock (s.mem.readRun (s.latch.srcAddr.toNat + off) 16)).work.chain.toBytes
    h.env (by have := h.dstRange; simp; omega)
    (fun b h1 h2 => h.writes b (by simpa using h1) (by simp at h2; omega))
  have he : encLoop (full + 1) off s = encLoop full (off + 16)
      ((s.encryptBlock (s.mem.readRun (s.latch.srcAddr.toNat + off) 16)).wrote (s.latch.dstAddr.toNat + off)
        (s.encryptBlock (s.mem.readRun (s.latch.srcAddr.toNat + off) 16)).work.chain.toBytes) := by
    simp only [encLoop, hr, Eng.bind]
    rw [State.encryptBlock_latch, hw]
  rw [he]
  generalize hu : State.wrote _ _ _ = u
  have huw : Wrote s u (s.latch.dstAddr.toNat + off)
      (aesEncrypt s.work.rk ((Block.ofBytes (s.mem.readRun (s.latch.srcAddr.toNat + off) 16)).xor
        s.work.chain)).toBytes := by subst hu; exact ⟨rfl, rfl, rfl⟩
  have hul : u.latch = s.latch := State.latch_of_rest huw.rest
  have hurk : u.work.rk = s.work.rk := by subst hu; rfl
  have huch : u.work.chain = aesEncrypt s.work.rk
      ((Block.ofBytes (s.mem.readRun (s.latch.srcAddr.toNat + off) 16)).xor s.work.chain) := by subst hu; rfl
  refine ⟨u, _, rfl, h.next huw.rest ?_, rfl, huw, fun k tail => ?_⟩
  · rw [huw.mem]
    exact Memory.wf_writeRun _ h.memWf (by have := h.dstRange; simp; omega)
  · rw [hul, hurk, huch, h.readRun_next huw rfl, Memory.readRun_add, List.append_assoc]
    conv => lhs; unfold cbcEncryptBlocks
    rw [Block.ofBytes_append _ _ (by simp), List.drop_append_of_le_length (by simp),
      List.drop_of_length_le (by simp), List.nil_append, Nat.add_assoc]

/-- `EncStream`'s blocks write CBC over the bytes read, padded. -/
theorem encLoop_quiet {s : State} {full off : Nat}
    (h : StreamOk s off (16 * full + s.latch.srcLen.toNat % 16) (16 * full + 16)) :
    ∃ t, encLoop full off s = .ok () t ∧
      Wrote s t (s.latch.dstAddr.toNat + off)
        (cbcEncryptBlocks s.work.rk (full + 1) s.work.chain
          (s.mem.readRun (s.latch.srcAddr.toNat + off) (16 * full + s.latch.srcLen.toNat % 16) ++
            padBytes s.latch.srcLen.toNat)) := by
  induction full generalizing off s with
  | zero =>
    have hr := memRead_quiet (s := s) (a := s.latch.srcAddr.toNat + off) (n := s.latch.srcLen.toNat % 16) h.env
      (by have := h.srcRange; omega) (fun b h1 h2 => h.reads b h1 (by omega))
    simp only [encLoop, hr, Eng.bind]
    have hw := memWrite_quiet
      (s := s.encryptBlock (s.mem.readRun (s.latch.srcAddr.toNat + off) (s.latch.srcLen.toNat % 16) ++
        padBytes s.latch.srcLen.toNat))
      (a := s.latch.dstAddr.toNat + off)
      (s.encryptBlock (s.mem.readRun (s.latch.srcAddr.toNat + off) (s.latch.srcLen.toNat % 16) ++
        padBytes s.latch.srcLen.toNat)).work.chain.toBytes
      h.env (by have := h.dstRange; simp; omega)
      (fun b h1 h2 => h.writes b (by simpa using h1) (by simp at h2; omega))
    refine ⟨_, hw, rfl, ?_, ?_⟩
    · simp [State.encryptBlock, cbcEncryptBlocks]
    · simp [State.encryptBlock, cbcEncryptBlocks]
  | succ full ih =>
    have e : 16 * (full + 1) + s.latch.srcLen.toNat % 16 = 16 + (16 * full + s.latch.srcLen.toNat % 16) := by omega
    rw [e] at h ⊢
    rw [show 16 * (full + 1) + 16 = 16 + (16 * full + 16) by omega] at h
    obtain ⟨u, b, hu, hok, hbl, huw, hsplit⟩ := encLoop_step full h
    have hul : u.latch = s.latch := State.latch_of_rest huw.rest
    obtain ⟨t, ht, htw⟩ := ih (by rw [hul]; exact hok)
    refine ⟨t, hu.trans ht, ?_⟩
    rw [hsplit]
    exact huw.trans (by simpa [hul, hbl, Nat.add_assoc] using htw)

/-- `EncStream`'s blocks where byte `j` is the first of the source that gets an error response: the blocks before it
are written, then BUS. -/
theorem encLoop_quiet_busRead {s : State} {full off j : Nat}
    (hs : s.latch.srcAddr.toNat + off + (16 * full + s.latch.srcLen.toNat % 16) ≤ addressSpace)
    (hj : j < 16 * full + s.latch.srcLen.toNat % 16) (h : StreamOk s off j (16 * (j / 16)))
    (hbad : s.cfg.busErrAt (s.latch.srcAddr.toNat + off + j) .read = true) :
    ∃ t bs, encLoop full off s = .raised .bus (s.latch.srcAddr.toNat + off + j) t ∧ bs.length = 16 * (j / 16) ∧
      Wrote s t (s.latch.dstAddr.toNat + off) bs := by
  induction full generalizing off j s with
  | zero =>
    have hr := memRead_quiet_bus (n := s.latch.srcLen.toNat % 16) h.env (by omega) (by omega)
      (fun i hi => h.reads _ (by omega) (by omega)) hbad
    simp only [encLoop, hr, Eng.bind]
    exact ⟨s, [], rfl, by simp; omega, Wrote.refl _ _⟩
  | succ full ih =>
    by_cases hj16 : j < 16
    · have hr := memRead_quiet_bus h.env (by omega) hj16 (fun i hi => h.reads _ (by omega) (by omega)) hbad
      simp only [encLoop, hr, Eng.bind]
      exact ⟨s, [], rfl, by simp; omega, Wrote.refl _ _⟩
    · obtain ⟨l, rfl⟩ : ∃ l, j = 16 + l := ⟨j - 16, by omega⟩
      rw [show 16 * ((16 + l) / 16) = 16 + 16 * (l / 16) by omega] at h ⊢
      obtain ⟨u, b, hu, hok, hbl, huw, -⟩ := encLoop_step full h
      have hul : u.latch = s.latch := State.latch_of_rest huw.rest
      obtain ⟨t, bs, ht, hl, htw⟩ := ih (s := u) (j := l) (off := off + 16) (by rw [hul]; omega) (by rw [hul]; omega) hok
        (by rw [hul, State.cfg_of_rest huw.rest]; simpa only [Nat.add_assoc] using hbad)
      refine ⟨t, b ++ bs, ?_, by simp [hbl, hl], huw.trans (by simpa [hul, hbl, Nat.add_assoc] using htw)⟩
      rw [hu, ht, hul]
      simp only [Nat.add_assoc]

/-- `EncStream`'s blocks where byte `j` is the first of the output that gets an error response: the bytes before it
are written, then BUS. -/
theorem encLoop_quiet_busWrite {s : State} {full off j : Nat}
    (hd : s.latch.dstAddr.toNat + off + (16 * full + 16) ≤ addressSpace) (hj : j < 16 * full + 16)
    (h : StreamOk s off (16 * full + s.latch.srcLen.toNat % 16) j)
    (hbad : s.cfg.busErrAt (s.latch.dstAddr.toNat + off + j) .write = true) :
    ∃ t bs, encLoop full off s = .raised .bus (s.latch.dstAddr.toNat + off + j) t ∧ bs.length = j ∧
      Wrote s t (s.latch.dstAddr.toNat + off) bs := by
  induction full generalizing off j s with
  | zero =>
    have hr := memRead_quiet (s := s) (a := s.latch.srcAddr.toNat + off) (n := s.latch.srcLen.toNat % 16) h.env
      (by have := h.srcRange; omega) (fun b h1 h2 => h.reads b h1 (by omega))
    have hw (p : List Byte) := memWrite_quiet_bus (s := s.encryptBlock p) (s.encryptBlock p).work.chain.toBytes h.env
      (by simp; omega) (by simp; omega) (fun i hi => h.writes _ (by omega) (by omega)) hbad
    simp only [encLoop, hr, Eng.bind, State.encryptBlock_latch, hw]
    exact ⟨_, _, rfl, by simp; omega, rfl, rfl, by simp [State.encryptBlock]⟩
  | succ full ih =>
    by_cases hj16 : j < 16
    · have hr := memRead_quiet (s := s) (a := s.latch.srcAddr.toNat + off) (n := 16) h.env
        (by have := h.srcRange; omega) (fun b h1 h2 => h.reads b h1 (by omega))
      have hw (p : List Byte) := memWrite_quiet_bus (s := s.encryptBlock p) (s.encryptBlock p).work.chain.toBytes h.env
        (by simp; omega) (by simp; omega) (fun i hi => h.writes _ (by omega) (by omega)) hbad
      simp only [encLoop, hr, Eng.bind, State.encryptBlock_latch, hw]
      exact ⟨_, _, rfl, by simp; omega, rfl, rfl, by simp [State.encryptBlock]⟩
    · obtain ⟨l, rfl⟩ : ∃ l, j = 16 + l := ⟨j - 16, by omega⟩
      rw [show 16 * (full + 1) + s.latch.srcLen.toNat % 16 = 16 + (16 * full + s.latch.srcLen.toNat % 16) by omega] at h
      obtain ⟨u, b, hu, hok, hbl, huw, -⟩ := encLoop_step full h
      have hul : u.latch = s.latch := State.latch_of_rest huw.rest
      have huc : u.cfg = s.cfg := State.cfg_of_rest huw.rest
      obtain ⟨t, bs, ht, hl, htw⟩ := ih (s := u) (j := l) (off := off + 16) (by rw [hul]; omega) (by omega)
        (by rw [hul]; exact hok) (by rw [hul, huc]; simpa only [Nat.add_assoc] using hbad)
      refine ⟨t, b ++ bs, ?_, by simp [hbl, hl], huw.trans (by simpa [hul, hbl, Nat.add_assoc] using htw)⟩
      rw [hu, ht, hul]
      simp only [Nat.add_assoc]

/-- One block of `DecStream` that is not the final one. -/
theorem decLoop_step {s : State} (more : Nat) {off n m : Nat} (h : StreamOk s off (16 + n) (16 + m)) :
    ∃ u b, decLoop (more + 1) off s = decLoop more (off + 16) u ∧ StreamOk u (off + 16) n m ∧ b.length = 16 ∧
      Wrote s u (s.latch.dstAddr.toNat + off) b ∧
      ∀ k, cbcDecryptBlocks s.work.rk (k + 1) s.work.chain
          (s.mem.readRun (s.latch.srcAddr.toNat + off) (16 + n)) =
        b ++ cbcDecryptBlocks u.work.rk k u.work.chain
          (u.mem.readRun (u.latch.srcAddr.toNat + (off + 16)) n) := by
  have hr := memRead_quiet (s := s) (a := s.latch.srcAddr.toNat + off) (n := 16) h.env
    (by have := h.srcRange; omega) (fun b h1 h2 => h.reads b h1 (by omega))
  have hw := memWrite_quiet
    (s := s.decryptBlock (s.mem.readRun (s.latch.srcAddr.toNat + off) 16))
    (a := s.latch.dstAddr.toNat + off)
    (s.decryptBlock (s.mem.readRun (s.latch.srcAddr.toNat + off) 16)).work.blk.toBytes
    h.env (by have := h.dstRange; simp; omega)
    (fun b h1 h2 => h.writes b (by simpa using h1) (by simp at h2; omega))
  have hd : decLoop (more + 1) off s = decLoop more (off + 16)
      ((s.decryptBlock (s.mem.readRun (s.latch.srcAddr.toNat + off) 16)).wrote (s.latch.dstAddr.toNat + off)
        (s.decryptBlock (s.mem.readRun (s.latch.srcAddr.toNat + off) 16)).work.blk.toBytes) := by
    simp only [decLoop, hr, Eng.bind]
    rw [State.decryptBlock_latch, hw]
  rw [hd]
  generalize hu : State.wrote _ _ _ = u
  have huw : Wrote s u (s.latch.dstAddr.toNat + off)
      ((aesDecrypt s.work.rk (Block.ofBytes (s.mem.readRun (s.latch.srcAddr.toNat + off) 16))).xor
        s.work.chain).toBytes := by subst hu; exact ⟨rfl, rfl, rfl⟩
  have hul : u.latch = s.latch := State.latch_of_rest huw.rest
  have hurk : u.work.rk = s.work.rk := by subst hu; rfl
  have huch : u.work.chain = Block.ofBytes (s.mem.readRun (s.latch.srcAddr.toNat + off) 16) := by subst hu; rfl
  refine ⟨u, _, rfl, h.next huw.rest ?_, rfl, huw, fun k => ?_⟩
  · rw [huw.mem]
    exact Memory.wf_writeRun _ h.memWf (by have := h.dstRange; simp; omega)
  · rw [hul, hurk, huch, h.readRun_next huw rfl, Memory.readRun_add]
    conv => lhs; unfold cbcDecryptBlocks
    rw [Block.ofBytes_append _ _ (by simp), List.drop_append_of_le_length (by simp),
      List.drop_of_length_le (by simp), List.nil_append, Nat.add_assoc]

/-- The pad length of a decrypted buffer does not change with a block in front of it. -/
theorem padLength_cbcDecryptBlocks (b : List Byte) (w : List Quad) (m : Nat) (c : Block) (q : List Byte) :
    padLength (b ++ cbcDecryptBlocks w (m + 1) c q) = padLength (cbcDecryptBlocks w (m + 1) c q) := by
  have hl := length_cbcDecryptBlocks w (m + 1) c q
  generalize cbcDecryptBlocks w (m + 1) c q = d at hl
  rw [← List.take_append_drop (16 * m) d, ← List.append_assoc, padLength_append _ _ (by simp; omega),
    padLength_append _ _ (by simp; omega)]

/-- `DecStream`'s blocks with valid final padding of `n` bytes write inverse CBC over the bytes read, less the last
`n` bytes. -/
theorem decLoop_quiet {s : State} {more off n : Nat} (h : StreamOk s off (16 * more + 16) (16 * more + 15))
    (hp : padLength (cbcDecryptBlocks s.work.rk (more + 1) s.work.chain
      (s.mem.readRun (s.latch.srcAddr.toNat + off) (16 * more + 16))) = some n) :
    ∃ t, decLoop more off s = .ok n t ∧
      Wrote s t (s.latch.dstAddr.toNat + off)
        ((cbcDecryptBlocks s.work.rk (more + 1) s.work.chain
          (s.mem.readRun (s.latch.srcAddr.toNat + off) (16 * more + 16))).take (16 * more + 16 - n)) := by
  induction more generalizing off s with
  | zero =>
    have hr := memRead_quiet (s := s) (a := s.latch.srcAddr.toNat + off) (n := 16) h.env
      (by have := h.srcRange; omega) (fun b h1 h2 => h.reads b h1 (by omega))
    simp only [decLoop, hr, Eng.bind]
    have hb := padLength_bounds hp
    simp only [cbcDecryptBlocks, List.append_nil, Nat.mul_zero, Nat.zero_add] at hp
    simp only [State.decryptBlock, hp]
    have hw := memWrite_quiet
      (s := s.decryptBlock (s.mem.readRun (s.latch.srcAddr.toNat + off) 16))
      (a := s.latch.dstAddr.toNat + off)
      ((s.decryptBlock (s.mem.readRun (s.latch.srcAddr.toNat + off) 16)).work.blk.toBytes.take (16 - n))
      h.env (by have := h.dstRange; simp; omega)
      (fun b h1 h2 => h.writes b (by simpa using h1) (by simp at h2; omega))
    simp only [State.decryptBlock] at hw
    rw [hw]
    refine ⟨_, rfl, rfl, ?_, ?_⟩
    · simp [cbcDecryptBlocks]
    · simp [cbcDecryptBlocks]
  | succ more ih =>
    rw [show 16 * (more + 1) + 16 = 16 + (16 * more + 16) by omega] at h hp ⊢
    rw [show 16 * (more + 1) + 15 = 16 + (16 * more + 15) by omega] at h
    obtain ⟨u, b, hd, hok, hbl, huw, hsplit⟩ := decLoop_step more h
    have hul : u.latch = s.latch := State.latch_of_rest huw.rest
    rw [hsplit] at hp ⊢
    rw [padLength_cbcDecryptBlocks] at hp
    obtain ⟨t, ht, htw⟩ := ih hok hp
    refine ⟨t, hd.trans ht, ?_⟩
    have hb := padLength_bounds hp
    have := huw.trans (u := t) (cs := _) (by simpa [hul, hbl, Nat.add_assoc] using htw)
    rw [List.take_append, List.take_of_length_le (by omega), hbl,
      show 16 + (16 * more + 16) - n - 16 = 16 * more + 16 - n by omega]
    simpa [hul, Nat.add_assoc] using this

/-- `DecStream`'s blocks with invalid final padding write inverse CBC over all blocks but the last, then raise
PADDING. -/
theorem decLoop_quiet_padding {s : State} {more off : Nat} (h : StreamOk s off (16 * more + 16) (16 * more + 15))
    (hp : padLength (cbcDecryptBlocks s.work.rk (more + 1) s.work.chain
      (s.mem.readRun (s.latch.srcAddr.toNat + off) (16 * more + 16))) = none) :
    ∃ t, decLoop more off s = .raised .padding 0 t ∧
      Wrote s t (s.latch.dstAddr.toNat + off)
        ((cbcDecryptBlocks s.work.rk (more + 1) s.work.chain
          (s.mem.readRun (s.latch.srcAddr.toNat + off) (16 * more + 16))).take (16 * more)) := by
  induction more generalizing off s with
  | zero =>
    have hr := memRead_quiet (s := s) (a := s.latch.srcAddr.toNat + off) (n := 16) h.env
      (by have := h.srcRange; omega) (fun b h1 h2 => h.reads b h1 (by omega))
    simp only [decLoop, hr, Eng.bind]
    simp only [cbcDecryptBlocks, List.append_nil, Nat.mul_zero, Nat.zero_add] at hp
    simp only [State.decryptBlock, hp]
    exact ⟨_, rfl, rfl, by simp [Memory.writeRun], by simp [addresses]⟩
  | succ more ih =>
    rw [show 16 * (more + 1) + 16 = 16 + (16 * more + 16) by omega] at h hp ⊢
    rw [show 16 * (more + 1) + 15 = 16 + (16 * more + 15) by omega] at h
    obtain ⟨u, b, hd, hok, hbl, huw, hsplit⟩ := decLoop_step more h
    have hul : u.latch = s.latch := State.latch_of_rest huw.rest
    rw [hsplit] at hp ⊢
    rw [padLength_cbcDecryptBlocks] at hp
    obtain ⟨t, ht, htw⟩ := ih hok hp
    refine ⟨t, hd.trans ht, ?_⟩
    have := huw.trans (u := t) (cs := _) (by simpa [hul, hbl, Nat.add_assoc] using htw)
    rw [List.take_append, List.take_of_length_le (by omega), hbl,
      show 16 * (more + 1) - 16 = 16 * more by omega]
    simpa [hul, Nat.add_assoc] using this

/-- `DecStream`'s blocks where byte `j` is the first of the source that gets an error response: the blocks before it
are written, then BUS. -/
theorem decLoop_quiet_busRead {s : State} {more off j : Nat}
    (hs : s.latch.srcAddr.toNat + off + (16 * more + 16) ≤ addressSpace) (hj : j < 16 * more + 16)
    (h : StreamOk s off j (16 * (j / 16)))
    (hbad : s.cfg.busErrAt (s.latch.srcAddr.toNat + off + j) .read = true) :
    ∃ t bs, decLoop more off s = .raised .bus (s.latch.srcAddr.toNat + off + j) t ∧ bs.length = 16 * (j / 16) ∧
      Wrote s t (s.latch.dstAddr.toNat + off) bs := by
  induction more generalizing off j s with
  | zero =>
    have hr := memRead_quiet_bus (n := 16) h.env (by omega) (by omega)
      (fun i hi => h.reads _ (by omega) (by omega)) hbad
    simp only [decLoop, hr, Eng.bind]
    exact ⟨s, [], rfl, by simp; omega, Wrote.refl _ _⟩
  | succ more ih =>
    by_cases hj16 : j < 16
    · have hr := memRead_quiet_bus h.env (by omega) hj16 (fun i hi => h.reads _ (by omega) (by omega)) hbad
      simp only [decLoop, hr, Eng.bind]
      exact ⟨s, [], rfl, by simp; omega, Wrote.refl _ _⟩
    · obtain ⟨l, rfl⟩ : ∃ l, j = 16 + l := ⟨j - 16, by omega⟩
      rw [show 16 * ((16 + l) / 16) = 16 + 16 * (l / 16) by omega] at h ⊢
      obtain ⟨u, b, hu, hok, hbl, huw, -⟩ := decLoop_step more h
      have hul : u.latch = s.latch := State.latch_of_rest huw.rest
      obtain ⟨t, bs, ht, hl, htw⟩ := ih (s := u) (j := l) (off := off + 16) (by rw [hul]; omega) (by omega) hok
        (by rw [hul, State.cfg_of_rest huw.rest]; simpa only [Nat.add_assoc] using hbad)
      refine ⟨t, b ++ bs, ?_, by simp [hbl, hl], huw.trans (by simpa [hul, hbl, Nat.add_assoc] using htw)⟩
      rw [hu, ht, hul]
      simp only [Nat.add_assoc]

/-- `DecStream`'s blocks with valid final padding of `n` bytes, where byte `j` is the first of the output that gets an
error response: the bytes before it are written, then BUS. -/
theorem decLoop_quiet_busWrite {s : State} {more off n j : Nat}
    (hd : s.latch.dstAddr.toNat + off + (16 * more + 15) ≤ addressSpace) (hj : j < 16 * more + 16 - n)
    (h : StreamOk s off (16 * more + 16) j)
    (hp : padLength (cbcDecryptBlocks s.work.rk (more + 1) s.work.chain
      (s.mem.readRun (s.latch.srcAddr.toNat + off) (16 * more + 16))) = some n)
    (hbad : s.cfg.busErrAt (s.latch.dstAddr.toNat + off + j) .write = true) :
    ∃ t bs, decLoop more off s = .raised .bus (s.latch.dstAddr.toNat + off + j) t ∧ bs.length = j ∧
      Wrote s t (s.latch.dstAddr.toNat + off) bs := by
  have hb := padLength_bounds hp
  induction more generalizing off j s with
  | zero =>
    have hr := memRead_quiet (s := s) (a := s.latch.srcAddr.toNat + off) (n := 16) h.env
      (by have := h.srcRange; omega) (fun b h1 h2 => h.reads b h1 (by omega))
    simp only [cbcDecryptBlocks, List.append_nil, Nat.mul_zero, Nat.zero_add] at hp
    have hw := memWrite_quiet_bus
      (s := s.decryptBlock (s.mem.readRun (s.latch.srcAddr.toNat + off) 16))
      ((s.decryptBlock (s.mem.readRun (s.latch.srcAddr.toNat + off) 16)).work.blk.toBytes.take (16 - n)) h.env
      (by simp; omega) (by simp; omega) (fun i hi => h.writes _ (by omega) (by omega)) hbad
    simp only [State.decryptBlock] at hw
    simp only [decLoop, hr, Eng.bind, State.decryptBlock, hp, hw]
    exact ⟨_, _, rfl, by simp; omega, rfl, rfl, by simp⟩
  | succ more ih =>
    by_cases hj16 : j < 16
    · have hr := memRead_quiet (s := s) (a := s.latch.srcAddr.toNat + off) (n := 16) h.env
        (by have := h.srcRange; omega) (fun b h1 h2 => h.reads b h1 (by omega))
      have hw (c : List Byte) := memWrite_quiet_bus (s := s.decryptBlock c) (s.decryptBlock c).work.blk.toBytes h.env
        (by simp; omega) (by simp; omega) (fun i hi => h.writes _ (by omega) (by omega)) hbad
      simp only [decLoop, hr, Eng.bind, State.decryptBlock_latch, hw]
      exact ⟨_, _, rfl, by simp; omega, rfl, rfl, by simp [State.decryptBlock]⟩
    · obtain ⟨l, rfl⟩ : ∃ l, j = 16 + l := ⟨j - 16, by omega⟩
      rw [show 16 * (more + 1) + 16 = 16 + (16 * more + 16) by omega] at h hp
      obtain ⟨u, b, hu, hok, hbl, huw, hsplit⟩ := decLoop_step more h
      have hul : u.latch = s.latch := State.latch_of_rest huw.rest
      rw [hsplit, padLength_cbcDecryptBlocks] at hp
      obtain ⟨t, bs, ht, hl, htw⟩ := ih (s := u) (j := l) (off := off + 16) (by rw [hul]; omega) (by omega) hok hp
        (by rw [hul, State.cfg_of_rest huw.rest]; simpa only [Nat.add_assoc] using hbad) (padLength_bounds hp)
      refine ⟨t, b ++ bs, ?_, by simp [hbl, hl], huw.trans (by simpa [hul, hbl, Nat.add_assoc] using htw)⟩
      rw [hu, ht, hul]
      simp only [Nat.add_assoc]

end Sys2Proof.Machine
end

