-- ==== Sys2Proof/Laws/Run.lean ====
section
/-! SUPPORT. What every command's run keeps, with any host: a rule for each shared operation, and one for all ten
commands at once (`run_sat`), whatever the environment does between two engine steps. -/

namespace Sys2Proof.Machine

/-- What holds of where the environment's steps leave the engine. -/
def Turn.Sat (x : Turn) (Q A : State → Prop) : Prop :=
  match x with
  | .ready s => Q s
  | .aborted s => A s

/-- What holds of where a part of a command leaves the engine; a fault never holds. -/
def Eng.Sat {α : Type} (x : Eng α) (Q : α → State → Prop) (E : ErrCode → Nat → State → Prop) (A : State → Prop)
    (F : Refusal → Prop) : Prop :=
  match x with
  | .ok a s => Q a s
  | .raised e ea s => E e ea s
  | .aborted s => A s
  | .refused r => F r
  | .faulted _ => False

theorem Turn.Sat.mono {x : Turn} {Q Q' A A' : State → Prop} (h : x.Sat Q A) (hq : ∀ s, Q s → Q' s)
    (ha : ∀ s, A s → A' s) : x.Sat Q' A' := by
  cases x
  · exact hq _ h
  · exact ha _ h

theorem Eng.Sat.mono {α : Type} {x : Eng α} {Q Q' : α → State → Prop} {E : ErrCode → Nat → State → Prop}
    {A : State → Prop} {F : Refusal → Prop} (h : x.Sat Q E A F) (hq : ∀ a s, Q a s → Q' a s) : x.Sat Q' E A F := by
  cases x
  · exact hq _ _ h
  all_goals exact h

theorem Eng.Sat.bind {α β : Type} {x : Eng α} {k : α → State → Eng β} {Q : α → State → Prop} {Q' : β → State → Prop}
    {E : ErrCode → Nat → State → Prop} {A : State → Prop} {F : Refusal → Prop} (h : x.Sat Q E A F)
    (hk : ∀ a s, Q a s → (k a s).Sat Q' E A F) : (x.bind k).Sat Q' E A F := by
  cases x
  · exact hk _ _ h
  all_goals exact h

/-- The run of a command up to its completion. -/
def run (i : Instr) (s : State) : Eng Nat :=
  match i with
  | .loadSkey => runLoadSkey s
  | .decodeIndex => runDecodeIndex s
  | .encryptIndex => runEncryptIndex s
  | .decryptIndex => runDecryptIndex s
  | .encryptRaw => runEncryptRaw s
  | .decryptRaw => runDecryptRaw s
  | .fingerprint raw => runFingerprint raw s
  | .fingerprintCat k raw => runFingerprintCat k raw s
  | .fingerprintAll raw => runFingerprintAll raw s
  | .catalogueName k => runCatalogueName k s

/-- Every command is its run, concluded. -/
theorem exec_eq_conclude (i : Instr) (s : State) : exec i s = conclude (run i s) := by
  cases i <;> rfl

/-- The bytes of a command's input regions, together. -/
def inputSize (i : Instr) (s : State) : Nat := ((Safety.inputs i s).map Region.len).sum

/-- The most bytes a command can write. -/
def outSize (i : Instr) (s : State) : Nat := (Safety.outMax i s).getD 0

/-- An assertion `I p q` kept by the run of command `i` from state `s`: `p` bytes of the output extent have been
written, from its start on, and `q` turns of the engine have passed. `K` holds after the run's last access (and after LOAD_SKEY
has stored the key), `A` is what a reset leaves, `F` what a refusal may say. -/
structure Steady (i : Instr) (s : State) (I K : Nat → Nat → State → Prop) (A : State → Prop) (F : Refusal → Prop) :
    Prop where
  latch : ∀ p q t, I p q t → t.latch = s.latch
  cfg : ∀ p q t, I p q t → t.cfg = s.cfg
  turn : ∀ p q t, I p q t → q < inputSize i s + outSize i s → (engineTurn t).Sat (I p (q + 1)) A
  work : ∀ p q t w, I p q t → w.written = t.work.written → I p q { t with work := w }
  write : ∀ p q t v, I p q t → p < outSize i s → s.latch.dstAddr.toNat + outSize i s ≤ addressSpace →
    outSize i s ≤ s.latch.dstLen.toNat → s.cfg.busErrAt (s.latch.dstAddr.toNat + p) .write = false →
    I (p + 1) q (t.engineWrite (s.latch.dstAddr.toNat + p) v)
  extent : ∀ t, I 0 0 t → s.latch.dstAddr.toNat + outSize i s ≤ addressSpace →
    I 0 0 { t with extent := outSize i s }
  device : ∀ r ∈ Safety.inputs i s ++ [Safety.outExtent i s], s.cfg.reachesDevice r.addr r.len = true →
    F (.notPlainMemory r.addr r.len)
  store : ∀ p q t bs, i = .loadSkey → s.skeyValid = false → bs.length = s.latch.srcLen.toNat →
    s.latch.srcLen ≠ 0 → s.latch.srcLen.toNat ≤ s.cfg.skeyMax → I p q t → K p q (t.storeKey bs)
  other : ∀ p q t, i ≠ .loadSkey → I p q t → K p q t

/-- The errors a run can raise, and what it then keeps. -/
def RaisedIn (i : Instr) (s : State) (I : Nat → Nat → State → Prop) (e : ErrCode) (ea : Nat) (t : State) : Prop :=
  e ≠ .ok ∧ ea < 2 ^ 32 ∧
    ∃ p q, p ≤ outSize i s ∧ q ≤ inputSize i s + outSize i s ∧ I p q t

section
variable {i : Instr} {s : State} {I K : Nat → Nat → State → Prop} {A : State → Prop} {F : Refusal → Prop}

theorem RaisedIn.of {p q : Nat} {t : State} {e : ErrCode} {ea : Nat} (h : I p q t) (he : e ≠ .ok) (hea : ea < 2 ^ 32)
    (hp : p ≤ outSize i s) (hq : q ≤ inputSize i s + outSize i s) : RaisedIn i s I e ea t :=
  ⟨he, hea, p, q, hp, hq, h⟩

theorem raiseIf_sat {p q : Nat} {t : State} (c : Bool) (e : ErrCode) (h : I p q t) (he : e ≠ .ok)
    (hp : p ≤ outSize i s) (hq : q ≤ inputSize i s + outSize i s) :
    (raiseIf c e t).Sat (fun _ u => u = t ∧ c = false) (RaisedIn i s I) A F := by
  unfold raiseIf
  cases c
  · exact ⟨rfl, rfl⟩
  · exact .of h he (by omega) hp hq

theorem memRead_sat (hI : Steady i s I K A F) {p q a n : Nat} {t : State} (h : I p q t) (ha : a + n ≤ addressSpace)
    (hp : p ≤ outSize i s) (hq : q + n ≤ inputSize i s + outSize i s) :
    (memRead a n t).Sat (fun bs u => bs.length = n ∧ I p (q + n) u) (RaisedIn i s I) A F := by
  induction n generalizing a q t with
  | zero => exact ⟨rfl, h⟩
  | succ n ih =>
    refine Eng.Sat.bind (Q := fun _ u => I p (q + 1) u) ?_ fun b u hu => ?_
    · have ht := hI.turn p q t h (by omega)
      simp only [readByte, if_pos (show a < addressSpace by omega)]
      cases hx : engineTurn t with
      | ready u =>
        rw [hx] at ht
        simp only
        split
        · refine .of ht (by simp) ?_ hp (by omega)
          simp only [addressSpace] at ha
          omega
        · exact ht
      | aborted u => rw [hx] at ht; exact ht
    · refine Eng.Sat.bind (ih hu (by omega) (by omega)) fun bs v hv => ?_
      refine ⟨by simp [hv.1], ?_⟩
      rw [show q + (n + 1) = q + 1 + n by omega]
      exact hv.2

theorem memWrite_sat (hI : Steady i s I K A F) {p q a : Nat} {t : State} (bs : List Byte) (h : I p q t)
    (ha : a = s.latch.dstAddr.toNat + p) (hp : p + bs.length ≤ outSize i s)
    (hr : s.latch.dstAddr.toNat + outSize i s ≤ addressSpace) (hc : outSize i s ≤ s.latch.dstLen.toNat)
    (hq : q + bs.length ≤ inputSize i s + outSize i s) :
    (memWrite a bs t).Sat (fun _ u => I (p + bs.length) (q + bs.length) u) (RaisedIn i s I) A F := by
  induction bs generalizing a p q t with
  | nil => exact h
  | cons b bs ih =>
    simp only [List.length_cons] at hp hq
    refine Eng.Sat.bind (Q := fun _ u => I (p + 1) (q + 1) u) ?_ fun _ u hu => ?_
    · have ht := hI.turn p q t h (by omega)
      simp only [writeByte, if_pos (show a < addressSpace by omega)]
      cases hx : engineTurn t with
      | ready u =>
        rw [hx] at ht
        simp only
        split
        · refine .of ht (by simp) ?_ (by omega) (by omega)
          simp only [addressSpace] at hr
          omega
        · rename_i hb
          rw [hI.cfg _ _ _ ht, ha] at hb
          rw [ha]
          exact hI.write p (q + 1) u b ht (by omega) hr hc (by simpa using hb)
      | aborted u => rw [hx] at ht; exact ht
    · have := ih (a := a + 1) (p := p + 1) (q := q + 1) hu (by omega) (by omega) (by omega)
      simpa only [List.length_cons, Nat.add_assoc, Nat.add_comm 1] using this

theorem requirePlain_sat {rs : List Region} {t : State} (hc : t.cfg = s.cfg)
    (hd : ∀ r ∈ rs, s.cfg.reachesDevice r.addr r.len = true → F (.notPlainMemory r.addr r.len)) :
    (requirePlain rs t).Sat (fun _ u => u = t) (RaisedIn i s I) A F := by
  unfold requirePlain
  cases hx : firstDevice t.cfg rs with
  | none => exact rfl
  | some r =>
    simp only [firstDevice, hc] at hx
    exact hd r (List.mem_of_find?_eq_some hx) (by simpa using List.find?_some hx)

theorem checkRegions_sat (hI : Steady i s I K A F) {ins : List Region} {out : Option Nat} (h : I 0 0 s)
    (hins : ins = Safety.inputs i s) (hout : out = Safety.outMax i s) :
    (checkRegions ins out s).Sat
      (fun _ u => I 0 0 u ∧ (∀ r ∈ Safety.inputs i s, r.addr + r.len ≤ addressSpace) ∧
        (out ≠ none → s.latch.dstAddr.toNat + outSize i s ≤ addressSpace ∧ outSize i s ≤ s.latch.dstLen.toNat))
      (RaisedIn i s I) A F := by
  subst hins hout
  have hraise (e : ErrCode) (he : e ≠ .ok) : RaisedIn i s I e 0 s := .of h he (by omega) (by omega) (by omega)
  simp only [checkRegions]
  split
  · exact hraise _ (by simp)
  · rename_i hin
    have hin' : ∀ r ∈ Safety.inputs i s, r.addr + r.len ≤ addressSpace := by
      intro r hr
      simp only [List.any_eq_true, not_exists, not_and] at hin
      have := hin r hr
      rw [Bool.not_eq_true', Bool.not_eq_false, Region.inRange_iff] at this
      exact this
    cases ho : Safety.outMax i s with
    | none =>
      exact (requirePlain_sat rfl fun r hr => hI.device r (by simp [hr])).mono
        fun _ u hu => ⟨hu ▸ h, hin', by simp⟩
    | some n =>
      have hn : outSize i s = n := by simp [outSize, ho]
      simp only
      split
      · exact hraise _ (by simp)
      · rename_i hfit
        rw [outputFits_iff] at hfit
        have hr1 : s.latch.dstAddr.toNat + outSize i s ≤ addressSpace := by simp only [addressSpace]; omega
        split
        · exact hraise _ (by simp)
        · refine Eng.Sat.bind (requirePlain_sat rfl fun r hr => hI.device r ?_) fun _ u hu => ?_
          · simpa [Safety.outExtent, ho] using hr
          · subst hu
            refine ⟨hn ▸ hI.extent u h hr1, hin', fun _ => ⟨hr1, by omega⟩⟩

theorem prologue_sat (j : Instr) (h : I 0 0 s) :
    (prologue j s).Sat (fun _ u => u = s ∧ (j = .loadSkey → s.skeyValid = false)) (RaisedIn i s I) A F := by
  have hraise (e : ErrCode) (he : e ≠ .ok) : RaisedIn i s I e 0 s := .of h he (by omega) (by omega) (by omega)
  unfold prologue
  split
  · exact hraise _ (by simp)
  split
  · exact hraise _ (by simp)
  split
  · exact hraise _ (by simp)
  · rename_i h1 _
    refine ⟨rfl, fun hj => ?_⟩
    subst hj
    simpa [Instr.opcode] using h1

/-- What the commands with an index read, wherever the engine stands. -/
theorem readIndex_sat (hI : Steady i s I K A F) {q : Nat} {t : State} (h : I 0 q t)
    (ha : s.latch.auxAddr.toNat + s.latch.auxLen.toNat ≤ addressSpace)
    (hq : q + s.latch.auxLen.toNat ≤ inputSize i s + outSize i s) :
    (readIndex t).Sat
      (fun keyIv u => keyIv.1.length = 32 ∧ keyIv.2.length = 16 ∧ I 0 (q + s.latch.auxLen.toNat) u)
      (RaisedIn i s I) A F := by
  unfold readIndex
  rw [hI.latch _ _ _ h]
  refine Eng.Sat.bind (memRead_sat hI h ha (by omega) hq) fun blob u hu => ?_
  cases hd : decodeIndexBlob u.sk blob with
  | error e =>
    refine .of (hI.work _ _ _ _ hu.2 rfl) ?_ (by omega) (by omega) hq
    intro he
    subst he
    simp only [decodeIndexBlob] at hd
    repeat (first | split at hd | cases hd)
  | ok keyIv =>
    refine ⟨?_, ?_, hI.work _ _ _ _ hu.2 rfl⟩ <;>
    · simp only [decodeIndexBlob] at hd
      split at hd
      · cases hd
      split at hd
      · cases hd
      split at hd
      · cases hd
      split at hd
      · cases hd
      · cases hd
        simp only [List.length_take, List.length_drop] at *
        omega

theorem keyFromIndex_sat (hI : Steady i s I K A F) {q : Nat} {t : State} (h : I 0 q t)
    (ha : s.latch.auxAddr.toNat + s.latch.auxLen.toNat ≤ addressSpace)
    (hq : q + s.latch.auxLen.toNat ≤ inputSize i s + outSize i s) :
    (keyFromIndex t).Sat (fun _ u => I 0 (q + s.latch.auxLen.toNat) u) (RaisedIn i s I) A F :=
  Eng.Sat.bind (readIndex_sat hI h ha hq) fun _ _ hu => hI.work _ _ _ _ hu.2.2 rfl

theorem keyFromRecord_sat (hI : Steady i s I K A F) {q : Nat} {t : State} (h : I 0 q t)
    (ha : s.latch.auxAddr.toNat + 48 ≤ addressSpace) (hq : q + 48 ≤ inputSize i s + outSize i s) :
    (keyFromRecord t).Sat (fun _ u => I 0 (q + 48) u) (RaisedIn i s I) A F := by
  unfold keyFromRecord
  rw [hI.latch _ _ _ h]
  exact Eng.Sat.bind (memRead_sat hI h ha (by omega) hq) fun _ u hu => hI.work _ _ _ _ hu.2 rfl

theorem encLoop_sat (hI : Steady i s I K A F) {full p q : Nat} {t : State} (h : I p q t)
    (hs : s.latch.srcAddr.toNat + p + (16 * full + s.latch.srcLen.toNat % 16) ≤ addressSpace)
    (hp : p + (16 * full + 16) ≤ outSize i s)
    (hr : s.latch.dstAddr.toNat + outSize i s ≤ addressSpace) (hc : outSize i s ≤ s.latch.dstLen.toNat)
    (hq : q + (16 * full + s.latch.srcLen.toNat % 16) + (16 * full + 16) ≤ inputSize i s + outSize i s) :
    (encLoop full p t).Sat
      (fun _ u => I (p + (16 * full + 16)) (q + (16 * full + s.latch.srcLen.toNat % 16) + (16 * full + 16)) u)
      (RaisedIn i s I) A F := by
  induction full generalizing p q t with
  | zero =>
    simp only [encLoop, hI.latch _ _ _ h]
    refine Eng.Sat.bind (memRead_sat hI h (by omega) (by omega) (by omega)) fun b u hu => ?_
    simp only [State.encryptBlock_latch, hI.latch _ _ _ hu.2]
    have := memWrite_sat hI (t := u.encryptBlock (b ++ padBytes s.latch.srcLen.toNat))
      (Block.toBytes (u.encryptBlock (b ++ padBytes s.latch.srcLen.toNat)).work.chain)
      (hI.work _ _ _ _ hu.2 rfl) rfl (by simp; omega) hr hc (by simp; omega)
    refine this.mono fun _ v hv => ?_
    simpa using hv
  | succ full ih =>
    simp only [encLoop, hI.latch _ _ _ h]
    refine Eng.Sat.bind (memRead_sat hI h (by omega) (by omega) (by omega)) fun b u hu => ?_
    simp only [State.encryptBlock_latch, hI.latch _ _ _ hu.2]
    have := memWrite_sat hI (t := u.encryptBlock b) (Block.toBytes (u.encryptBlock b).work.chain)
      (hI.work _ _ _ _ hu.2 rfl) rfl (by simp; omega) hr hc (by simp; omega)
    refine Eng.Sat.bind this fun _ v hv => ?_
    refine (ih (p := p + 16) (q := q + 16 + 16) (by simpa using hv) (by omega) (by omega) (by omega)).mono
      fun _ w hw => ?_
    convert hw using 1 <;> omega

theorem decLoop_sat (hI : Steady i s I K A F) {more p q : Nat} {t : State} (h : I p q t)
    (hs : s.latch.srcAddr.toNat + p + (16 * more + 16) ≤ addressSpace)
    (hp : p + (16 * more + 15) ≤ outSize i s)
    (hr : s.latch.dstAddr.toNat + outSize i s ≤ addressSpace) (hc : outSize i s ≤ s.latch.dstLen.toNat)
    (hq : q + (16 * more + 16) + (16 * more + 15) ≤ inputSize i s + outSize i s) :
    (decLoop more p t).Sat
      (fun n u => 1 ≤ n ∧ n ≤ 16 ∧ I (p + (16 * more + 16 - n)) (q + (16 * more + 16) + (16 * more + 16 - n)) u)
      (RaisedIn i s I) A F := by
  induction more generalizing p q t with
  | zero =>
    simp only [decLoop, hI.latch _ _ _ h]
    refine Eng.Sat.bind (memRead_sat hI h (by omega) (by omega) (by omega)) fun b u hu => ?_
    cases hn : padLength (u.decryptBlock b).work.blk.toBytes with
    | none => exact .of (hI.work _ _ _ _ hu.2 rfl) (by simp) (by omega) (by omega) (by omega)
    | some n =>
      simp only
      have hb := padLength_bounds hn
      simp only [State.decryptBlock_latch, hI.latch _ _ _ hu.2]
      have := memWrite_sat hI (t := u.decryptBlock b) ((Block.toBytes (u.decryptBlock b).work.blk).take (16 - n))
        (hI.work _ _ _ _ hu.2 rfl) rfl (by simp; omega) hr hc (by simp; omega)
      refine Eng.Sat.bind this fun _ v hv => ⟨hb.1, hb.2.1, ?_⟩
      simpa [show min (16 - n) 16 = 16 - n by omega] using hv
  | succ more ih =>
    simp only [decLoop, hI.latch _ _ _ h]
    refine Eng.Sat.bind (memRead_sat hI h (by omega) (by omega) (by omega)) fun b u hu => ?_
    simp only [State.decryptBlock_latch, hI.latch _ _ _ hu.2]
    have := memWrite_sat hI (t := u.decryptBlock b) (Block.toBytes (u.decryptBlock b).work.blk)
      (hI.work _ _ _ _ hu.2 rfl) rfl (by simp; omega) hr hc (by simp; omega)
    refine Eng.Sat.bind this fun _ v hv => ?_
    refine (ih (p := p + 16) (q := q + 16 + 16) (by simpa using hv) (by omega) (by omega) (by omega)).mono
      fun n w hw => ⟨hw.1, hw.2.1, ?_⟩
    have h1 := hw.1
    have h2 := hw.2.1
    convert hw.2.2 using 1 <;> omega

theorem length_hashBytes (h : HashState) : (hashBytes h).length = 32 := rfl

theorem length_fpOut {d : List Byte} (h : d.length = 32) (raw : Bool) :
    (fpOut d raw).length = fingerprintWidth raw := by
  cases raw
  · have (l : List Byte) : (l.flatMap fun b => [hexu (b.toNat / 16), hexu (b.toNat % 16)]).length = 2 * l.length := by
      induction l with
      | nil => rfl
      | cons b l ih => simp [List.flatMap_cons, ih]; omega
    simp [fpOut, fingerprintWidth, this, h]
  · simp [fpOut, fingerprintWidth, h]

theorem writeFingerprint_sat (hI : Steady i s I K A F) {p q a : Nat} {t : State} (name : List Byte) (raw : Bool)
    (h : I p q t) (ha : a = s.latch.dstAddr.toNat + p) (hp : p + fingerprintWidth raw ≤ outSize i s)
    (hr : s.latch.dstAddr.toNat + outSize i s ≤ addressSpace) (hc : outSize i s ≤ s.latch.dstLen.toNat)
    (hq : q + fingerprintWidth raw ≤ inputSize i s + outSize i s) :
    (writeFingerprint name raw a t).Sat (fun _ u => I (p + fingerprintWidth raw) (q + fingerprintWidth raw) u)
      (RaisedIn i s I) A F := by
  have hl := length_fpOut (length_hashBytes (t.hashed name).work.h) raw
  have := memWrite_sat hI (t := t.hashed name) (fpOut (hashBytes (t.hashed name).work.h) raw) (hI.work _ _ _ _ h rfl) ha
    (by rw [hl]; exact hp) hr hc (by rw [hl]; exact hq)
  rw [hl] at this
  exact this

theorem writeRecords_sat (hI : Steady i s I K A F) {n k q : Nat} {t : State} (raw : Bool)
    (h : I (fingerprintWidth raw * k) q t) (hp : fingerprintWidth raw * (k + n) ≤ outSize i s)
    (hr : s.latch.dstAddr.toNat + outSize i s ≤ addressSpace) (hc : outSize i s ≤ s.latch.dstLen.toNat)
    (hq : q + fingerprintWidth raw * n ≤ inputSize i s + outSize i s) :
    (writeRecords raw n k t).Sat (fun _ u => I (fingerprintWidth raw * (k + n)) (q + fingerprintWidth raw * n) u)
      (RaisedIn i s I) A F := by
  induction n generalizing k q t with
  | zero => exact h
  | succ n ih =>
    simp only [writeRecords, hI.latch _ _ _ h]
    have e1 : fingerprintWidth raw * (k + (n + 1)) = fingerprintWidth raw * k + fingerprintWidth raw +
        fingerprintWidth raw * n := by rw [Nat.mul_add, Nat.mul_add]; omega
    have e2 : fingerprintWidth raw * (n + 1) = fingerprintWidth raw * n + fingerprintWidth raw := by
      rw [Nat.mul_add]; omega
    have e3 : fingerprintWidth raw * (k + 1 + n) = fingerprintWidth raw * (k + (n + 1)) := by
      rw [show k + 1 + n = k + (n + 1) by omega]
    refine Eng.Sat.bind (writeFingerprint_sat hI _ raw h rfl (by omega) hr hc (by omega)) fun _ u hu => ?_
    refine (ih (k := k + 1) (q := q + fingerprintWidth raw) (by rw [Nat.mul_add]; simpa using hu)
      (by rw [e3]; exact hp) (by omega)).mono fun _ v hv => ?_
    rw [e3] at hv
    convert hv using 1
    omega

/-- What the run of any command keeps: whatever its accesses and the environment keep holds at its end, with `p` the
output length after a success, in at most `R160`'s number of engine turns. -/
theorem run_sat (hI : Steady i s I K A F) (h : I 0 0 s) :
    (run i s).Sat (fun n t => n ≤ outSize i s ∧ n < 2 ^ 32 ∧ ∃ q, q ≤ inputSize i s + outSize i s ∧ K n q t)
      (RaisedIn i s I) A F := by
  cases i with
  | loadSkey =>
    refine Eng.Sat.bind (prologue_sat .loadSkey h) fun _ u hu => ?_
    obtain ⟨rfl, hv⟩ := hu
    refine Eng.Sat.bind (raiseIf_sat _ _ h (by simp) (by omega) (by omega)) fun _ u' hu => ?_
    obtain ⟨rfl, hz⟩ := hu
    refine Eng.Sat.bind (raiseIf_sat _ _ h (by simp) (by omega) (by omega)) fun _ u'' hu => ?_
    obtain ⟨rfl, hm⟩ := hu
    refine Eng.Sat.bind (checkRegions_sat hI h rfl rfl) fun _ t ht => ?_
    have hin := ht.2.1
    simp only [Safety.inputs, List.mem_singleton, forall_eq] at hin
    rw [hI.latch _ _ _ ht.1]
    refine Eng.Sat.bind (memRead_sat hI ht.1 hin (by omega)
      (by simp [inputSize, outSize, Safety.inputs, Safety.outMax])) fun bs v hv' => ?_
    exact ⟨by omega, by omega, _, by simp [inputSize, outSize, Safety.inputs, Safety.outMax],
      hI.store _ _ _ bs rfl (hv rfl) hv'.1 (by simpa using hz) (by simpa using hm) hv'.2⟩
  | decodeIndex =>
    refine Eng.Sat.bind (prologue_sat .decodeIndex h) fun _ u hu => ?_
    obtain ⟨rfl, -⟩ := hu
    refine Eng.Sat.bind (checkRegions_sat hI h rfl rfl) fun _ t ht => ?_
    have hin := ht.2.1
    simp only [Safety.inputs, List.mem_singleton, forall_eq] at hin
    have hout := ht.2.2 (by simp)
    have hsz : outSize .decodeIndex u = 48 := rfl
    have hisz : inputSize .decodeIndex u = u.latch.auxLen.toNat := by simp [inputSize, Safety.inputs]
    refine Eng.Sat.bind (readIndex_sat hI ht.1 hin (by omega)) fun keyIv v hv => ?_
    have hl : (keyIv.1 ++ keyIv.2).length = 48 := by simp [hv.1, hv.2.1]
    refine Eng.Sat.bind (memWrite_sat hI _ hv.2.2 (by rw [hI.latch _ _ _ hv.2.2]; rfl) (by omega) hout.1 hout.2
      (by omega)) fun _ w hw => ?_
    rw [hl] at hw
    exact ⟨by simp [recordLength, hsz], by simp [recordLength], _, by omega, hI.other _ _ _ (by simp) hw⟩
  | encryptIndex =>
    refine Eng.Sat.bind (prologue_sat .encryptIndex h) fun _ u hu => ?_
    obtain ⟨rfl, -⟩ := hu
    refine Eng.Sat.bind (checkRegions_sat hI h rfl rfl) fun _ t ht => ?_
    have hin := ht.2.1
    simp only [Safety.inputs, List.mem_cons, List.not_mem_nil, or_false, forall_eq_or_imp, forall_eq] at hin
    have hout := ht.2.2 (by simp)
    have hsz : outSize .encryptIndex u = (u.latch.srcLen.toNat / 16 + 1) * 16 := rfl
    have hisz : inputSize .encryptIndex u = u.latch.auxLen.toNat + u.latch.srcLen.toNat := by
      simp [inputSize, Safety.inputs]
    refine Eng.Sat.bind (keyFromIndex_sat hI ht.1 hin.1 (by omega)) fun _ v hv => ?_
    simp only [encStream, hI.latch _ _ _ hv]
    refine Eng.Sat.bind (encLoop_sat hI (hI.work _ _ _ _ hv rfl) (by omega) (by omega) hout.1 hout.2 (by omega))
      fun _ w hw => ?_
    have hlt := u.latch.dstLen.isLt
    refine ⟨by simp only [encryptExtent, hI.latch _ _ _ hw]; omega,
      by simp only [encryptExtent, hI.latch _ _ _ hw]; omega,
      0 + u.latch.auxLen.toNat + (16 * (u.latch.srcLen.toNat / 16) + u.latch.srcLen.toNat % 16) +
        (16 * (u.latch.srcLen.toNat / 16) + 16), by omega, ?_⟩
    · refine hI.other _ _ _ (by simp) ?_
      convert hw using 1
      simp only [encryptExtent, hI.latch _ _ _ hw]
      omega
  | decryptIndex =>
    refine Eng.Sat.bind (prologue_sat .decryptIndex h) fun _ u hu => ?_
    obtain ⟨rfl, -⟩ := hu
    refine Eng.Sat.bind (raiseIf_sat _ _ h (by simp) (by omega) (by omega)) fun _ u' hu => ?_
    obtain ⟨rfl, hz⟩ := hu
    simp only [badCiphertextLength, Bool.or_eq_false_iff, beq_eq_false_iff_ne, bne_eq_false_iff_eq] at hz
    have hz1 : u'.latch.srcLen.toNat ≠ 0 := fun h0 => hz.1 (BitVec.eq_of_toNat_eq (by simpa using h0))
    refine Eng.Sat.bind (checkRegions_sat hI h rfl rfl) fun _ t ht => ?_
    have hin := ht.2.1
    simp only [Safety.inputs, List.mem_cons, List.not_mem_nil, or_false, forall_eq_or_imp, forall_eq] at hin
    have hout := ht.2.2 (by simp)
    have hsz : outSize .decryptIndex u' = u'.latch.srcLen.toNat - 1 := rfl
    have hisz : inputSize .decryptIndex u' = u'.latch.auxLen.toNat + u'.latch.srcLen.toNat := by
      simp [inputSize, Safety.inputs]
    refine Eng.Sat.bind (keyFromIndex_sat hI ht.1 hin.1 (by omega)) fun _ v hv => ?_
    simp only [decStream, hI.latch _ _ _ hv]
    refine Eng.Sat.bind (decLoop_sat hI (hI.work _ _ _ _ hv rfl) (by omega) (by omega) hout.1 hout.2 (by omega))
      fun n w hw => ?_
    have hlt := u'.latch.srcLen.isLt
    obtain ⟨h1, h2, hw⟩ := hw
    refine ⟨by rw [hI.latch _ _ _ hw]; omega, by rw [hI.latch _ _ _ hw]; omega,
      0 + u'.latch.auxLen.toNat + (16 * (u'.latch.srcLen.toNat / 16 - 1) + 16) +
        (16 * (u'.latch.srcLen.toNat / 16 - 1) + 16 - n), by omega, ?_⟩
    · refine hI.other _ _ _ (by simp) ?_
      convert hw using 1
      rw [hI.latch _ _ _ hw]
      omega
  | encryptRaw =>
    simp only [run, runEncryptRaw]
    refine Eng.Sat.bind (prologue_sat .encryptRaw h) fun _ u hu => ?_
    obtain ⟨rfl, -⟩ := hu
    refine Eng.Sat.bind (raiseIf_sat _ _ h (by simp) (by omega) (by omega)) fun _ u' hu => ?_
    obtain ⟨rfl, -⟩ := hu
    refine Eng.Sat.bind (checkRegions_sat hI h rfl rfl) fun _ t ht => ?_
    have hin := ht.2.1
    simp only [Safety.inputs, List.mem_cons, List.not_mem_nil, or_false, forall_eq_or_imp, forall_eq] at hin
    have hout := ht.2.2 (by simp)
    have hsz : outSize .encryptRaw u' = (u'.latch.srcLen.toNat / 16 + 1) * 16 := rfl
    have hisz : inputSize .encryptRaw u' = 48 + u'.latch.srcLen.toNat := by
      simp [inputSize, Safety.inputs]
    refine Eng.Sat.bind (keyFromRecord_sat hI ht.1 hin.1 (by omega)) fun _ v hv => ?_
    simp only [encStream, hI.latch _ _ _ hv]
    refine Eng.Sat.bind (encLoop_sat hI (hI.work _ _ _ _ hv rfl) (by omega) (by omega) hout.1 hout.2 (by omega))
      fun _ w hw => ?_
    have hlt := u'.latch.dstLen.isLt
    refine ⟨by simp only [encryptExtent, hI.latch _ _ _ hw]; omega,
      by simp only [encryptExtent, hI.latch _ _ _ hw]; omega,
      0 + 48 + (16 * (u'.latch.srcLen.toNat / 16) + u'.latch.srcLen.toNat % 16) +
        (16 * (u'.latch.srcLen.toNat / 16) + 16), by omega, ?_⟩
    · refine hI.other _ _ _ (by simp) ?_
      convert hw using 1
      simp only [encryptExtent, hI.latch _ _ _ hw]
      omega
  | decryptRaw =>
    simp only [run, runDecryptRaw]
    refine Eng.Sat.bind (prologue_sat .decryptRaw h) fun _ u hu => ?_
    obtain ⟨rfl, -⟩ := hu
    refine Eng.Sat.bind (raiseIf_sat _ _ h (by simp) (by omega) (by omega)) fun _ u' hu => ?_
    obtain ⟨rfl, hz⟩ := hu
    refine Eng.Sat.bind (raiseIf_sat _ _ h (by simp) (by omega) (by omega)) fun _ u'' hu => ?_
    obtain ⟨rfl, -⟩ := hu
    simp only [badCiphertextLength, Bool.or_eq_false_iff, beq_eq_false_iff_ne, bne_eq_false_iff_eq] at hz
    have hz1 : u''.latch.srcLen.toNat ≠ 0 := fun h0 => hz.1 (BitVec.eq_of_toNat_eq (by simpa using h0))
    refine Eng.Sat.bind (checkRegions_sat hI h rfl rfl) fun _ t ht => ?_
    have hin := ht.2.1
    simp only [Safety.inputs, List.mem_cons, List.not_mem_nil, or_false, forall_eq_or_imp, forall_eq] at hin
    have hout := ht.2.2 (by simp)
    have hsz : outSize .decryptRaw u'' = u''.latch.srcLen.toNat - 1 := rfl
    have hisz : inputSize .decryptRaw u'' = 48 + u''.latch.srcLen.toNat := by
      simp [inputSize, Safety.inputs]
    refine Eng.Sat.bind (keyFromRecord_sat hI ht.1 hin.1 (by omega)) fun _ v hv => ?_
    simp only [decStream, hI.latch _ _ _ hv]
    refine Eng.Sat.bind (decLoop_sat hI (hI.work _ _ _ _ hv rfl) (by omega) (by omega) hout.1 hout.2 (by omega))
      fun n w hw => ?_
    have hlt := u''.latch.srcLen.isLt
    obtain ⟨h1, h2, hw⟩ := hw
    refine ⟨by rw [hI.latch _ _ _ hw]; omega, by rw [hI.latch _ _ _ hw]; omega,
      0 + 48 + (16 * (u''.latch.srcLen.toNat / 16 - 1) + 16) +
        (16 * (u''.latch.srcLen.toNat / 16 - 1) + 16 - n), by omega, ?_⟩
    · refine hI.other _ _ _ (by simp) ?_
      convert hw using 1
      rw [hI.latch _ _ _ hw]
      omega
  | fingerprint raw =>
    refine Eng.Sat.bind (prologue_sat (.fingerprint raw) h) fun _ u hu => ?_
    obtain ⟨rfl, -⟩ := hu
    refine Eng.Sat.bind (checkRegions_sat hI h rfl rfl) fun _ t ht => ?_
    have hin := ht.2.1
    simp only [Safety.inputs, List.mem_singleton, forall_eq] at hin
    have hout := ht.2.2 (by simp)
    have hsz : outSize (.fingerprint raw) u = fingerprintWidth raw := rfl
    have hisz : inputSize (.fingerprint raw) u = u.latch.srcLen.toNat := by simp [inputSize, Safety.inputs]
    rw [hI.latch _ _ _ ht.1]
    refine Eng.Sat.bind (memRead_sat hI ht.1 hin (by omega) (by omega)) fun name v hv => ?_
    refine Eng.Sat.bind (raiseIf_sat _ _ hv.2 (by simp) (by omega) (by omega)) fun _ v' hv' => ?_
    obtain ⟨rfl, -⟩ := hv'
    refine Eng.Sat.bind (writeFingerprint_sat hI name raw hv.2 (by rw [hI.latch _ _ _ hv.2]; rfl) (by omega) hout.1
      hout.2 (by omega)) fun _ w hw => ?_
    have hfw : fingerprintWidth raw ≤ 64 := by cases raw <;> simp [fingerprintWidth]
    refine ⟨by omega, by omega, _, ?_, hI.other _ _ _ (by simp) (by simpa using hw)⟩
    omega
  | fingerprintCat k raw =>
    refine Eng.Sat.bind (prologue_sat (.fingerprintCat k raw) h) fun _ u hu => ?_
    obtain ⟨rfl, -⟩ := hu
    refine Eng.Sat.bind (checkRegions_sat hI h rfl rfl) fun _ t ht => ?_
    have hout := ht.2.2 (by simp)
    have hsz : outSize (.fingerprintCat k raw) u = fingerprintWidth raw := rfl
    refine Eng.Sat.bind (writeFingerprint_sat hI _ raw ht.1 (by rw [hI.latch _ _ _ ht.1]; rfl) (by omega) hout.1
      hout.2 (by omega)) fun _ w hw => ?_
    have hfw : fingerprintWidth raw ≤ 64 := by cases raw <;> simp [fingerprintWidth]
    refine ⟨by omega, by omega, _, ?_, hI.other _ _ _ (by simp) (by simpa using hw)⟩
    omega
  | fingerprintAll raw =>
    refine Eng.Sat.bind (prologue_sat (.fingerprintAll raw) h) fun _ u hu => ?_
    obtain ⟨rfl, -⟩ := hu
    refine Eng.Sat.bind (checkRegions_sat hI h rfl rfl) fun _ t ht => ?_
    have hout := ht.2.2 (by simp)
    have hsz : outSize (.fingerprintAll raw) u = 12 * fingerprintWidth raw := rfl
    have hfw : fingerprintWidth raw ≤ 64 := by cases raw <;> simp [fingerprintWidth]
    refine Eng.Sat.bind (writeRecords_sat hI (n := catCount) (k := 0) raw ht.1 (by simp only [catCount]; omega) hout.1
      hout.2 (by simp only [catCount]; omega)) fun _ w hw => ?_
    have he : fingerprintWidth raw * (0 + catCount) = catCount * fingerprintWidth raw := by
      rw [Nat.zero_add, Nat.mul_comm]
    rw [he] at hw
    simp only [catCount] at hw ⊢
    exact ⟨by omega, by omega, _, by omega, hI.other _ _ _ (by simp) hw⟩
  | catalogueName k =>
    simp only [run, runCatalogueName]
    refine Eng.Sat.bind (prologue_sat (.catalogueName k) h) fun _ u hu => ?_
    obtain ⟨rfl, -⟩ := hu
    refine Eng.Sat.bind (checkRegions_sat hI h rfl rfl) fun _ t ht => ?_
    have hout := ht.2.2 (by simp)
    have hsz : outSize (.catalogueName k) u = (u.cfg.name k).length := rfl
    have hlt := u.latch.dstLen.isLt
    rw [hI.cfg _ _ _ ht.1]
    refine Eng.Sat.bind (memWrite_sat hI _ ht.1 (by rw [hI.latch _ _ _ ht.1]; rfl) (by omega) hout.1
      hout.2 (by omega)) fun _ w hw => ?_
    rw [hI.cfg _ _ _ hw]
    refine ⟨by omega, by omega, _, ?_, hI.other _ _ _ (by simp) (by simpa using hw)⟩
    omega

end

/-- The scrub keeps what its turns and its writes keep. -/
theorem scrub_sat {J : Nat → State → Prop} {A : State → Prop} {ws : List Word} {k : Nat} {t : State}
    (h : J k t)
    (hs : ∀ j (hj : j < ws.length) u, J (k + j) u →
      (engineTurn u).Sat (fun v => J (k + j + 1) { v with mem := v.mem.write ws[j].toNat 0 }) A) :
    (scrub ws t).Sat (J (k + ws.length)) A := by
  induction ws generalizing k t with
  | nil => exact h
  | cons a ws ih =>
    have h0 := hs 0 (by simp) t h
    simp only [scrub]
    cases hx : engineTurn t with
    | ready u =>
      rw [hx] at h0
      have := ih (k := k + 1) h0 fun j hj u hu => by
        have := hs (j + 1) (by simp; omega) u (by rw [show k + (j + 1) = k + 1 + j by omega]; exact hu)
        simpa [show k + 1 + j = k + (j + 1) by omega] using this
      simpa [show k + 1 + ws.length = k + (ws.length + 1) by omega] using this
    | aborted u => rw [hx] at h0; exact h0

/-- What holds of an outcome that is no fault. -/
def OutcomeSat (x : Host.Outcome State Fault Refusal) (Q : State → Prop) (F : Refusal → Prop) : Prop :=
  match x with
  | .next s => Q s
  | .refused r => F r
  | .fault _ => False

/-- The completion step keeps what the environment's steps before it keep. -/
theorem completion_sat {J Q A : State → Prop} {F : Refusal → Prop} {t : State} (e : ErrCode) (n ea : Nat)
    (h : (engineTurn t).Sat J A) (hq : ∀ u, J u → Q (u.finish e n ea)) (ha : ∀ u, A u → Q u) :
    OutcomeSat (completion e n ea t) Q F := by
  unfold completion
  cases hx : engineTurn t with
  | ready u => rw [hx] at h; exact hq u h
  | aborted u => rw [hx] at h; exact ha u h

/-- The end of a command from what its run keeps. -/
theorem conclude_sat {x : Eng Nat} {Q0 : Nat → State → Prop} {E : ErrCode → Nat → State → Prop} {A Q : State → Prop}
    {F : Refusal → Prop} (h : x.Sat Q0 E A F) (hok : ∀ n t, Q0 n t → OutcomeSat (completion .ok n 0 t) Q F)
    (herr : ∀ e ea t, E e ea t → OutcomeSat (takeError e ea t) Q F) (ha : ∀ t, A t → Q t) :
    OutcomeSat (conclude x) Q F := by
  cases x with
  | ok n t => exact hok n t h
  | raised e ea t => exact herr e ea t h
  | aborted t => exact ha t h
  | refused r => exact h
  | faulted f => exact h

/-- Taking an error from what its scrub keeps. -/
theorem takeError_sat {e : ErrCode} {ea : Nat} {t : State} {J A Q : State → Prop} {F : Refusal → Prop}
    (h : (scrub t.work.written t).Sat J A)
    (hc : ∀ u, J u → OutcomeSat (completion e 0 (if e = .bus then ea else 0) u) Q F) (ha : ∀ u, A u → Q u) :
    OutcomeSat (takeError e ea t) Q F := by
  unfold takeError
  cases hx : scrub t.work.written t with
  | ready u => rw [hx] at h; exact hc u h
  | aborted u => rw [hx] at h; exact ha u h

end Sys2Proof.Machine
end

