-- ==== Sys2Proof/Laws/Host.lean ====
section
/-! SUPPORT. The environment's steps: what a legal MMIO access does, and what any host step leaves of a running
command. -/

namespace Sys2Proof.Machine

/-! ### MMIO accesses inside the window -/

theorem mmioClaimed_window (c : Config) {off bits : Nat} (h : off < 256) (hb : 1 ≤ bits) :
    mmioClaimed c (c.base + off) bits = true := by
  simp only [mmioClaimed, Bool.and_eq_true, decide_eq_true_eq]
  omega

theorem mmioLegal_window (c : Config) (off bits : Nat) :
    mmioLegal c (c.base + off) bits = (bits == 32 && off % 4 == 0) := by
  simp [mmioLegal]

/-- A legal read answers with the register's value. -/
theorem hostEvent_mmioRead (s : State) {off : Nat} (h : off < 256) (h4 : off % 4 = 0) :
    hostEvent (.mmioRead (s.cfg.base + off) 32) s = .ready (s.reply (.word (s.readOffset off))) := by
  simp [hostEvent, State.hostMmioRead, mmioClaimed_window s.cfg h, mmioLegal_window, h4]

/-- A legal write writes the register. -/
theorem hostEvent_mmioWrite (s : State) {off : Nat} (v : Word) (h : off < 256) (h4 : off % 4 = 0) :
    hostEvent (.mmioWrite (s.cfg.base + off) 32 v) s = .ready (s.writeOffset off v) := by
  simp [hostEvent, State.hostMmioWrite, mmioClaimed_window s.cfg h, mmioLegal_window, h4]

/-- An illegal access inside the window gets an error response. -/
theorem hostEvent_mmio_illegal (s : State) {off bits : Nat} (v : Word) (h : off < 256) (hb : 1 ≤ bits)
    (hi : bits ≠ 32 ∨ off % 4 ≠ 0) :
    hostEvent (.mmioRead (s.cfg.base + off) bits) s = .ready (s.reply .busError) ∧
      hostEvent (.mmioWrite (s.cfg.base + off) bits v) s = .ready (s.reply .busError) := by
  have : (bits == 32 && off % 4 == 0) = false := by
    simp only [Bool.and_eq_false_iff, beq_eq_false_iff_ne]; exact hi
  simp [hostEvent, State.hostMmioRead, State.hostMmioWrite, mmioClaimed_window s.cfg h hb, mmioLegal_window, this]

/-! ### What a host step leaves -/

theorem busy_setBit_ovr (s : State) (b : Bool) :
    State.busy { s with status := setBit s.status 3 b } = s.busy := by
  exact getLsbD_setBit s.status 3 0 b (by omega)

theorem skeyValid_setBit_ovr (s : State) (b : Bool) :
    State.skeyValid { s with status := setBit s.status 3 b } = s.skeyValid := by
  exact getLsbD_setBit s.status 3 2 b (by omega)

theorem skeyValid_accept (s : State) (v : Word) : (s.accept v).skeyValid = s.skeyValid := by
  show (statusAccepted s.status).getLsbD 2 = s.status.getLsbD 2
  simp only [getLsbD_statusAccepted]
  rfl

/-- All that host step `e`, short of a reset, can make of `s`: one change of the registers the host writes, an answer,
or one byte of plain memory (10_state.md R19, R23; 20_memory.md R40, R53). -/
inductive HostChange (e : Event) (s : State) : State → Prop where
  | same : HostChange e s s
  | accept (v : Word) (idle : s.busy = false) : HostChange e s (s.accept v)
  | ovr (b : Bool) : HostChange e s { s with status := setBit s.status 3 b }
  | irqEn (v : Word) : HostChange e s { s with irqEn := v &&& 1 }
  | irqStat : HostChange e s { s with irqStat := setBit s.irqStat 0 false }
  | operands (l : Latch) : HostChange e s
      { s with
        srcAddr := l.srcAddr
        srcLen := l.srcLen
        auxAddr := l.auxAddr
        auxLen := l.auxLen
        dstAddr := l.dstAddr
        dstLen := l.dstLen }
  | reply (r : Reply) : HostChange e s (s.reply r)
  | store (a : Word) (v : Byte) (is : e = .memWrite a v) (plain : s.cfg.deviceAt a.toNat = false) :
      HostChange e s { s with mem := s.mem.write a.toNat v }

/-- The operand registers as they stand. -/
def State.operandRegs (s : State) : Latch :=
  ⟨s.cmd, s.srcAddr, s.srcLen, s.auxAddr, s.auxLen, s.dstAddr, s.dstLen⟩

theorem writeOffset_change (e : Event) (s : State) (off : Nat) (v : Word) : HostChange e s (s.writeOffset off v) := by
  unfold State.writeOffset
  split
  · unfold State.writeCmd
    split
    · exact .ovr true
    · rename_i hb
      exact .accept v (by simpa using hb)
  · split
    · exact .ovr false
    · exact .same
  · exact .irqEn v
  · split
    · exact .irqStat
    · exact .same
  · exact .operands { s.operandRegs with srcAddr := v }
  · exact .operands { s.operandRegs with srcLen := v }
  · exact .operands { s.operandRegs with auxAddr := v }
  · exact .operands { s.operandRegs with auxLen := v }
  · exact .operands { s.operandRegs with dstAddr := v }
  · exact .operands { s.operandRegs with dstLen := v }
  · exact .same

/-- A host step makes one of those changes, or is a reset. -/
theorem hostEvent_change (e : Event) (s : State) :
    (hostEvent e s).Sat (HostChange e s) (fun t => ∃ rs, e = .reset rs ∧ t = s.hardReset rs) := by
  cases e with
  | engine => exact .same
  | mmioRead addr bits =>
    simp only [hostEvent, State.hostMmioRead, Turn.Sat]
    split
    · split <;> exact .reply _
    · exact .same
  | mmioWrite addr bits v =>
    simp only [hostEvent, State.hostMmioWrite, Turn.Sat]
    split
    · split
      · exact writeOffset_change _ _ _ _
      · exact .reply _
    · exact .same
  | memRead a => exact .reply _
  | memWrite a v =>
    simp only [hostEvent, State.hostStore, Turn.Sat]
    split
    · exact .same
    · rename_i hd
      exact .store a v rfl (by simpa using hd)
  | reset rs => exact ⟨rs, rfl, rfl⟩

section
variable {e : Event} {s t : State}

theorem HostChange.cfg (h : HostChange e s t) : t.cfg = s.cfg := by cases h <;> rfl

theorem HostChange.env (h : HostChange e s t) : t.env = s.env := by cases h <;> rfl

theorem HostChange.key (h : HostChange e s t) : Safety.KeyKept s t := by
  refine ⟨?_, ?_, ?_⟩
  · cases h <;> rfl
  · cases h <;> rfl
  · cases h with
    | accept v _ => exact skeyValid_accept s v
    | ovr b => exact skeyValid_setBit_ovr s b
    | _ => rfl

theorem HostChange.busy (h : HostChange e s t) (hb : s.busy = true) : t.busy = true := by
  cases h with
  | accept v hi => rw [hb] at hi; cases hi
  | ovr b => exact (busy_setBit_ovr s b).trans hb
  | _ => exact hb

theorem HostChange.latch (h : HostChange e s t) (hb : s.busy = true) : t.latch = s.latch := by
  cases h with
  | accept v hi => rw [hb] at hi; cases hi
  | _ => rfl

theorem HostChange.work (h : HostChange e s t) (hb : s.busy = true) : t.work = s.work := by
  cases h with
  | accept v hi => rw [hb] at hi; cases hi
  | _ => rfl

/-- The model's own records of a running command. -/
theorem HostChange.records (h : HostChange e s t) (hb : s.busy = true) :
    t.journal = s.journal ∧ t.extent = s.extent := by
  cases h with
  | accept v hi => rw [hb] at hi; cases hi
  | _ => exact ⟨rfl, rfl⟩

theorem HostChange.memWf (h : HostChange e s t) (hw : s.mem.wf = true) : t.mem.wf = true := by
  cases h with
  | store a v _ _ => exact Memory.wf_write v hw a.isLt
  | _ => exact hw

/-- The parts of the state that make a host step invisible to a command are the same before it and after. -/
theorem HostChange.mem (h : HostChange e s t) (hw : s.mem.wf = true) (b : Nat)
    (hb : ∀ a v, e = .memWrite a v → b ≠ a.toNat) : t.mem.read b = s.mem.read b := by
  cases h with
  | store a v he _ => exact (Memory.read_write hw a.toNat b v).trans (if_neg (hb a v he))
  | _ => rfl

end

/-- Any host step keeps the parameters. -/
theorem hostEvent_cfg (e : Event) (s : State) :
    (hostEvent e s).Sat (fun t => t.cfg = s.cfg) (fun t => t.cfg = s.cfg) :=
  (hostEvent_change e s).mono (fun _ h => h.cfg) fun _ ⟨_, _, h⟩ => h ▸ rfl

/-- A host step leaves the schedule to the turn that made it. -/
theorem hostEvent_env (e : Event) (s : State) :
    (hostEvent e s).Sat (fun t => t.env = s.env) (fun t => t.env = s.env) :=
  (hostEvent_change e s).mono (fun _ h => h.env) fun _ ⟨_, _, h⟩ => h ▸ rfl

/-- Any host step short of a reset keeps the static-key store. -/
theorem hostEvent_key (e : Event) (s : State) :
    (hostEvent e s).Sat (Safety.KeyKept s) (fun _ => ¬Safety.NotReset e) :=
  (hostEvent_change e s).mono (fun _ h => h.key) fun _ ⟨_, h, _⟩ => h ▸ id

theorem keyKept_trans {s t u : State} (h : Safety.KeyKept s t) (h' : Safety.KeyKept t u) : Safety.KeyKept s u :=
  ⟨h'.1.trans h.1, h'.2.1.trans h.2.1, h'.2.2.trans h.2.2⟩

/-! ### Turns with marks only -/

/-- One engine mark lets the engine make one step. -/
theorem engineTurn_mark {s : State} {rest : List Event} (h : s.env = .engine :: rest) :
    engineTurn s = .ready { s with env := rest } := by
  simp [engineTurn, h, hostTurn]

/-- A reset before the engine's next step cuts the command off. -/
theorem engineTurn_reset {s : State} {rs : List Residue} {rest : List Event} (h : s.env = .reset rs :: rest) :
    engineTurn s = .aborted (State.hardReset { s with env := rest } rs) := by
  simp [engineTurn, h, hostTurn, hostEvent]

/-- The engine's turn, from what each host step keeps; events that are still to come stay scheduled. -/
theorem engineTurn_sat {Q : State → Prop} {A : State → Prop} {s : State}
    (hev : ∀ e, e ≠ .engine → ∀ t rest, Q t → t.env = e :: rest → (hostEvent e { t with env := rest }).Sat
      (fun u => Q u ∧ u.env = rest) A)
    (hmark : ∀ t rest, Q t → t.env = .engine :: rest → Q { t with env := rest })
    (h : Q s) : (engineTurn s).Sat Q A := by
  suffices ∀ events t, Q t → t.env = events → (hostTurn events t).Sat Q A from this s.env s h rfl
  intro events
  induction events with
  | nil =>
    intro t ht he
    simp only [hostTurn, Turn.Sat]
    have : ({ t with env := [] } : State) = t := by cases t; simp only at he; subst he; rfl
    rw [this]
    exact ht
  | cons e rest ih =>
    intro t ht he
    simp only [hostTurn]
    split
    · rename_i h1
      exact hmark t rest ht (h1 ▸ he)
    · rename_i h1
      have h2 := hev e h1 t rest ht he
      cases hx : hostEvent e { t with env := rest } with
      | ready u => rw [hx] at h2; exact ih u h2.1 h2.2
      | aborted u => rw [hx] at h2; exact h2

/-! ### Residues -/

/-- A reset's choices keep memory canonical. -/
theorem wf_leaveResidue (rs : List Residue) {n a : Nat} (j : List (Byte × Byte)) {m : Memory} (h : m.wf = true)
    (ha : a + n ≤ addressSpace) : (leaveResidue rs n a j m).wf = true := by
  induction rs generalizing n a j m with
  | nil => exact h
  | cons r rs ih =>
    cases n with
    | zero => exact h
    | succ n =>
      simp only [leaveResidue]
      refine ih _ ?_ (by omega)
      unfold residueByte
      split <;> first | exact h | exact Memory.wf_write _ h (by omega)

/-- A reset's choices touch no byte outside the extent. -/
theorem read_leaveResidue (rs : List Residue) {n a b : Nat} (j : List (Byte × Byte)) {m : Memory} (h : m.wf = true)
    (ha : a + n ≤ addressSpace) (hb : ¬(a ≤ b ∧ b < a + n)) : (leaveResidue rs n a j m).read b = m.read b := by
  induction rs generalizing n a j m with
  | nil => rfl
  | cons r rs ih =>
    cases n with
    | zero => rfl
    | succ n =>
      simp only [leaveResidue]
      have hw : (residueByte r j.head? a m).wf = true := by
        unfold residueByte
        split <;> first | exact h | exact Memory.wf_write _ h (by omega)
      rw [ih _ hw (by omega) (by omega)]
      unfold residueByte
      split <;> first | rfl | (rw [Memory.read_write h, if_neg (by omega)])

/-- A reset's choices for a byte inside the extent (R150): as it is, 0x00, or what the journal has for it. -/
theorem read_leaveResidue_mem (rs : List Residue) {n a k : Nat} (j : List (Byte × Byte)) {m : Memory}
    (h : m.wf = true) (ha : a + n ≤ addressSpace) (hk : k < n) :
    (leaveResidue rs n a j m).read (a + k) = m.read (a + k) ∨ (leaveResidue rs n a j m).read (a + k) = 0 ∨
      ∃ p, j[k]? = some p ∧
        ((leaveResidue rs n a j m).read (a + k) = p.1 ∨ (leaveResidue rs n a j m).read (a + k) = p.2) := by
  induction rs generalizing n a k j m with
  | nil => exact .inl rfl
  | cons r rs ih =>
    obtain ⟨n, rfl⟩ : ∃ l, n = l + 1 := ⟨n - 1, by omega⟩
    simp only [leaveResidue]
    have hw : (residueByte r j.head? a m).wf = true := by
      unfold residueByte
      split <;> first | exact h | exact Memory.wf_write _ h (by omega)
    cases k with
    | zero =>
      simp only [Nat.add_zero]
      rw [read_leaveResidue rs (n := n) _ hw (by omega) (by omega)]
      have e : j[0]? = j.head? := List.head?_eq_getElem?.symm
      rw [e]
      unfold residueByte
      split
      · exact .inl rfl
      · exact .inr (.inl (by rw [Memory.read_write h, if_pos rfl]))
      · rename_i p hp
        exact .inr (.inr ⟨p, hp, .inl (by rw [Memory.read_write h, if_pos rfl])⟩)
      · rename_i p hp
        exact .inr (.inr ⟨p, hp, .inr (by rw [Memory.read_write h, if_pos rfl])⟩)
      · exact .inl rfl
      · exact .inl rfl
    | succ k =>
      have hm : (residueByte r j.head? a m).read (a + (k + 1)) = m.read (a + (k + 1)) := by
        unfold residueByte
        split <;> first | rfl | (rw [Memory.read_write h, if_neg (by omega)])
      have e : (j.drop 1)[k]? = j[k + 1]? := by rw [List.getElem?_drop, Nat.add_comm]
      have := ih (n := n) (a := a + 1) (k := k) (j := j.drop 1) hw (by omega) (by omega)
      rw [show a + 1 + k = a + (k + 1) by omega, hm, e] at this
      exact this

end Sys2Proof.Machine
end

