-- ==== Sys2Proof/Laws/Cut.lean ====
section
/-! SUPPORT. Two runs of one command side by side: the left one is cut off by a reset after some of the engine's steps,
the right one has a silent host. What the left one had written is the start of what the right one writes
(70_reset_and_hazards.md R150). -/

namespace Sys2Proof.Machine

/-- `s` with a silent host. -/
def State.silent (s : State) : State := { s with env := [] }

/-- What `m` has written so far is the start of what `v` has written. -/
structure Ahead (m v : State) : Prop where
  written : m.work.written <+: v.work.written
  journal : m.journal <+: v.journal

theorem Ahead.refl (m : State) : Ahead m m := ⟨List.prefix_rfl, List.prefix_rfl⟩

theorem Ahead.trans {m v w : State} (h : Ahead m v) (h' : Ahead v w) : Ahead m w :=
  ⟨h.written.trans h'.written, h.journal.trans h'.journal⟩

/-- `t` is a point of a command accepted in `s`, with `rs` the reset's choices once the engine's marks are used up:
memory is as in `s` but for the bytes the journal says were written. -/
structure Underway (rs : List Residue) (s t : State) : Prop where
  env : ∃ n, t.env = List.replicate n .engine ++ [.reset rs]
  latch : t.latch = s.latch
  memWf : t.mem.wf = true
  extent : s.latch.dstAddr.toNat + t.extent ≤ addressSpace
  paired : t.work.written.length = t.journal.length
  mem : ∀ a, t.mem.read a = s.mem.read a ∨
    ∃ (k : Nat) (w : Word) (p : Byte × Byte), t.work.written[k]? = some w ∧ w.toNat = a ∧ t.journal[k]? = some p ∧
      t.mem.read a = p.2

/-- How the run of `f` from `t` ends, beside the silent run `y` of `f` from the same point: in the same way, or cut off
in a state that is behind the silent run's end. -/
def Eng.Cut {α : Type} (rs : List Residue) (s : State) (x y : Eng α) : Prop :=
  match x with
  | .ok a t => y = .ok a t.silent ∧ Underway rs s t
  | .raised e ea t => y = .raised e ea t.silent ∧ Underway rs s t
  | .aborted t => ∃ c, Underway rs s c ∧ t = State.hardReset c.silent rs ∧ ∀ b v, y = .ok b v → Ahead c v
  | .refused r => y = .refused r
  | .faulted f => y = .faulted f

/-- `f`, a part of a command: a silent run of it only adds to what is written, and a run of it that a reset cuts off is
behind the silent one. -/
structure Cuttable {α : Type} (rs : List Residue) (s : State) (f : State → Eng α) : Prop where
  grows : ∀ v b w, v.env = [] → f v = .ok b w → w.env = [] ∧ Ahead v w
  cut : ∀ t, Underway rs s t → Eng.Cut rs s (f t) (f t.silent)

section
variable {rs : List Residue} {s : State} {α β γ : Type}

/-- One part after another. -/
theorem Cuttable.bind {f : State → Eng α} {k : α → State → Eng β} (h : Cuttable rs s f)
    (hk : ∀ a, Cuttable rs s (k a)) : Cuttable rs s (fun t => (f t).bind k) where
  grows v b w hv hb := by
    cases hx : f v with
    | ok a u =>
      rw [hx] at hb
      have h1 := h.grows v a u hv hx
      have h2 := (hk a).grows u b w h1.1 hb
      exact ⟨h2.1, h1.2.trans h2.2⟩
    | _ => rw [hx] at hb; cases hb
  cut t ht := by
    have h1 := h.cut t ht
    show Eng.Cut rs s ((f t).bind k) ((f t.silent).bind k)
    cases hx : f t with
    | ok a u =>
      rw [hx] at h1
      rw [h1.1]
      exact (hk a).cut u h1.2
    | raised e ea u => rw [hx] at h1; rw [h1.1]; exact ⟨rfl, h1.2⟩
    | aborted u =>
      rw [hx] at h1
      obtain ⟨c, h2, h3, h4⟩ := h1
      refine ⟨c, h2, h3, fun b w hb => ?_⟩
      cases hy : f t.silent with
      | ok a v =>
        rw [hy] at hb
        exact (h4 a v hy).trans ((hk a).grows v b w (h.grows _ a v rfl hy).1 hb).2
      | _ => rw [hy] at hb; cases hb
    | refused r => rw [hx] at h1; simp only [Eng.Cut] at h1; rw [h1]; rfl
    | faulted f => rw [hx] at h1; simp only [Eng.Cut] at h1; rw [h1]; rfl

/-- A part that depends on something the schedule does not change. -/
theorem Cuttable.at {f : γ → State → Eng α} (g : State → γ) (hg : ∀ t, g t.silent = g t)
    (h : ∀ x, Cuttable rs s (f x)) : Cuttable rs s (fun t => f (g t) t) where
  grows v b w hv hb := (h (g v)).grows v b w hv hb
  cut t ht := by
    show Eng.Cut rs s (f (g t) t) (f (g t.silent) t.silent)
    rw [hg]
    exact (h (g t)).cut t ht

/-- A part that runs after a change of the working state. -/
theorem Cuttable.work {f : State → Eng α} (g : State → Work) (h : Cuttable rs s f)
    (hg : ∀ t, g t.silent = g t := by intro; rfl) (hw : ∀ t, (g t).written = t.work.written := by intro; rfl) :
    Cuttable rs s (fun t => f { t with work := g t }) where
  grows v b w hv hb := by
    have h1 := h.grows { v with work := g v } b w hv hb
    exact ⟨h1.1, by rw [← hw v]; exact h1.2.written, h1.2.journal⟩
  cut t ht := by
    have h1 := h.cut { t with work := g t } { ht with
      paired := by simp only [hw]; exact ht.paired
      mem := by simp only [hw]; exact ht.mem }
    show Eng.Cut rs s (f { t with work := g t }) (f { t.silent with work := g t.silent })
    rw [hg]
    exact h1

theorem cuttable_ok (a : α) : Cuttable rs s (Eng.ok a) where
  grows v b w hv hb := by cases hb; exact ⟨hv, .refl v⟩
  cut _ ht := ⟨rfl, ht⟩

theorem cuttable_raised (e : ErrCode) (ea : Nat) : Cuttable rs s (Eng.raised (α := α) e ea) where
  grows _ _ _ _ hb := by cases hb
  cut _ ht := ⟨rfl, ht⟩

theorem cuttable_refused (r : Refusal) : Cuttable rs s (fun _ => Eng.refused (α := α) r) where
  grows _ _ _ _ hb := by cases hb
  cut _ _ := rfl

theorem cuttable_ite {c : Prop} [Decidable c] {f g : State → Eng α} (hf : Cuttable rs s f) (hg : Cuttable rs s g) :
    Cuttable rs s (fun t => if c then f t else g t) := by
  by_cases h : c
  · simpa only [if_pos h] using hf
  · simpa only [if_neg h] using hg

/-- The engine's turn, with marks and a reset to come. -/
theorem Underway.turn {t : State} (h : Underway rs s t) :
    (∃ u, engineTurn t = .ready u ∧ u.silent = t.silent ∧ Underway rs s u) ∨
      engineTurn t = .aborted (State.hardReset t.silent rs) := by
  obtain ⟨n, hn⟩ := h.env
  cases n with
  | zero => exact .inr (engineTurn_reset (by simpa using hn))
  | succ n =>
    have hm := engineTurn_mark (s := t) (rest := List.replicate n .engine ++ [.reset rs])
      (by rw [hn, List.replicate_succ, List.cons_append])
    exact .inl ⟨_, hm, rfl, { h with env := ⟨n, rfl⟩ }⟩

theorem cuttable_readByte (a : Nat) : Cuttable rs s (readByte a) where
  grows v b w hv hb := by
    simp only [readByte, engineTurn_quiet hv] at hb
    split at hb
    · split at hb
      · cases hb
      · cases hb; exact ⟨hv, .refl v⟩
    · cases hb
  cut t ht := by
    have hq : engineTurn t.silent = .ready t.silent := engineTurn_quiet rfl
    simp only [readByte, hq]
    split
    · rcases ht.turn with ⟨u, hu, hs, hw⟩ | hu
      · rw [hu, ← hs]
        simp only
        show Eng.Cut rs s (if u.cfg.busErrAt a .read then _ else _) (if u.cfg.busErrAt a .read then _ else _)
        split
        · exact ⟨rfl, hw⟩
        · exact ⟨rfl, hw⟩
      · rw [hu]
        refine ⟨t, ht, rfl, fun b v hb => ?_⟩
        split at hb
        · cases hb
        · cases hb; exact ⟨List.prefix_rfl, List.prefix_rfl⟩
    · rfl

/-- One byte written. -/
theorem Underway.write {t : State} {a : Nat} (v : Byte) (h : Underway rs s t) (ha : a < addressSpace) :
    Underway rs s (t.engineWrite a v) where
  env := h.env
  latch := h.latch
  memWf := Memory.wf_write v h.memWf ha
  extent := h.extent
  paired := by simp [State.engineWrite, h.paired]
  mem b := by
    show (t.mem.write a v).read b = _ ∨ ∃ (k : Nat) (w : Word) (p : Byte × Byte),
      (t.work.written ++ [BitVec.ofNat 32 a])[k]? = some w ∧ w.toNat = b ∧
        (t.journal ++ [(t.mem.read a, v)])[k]? = some p ∧ (t.mem.write a v).read b = p.2
    rw [Memory.read_write h.memWf]
    by_cases hb : b = a
    · subst hb
      refine .inr ⟨t.journal.length, BitVec.ofNat 32 b, (t.mem.read b, v), ?_, ?_, by simp, by simp⟩
      · rw [← h.paired]; simp
      · simp only [addressSpace] at ha
        simp only [BitVec.toNat_ofNat]
        omega
    · rw [if_neg hb]
      refine (h.mem b).imp_right fun ⟨k, w, p, h1, h2, h3, h4⟩ => ⟨k, w, p, ?_, h2, ?_, h4⟩
      · rw [List.getElem?_append_left (List.getElem?_eq_some_iff.mp h1).1, h1]
      · rw [List.getElem?_append_left (List.getElem?_eq_some_iff.mp h3).1, h3]

theorem cuttable_writeByte (a : Nat) (x : Byte) : Cuttable rs s (writeByte a x) where
  grows v b w hv hb := by
    simp only [writeByte, engineTurn_quiet hv] at hb
    split at hb
    · split at hb
      · cases hb
      · cases hb; exact ⟨hv, List.prefix_append _ _, List.prefix_append _ _⟩
    · cases hb
  cut t ht := by
    have hq : engineTurn t.silent = .ready t.silent := engineTurn_quiet rfl
    simp only [writeByte, hq]
    split
    · rename_i ha
      rcases ht.turn with ⟨u, hu, hs, hw⟩ | hu
      · rw [hu, ← hs]
        simp only
        show Eng.Cut rs s (if u.cfg.busErrAt a .write then _ else _) (if u.cfg.busErrAt a .write then _ else _)
        split
        · exact ⟨rfl, hw⟩
        · exact ⟨rfl, hw.write x ha⟩
      · rw [hu]
        refine ⟨t, ht, rfl, fun b v hb => ?_⟩
        split at hb
        · cases hb
        · cases hb; exact ⟨List.prefix_append _ _, List.prefix_append _ _⟩
    · rfl

theorem cuttable_memRead (a n : Nat) : Cuttable rs s (memRead a n) := by
  induction n generalizing a with
  | zero => exact cuttable_ok []
  | succ n ih => exact (cuttable_readByte a).bind fun b => (ih (a + 1)).bind fun bs => cuttable_ok _

theorem cuttable_memWrite (a : Nat) (bs : List Byte) : Cuttable rs s (memWrite a bs) := by
  induction bs generalizing a with
  | nil => exact cuttable_ok ()
  | cons b bs ih => exact (cuttable_writeByte a b).bind fun _ => ih (a + 1)

theorem cuttable_raiseIf (c : Bool) (e : ErrCode) : Cuttable rs s (raiseIf c e) := by
  cases c
  · exact cuttable_ok ()
  · exact cuttable_raised e 0

theorem cuttable_prologue (i : Instr) : Cuttable rs s (prologue i) :=
  cuttable_ite (cuttable_raised _ _)
    (Cuttable.at (f := fun b t => if i.opcode == 0x01 && b then Eng.raised .skeyLocked 0 t
        else if usesStaticKey i.opcode && !b then Eng.raised .skeyNotLoaded 0 t else .ok () t)
      State.skeyValid (fun _ => rfl) fun _ =>
      cuttable_ite (cuttable_raised _ _) (cuttable_ite (cuttable_raised _ _) (cuttable_ok ())))

theorem cuttable_requirePlain (l : List Region) : Cuttable rs s (requirePlain l) :=
  Cuttable.at (f := fun r t => match r with
      | some r => Eng.refused (.notPlainMemory r.addr r.len)
      | none => .ok () t)
    (fun t => firstDevice t.cfg l) (fun _ => rfl) fun r => by
      cases r
      · exact cuttable_ok ()
      · exact cuttable_refused _

/-- The checks of an output extent of `n` bytes note it, and it fits the address space. -/
theorem cuttable_outputCheck (ins : List Region) (n : Nat) : Cuttable rs s (fun t =>
    if decide (t.latch.dstLen.toNat < n) || !Region.inRange ⟨t.latch.dstAddr.toNat, n⟩ then Eng.raised .length 0 t
    else if ins.any (fun r => r.overlaps ⟨t.latch.dstAddr.toNat, n⟩) then .raised .overlap 0 t
    else (requirePlain (ins ++ [⟨t.latch.dstAddr.toNat, n⟩]) t).bind fun _ t => .ok () { t with extent := n }) where
  grows v b w hv hb := by
    split at hb
    · cases hb
    · split at hb
      · cases hb
      · unfold requirePlain at hb
        split at hb
        · cases hb
        · cases hb; exact ⟨hv, List.prefix_rfl, List.prefix_rfl⟩
  cut t ht := by
    show Eng.Cut rs s _ (if decide (t.latch.dstLen.toNat < n) || !Region.inRange ⟨t.latch.dstAddr.toNat, n⟩ then _
      else _)
    split
    · exact ⟨rfl, ht⟩
    · rename_i hfit
      show Eng.Cut rs s _ (if ins.any (fun r => r.overlaps (⟨t.latch.dstAddr.toNat, n⟩ : Region)) then _ else _)
      split
      · exact ⟨rfl, ht⟩
      · show Eng.Cut rs s _ ((match firstDevice t.cfg (ins ++ [(⟨t.latch.dstAddr.toNat, n⟩ : Region)]) with
          | some r => Eng.refused (.notPlainMemory r.addr r.len)
          | none => .ok () t.silent).bind fun _ t => .ok () { t with extent := n })
        simp only [requirePlain]
        cases firstDevice t.cfg (ins ++ [⟨t.latch.dstAddr.toNat, n⟩]) with
        | some r => rfl
        | none =>
          refine show _ ∧ Underway rs s _ from ⟨rfl, { ht with extent := ?_ }⟩
          rw [outputFits_iff, ht.latch] at hfit
          simp only [addressSpace]
          omega

/-- The region checks note an extent that fits the address space. -/
theorem cuttable_checkRegions (ins : List Region) (out : Option Nat) : Cuttable rs s (checkRegions ins out) := by
  refine cuttable_ite (cuttable_raised _ _) ?_
  cases out with
  | none => exact cuttable_requirePlain ins
  | some n =>
    exact (cuttable_outputCheck ins n)

/-! ### The parts of the commands -/

/-- A read of a region that the schedule does not change. -/
theorem cuttable_readAt (a n : State → Nat) (ha : ∀ t, a t.silent = a t := by intro; rfl)
    (hn : ∀ t, n t.silent = n t := by intro; rfl) :
    Cuttable rs s (fun t => memRead (a t) (n t) t) :=
  Cuttable.at (f := fun (p : Nat × Nat) => memRead p.1 p.2) (fun t => (a t, n t)) (fun t => by rw [ha, hn])
    fun _ => cuttable_memRead _ _

/-- A write of bytes that the schedule does not change. -/
theorem cuttable_writeAt (a : State → Nat) (bs : State → List Byte)
    (ha : ∀ t, a t.silent = a t := by intro; rfl) (hb : ∀ t, bs t.silent = bs t := by intro; rfl) :
    Cuttable rs s (fun t => memWrite (a t) (bs t) t) :=
  Cuttable.at (f := fun (p : Nat × List Byte) => memWrite p.1 p.2) (fun t => (a t, bs t)) (fun t => by rw [ha, hb])
    fun _ => cuttable_memWrite _ _

/-- The end of a part, with a value that the schedule does not change. -/
theorem cuttable_okAt (a : State → α) (ha : ∀ t, a t.silent = a t := by intro; rfl) :
    Cuttable rs s (fun t => .ok (a t) t) :=
  Cuttable.at (f := Eng.ok) a ha cuttable_ok

/-- A check on something that the schedule does not change. -/
theorem cuttable_raiseIfAt (c : State → Bool) (e : ErrCode) (hc : ∀ t, c t.silent = c t := by intro; rfl) :
    Cuttable rs s (fun t => raiseIf (c t) e t) :=
  Cuttable.at (f := fun c => raiseIf c e) c hc fun _ => cuttable_raiseIf _ e

/-- The region checks, on the latch. -/
theorem cuttable_checkRegionsAt (ins : State → List Region) (out : State → Option Nat)
    (hi : ∀ t, ins t.silent = ins t := by intro; rfl) (ho : ∀ t, out t.silent = out t := by intro; rfl) :
    Cuttable rs s (fun t => checkRegions (ins t) (out t) t) :=
  Cuttable.at (f := fun (p : List Region × Option Nat) => checkRegions p.1 p.2) (fun t => (ins t, out t))
    (fun t => by rw [hi, ho]) fun _ => cuttable_checkRegions _ _

theorem cuttable_readIndex : Cuttable rs s readIndex :=
  (cuttable_readAt _ _).bind fun blob =>
    Cuttable.at (f := fun d t => match d with
        | .error e => Eng.raised e 0 { t with work := { t.work with dbuf := blob } }
        | .ok keyIv => .ok keyIv { t with work := { t.work with dbuf := deobf t.sk (blob.drop 4) } })
      (fun t => decodeIndexBlob t.sk blob) (fun _ => rfl) fun d => by
        cases d with
        | error e => exact (cuttable_raised e 0).work _
        | ok keyIv => exact (cuttable_ok keyIv).work _

theorem cuttable_keyFromIndex : Cuttable rs s keyFromIndex :=
  cuttable_readIndex.bind fun _ => (cuttable_ok ()).work _

theorem cuttable_keyFromRecord : Cuttable rs s keyFromRecord :=
  (cuttable_readAt _ _).bind fun _ =>
    (cuttable_ok ()).work _

theorem cuttable_encLoop (full off : Nat) : Cuttable rs s (encLoop full off) := by
  induction full generalizing off with
  | zero =>
    exact (cuttable_readAt _ _).bind fun p => Cuttable.work
      (f := fun t => memWrite (t.latch.dstAddr.toNat + off) t.work.chain.toBytes t)
      (fun t => (t.encryptBlock (p ++ padBytes t.latch.srcLen.toNat)).work)
      (cuttable_writeAt _ _)
  | succ full ih =>
    exact (cuttable_readAt _ _).bind fun p => Cuttable.work
      (f := fun t => (memWrite (t.latch.dstAddr.toNat + off) t.work.chain.toBytes t).bind fun _ t =>
        encLoop full (off + 16) t)
      (fun t => (t.encryptBlock p).work)
      ((cuttable_writeAt _ _).bind fun _ => ih _)

theorem cuttable_decLoop (more off : Nat) : Cuttable rs s (decLoop more off) := by
  induction more generalizing off with
  | zero =>
    refine (cuttable_readAt _ _).bind fun c => Cuttable.work
      (f := fun t => match padLength t.work.blk.toBytes with
        | none => .raised .padding 0 t
        | some n =>
          (memWrite (t.latch.dstAddr.toNat + off) (t.work.blk.toBytes.take (16 - n)) t).bind fun _ t => .ok n t)
      (fun t => (t.decryptBlock c).work) ?_
    refine Cuttable.at (f := fun d t => match d with
        | none => .raised .padding 0 t
        | some n =>
          (memWrite (t.latch.dstAddr.toNat + off) (t.work.blk.toBytes.take (16 - n)) t).bind fun _ t => .ok n t)
      (fun t => padLength t.work.blk.toBytes) (fun _ => rfl) fun d => ?_
    cases d with
    | none => exact cuttable_raised _ _
    | some n => exact (cuttable_writeAt _ _).bind fun _ => cuttable_ok n
  | succ more ih =>
    exact (cuttable_readAt _ _).bind fun c => Cuttable.work
      (f := fun t => (memWrite (t.latch.dstAddr.toNat + off) t.work.blk.toBytes t).bind fun _ t =>
        decLoop more (off + 16) t)
      (fun t => (t.decryptBlock c).work)
      ((cuttable_writeAt _ _).bind fun _ => ih _)

theorem cuttable_encStream : Cuttable rs s encStream :=
  Cuttable.work (f := fun t => (encLoop (t.latch.srcLen.toNat / 16) 0 t).bind fun _ t =>
      .ok (encryptExtent t.latch.srcLen) t)
    (fun t => t.startStream.work)
    ((Cuttable.at (f := fun n => encLoop n 0) _ (fun _ => rfl) fun _ => cuttable_encLoop _ _).bind fun _ =>
      cuttable_okAt _)

theorem cuttable_decStream : Cuttable rs s decStream :=
  Cuttable.work (f := fun t => (decLoop (t.latch.srcLen.toNat / 16 - 1) 0 t).bind fun n t =>
      .ok (t.latch.srcLen.toNat - n) t)
    (fun t => t.startStream.work)
    ((Cuttable.at (f := fun n => decLoop n 0) _ (fun _ => rfl) fun _ => cuttable_decLoop _ _).bind fun _ =>
      cuttable_okAt _)

theorem cuttable_writeFingerprint (name : List Byte) (raw : Bool) (a : Nat) :
    Cuttable rs s (writeFingerprint name raw a) :=
  Cuttable.work (f := fun t => memWrite a (fpOut (hashBytes t.work.h) raw) t) (fun t => (t.hashed name).work)
    (cuttable_writeAt _ _)

theorem cuttable_writeFingerprintAt (name : State → List Byte) (raw : Bool) (a : State → Nat)
    (hn : ∀ t, name t.silent = name t := by intro; rfl) (ha : ∀ t, a t.silent = a t := by intro; rfl) :
    Cuttable rs s (fun t => writeFingerprint (name t) raw (a t) t) :=
  Cuttable.at (f := fun (p : List Byte × Nat) => writeFingerprint p.1 raw p.2) (fun t => (name t, a t))
    (fun t => by rw [hn, ha]) fun _ => cuttable_writeFingerprint _ _ _

theorem cuttable_writeRecords (raw : Bool) (n k : Nat) : Cuttable rs s (writeRecords raw n k) := by
  induction n generalizing k with
  | zero => exact cuttable_ok ()
  | succ n ih => exact (cuttable_writeFingerprintAt _ _ _).bind fun _ => ih _

/-- LOAD_SKEY's store touches nothing that a reset's residue is judged by. -/
theorem cuttable_storeKey (bs : List Byte) : Cuttable rs s (fun t => .ok 0 (t.storeKey bs)) where
  grows v b w hv hb := by cases hb; exact ⟨hv, List.prefix_rfl, List.prefix_rfl⟩
  cut t ht := ⟨rfl, { ht with }⟩

/-- Every command can be cut off by a reset. -/
theorem cuttable_run (i : Instr) : Cuttable rs s (run i) := by
  cases i with
  | loadSkey =>
    refine (cuttable_prologue .loadSkey).bind fun _ => ?_
    refine (cuttable_raiseIfAt (fun t => t.latch.srcLen == 0) _).bind fun _ => ?_
    refine (cuttable_raiseIfAt (fun t => decide (t.cfg.skeyMax < t.latch.srcLen.toNat)) _).bind fun _ => ?_
    exact (cuttable_checkRegionsAt _ _).bind fun _ => (cuttable_readAt _ _).bind cuttable_storeKey
  | decodeIndex =>
    exact (cuttable_prologue _).bind fun _ => (cuttable_checkRegionsAt _ _).bind fun _ =>
      cuttable_readIndex.bind fun _ => (cuttable_writeAt _ _).bind fun _ => cuttable_ok _
  | encryptIndex =>
    exact (cuttable_prologue _).bind fun _ => (cuttable_checkRegionsAt _ _).bind fun _ =>
      cuttable_keyFromIndex.bind fun _ => cuttable_encStream
  | decryptIndex =>
    exact (cuttable_prologue _).bind fun _ => (cuttable_raiseIfAt _ _).bind fun _ =>
      (cuttable_checkRegionsAt _ _).bind fun _ => cuttable_keyFromIndex.bind fun _ => cuttable_decStream
  | encryptRaw =>
    show Cuttable rs s runEncryptRaw
    unfold runEncryptRaw
    exact (cuttable_prologue _).bind fun _ => (cuttable_raiseIfAt _ _).bind fun _ =>
      (cuttable_checkRegionsAt _ _).bind fun _ => cuttable_keyFromRecord.bind fun _ => cuttable_encStream
  | decryptRaw =>
    show Cuttable rs s runDecryptRaw
    unfold runDecryptRaw
    refine (cuttable_prologue _).bind fun _ => (cuttable_raiseIfAt _ _).bind fun _ => ?_
    exact (cuttable_raiseIfAt _ _).bind fun _ => (cuttable_checkRegionsAt _ _).bind fun _ =>
      cuttable_keyFromRecord.bind fun _ => cuttable_decStream
  | fingerprint raw =>
    exact (cuttable_prologue _).bind fun _ => (cuttable_checkRegionsAt _ _).bind fun _ =>
      (cuttable_readAt _ _).bind fun name => (cuttable_raiseIf _ _).bind fun _ =>
      (cuttable_writeFingerprintAt (fun _ => name) raw _).bind fun _ => cuttable_ok _
  | fingerprintCat k raw =>
    exact (cuttable_prologue _).bind fun _ => (cuttable_checkRegionsAt _ _).bind fun _ =>
      (cuttable_writeFingerprintAt (fun t => t.cfg.name k) raw _).bind fun _ => cuttable_ok _
  | fingerprintAll raw =>
    exact (cuttable_prologue _).bind fun _ => (cuttable_checkRegionsAt _ _).bind fun _ =>
      (cuttable_writeRecords raw _ _).bind fun _ => cuttable_ok _
  | catalogueName k =>
    exact (cuttable_prologue _).bind fun _ => (cuttable_checkRegionsAt _ _).bind fun _ =>
      (cuttable_writeAt _ _).bind fun _ => cuttable_okAt _

end

/-! ### What a silent run's journal holds -/

/-- `t` is a point of a silent run of a command accepted in `s`, with `p` bytes written: the journal pairs each byte
replaced with the byte that stands there now, from L.DST_ADDR on, and no byte past them has changed. -/
structure Booked (s : State) (p : Nat) (t : State) : Prop where
  env : t.env = []
  cfg : t.cfg = s.cfg
  latch : t.latch = s.latch
  memWf : t.mem.wf = true
  written : t.work.written = addresses s.latch.dstAddr.toNat p
  size : t.journal.length = p
  journal : ∀ k, k < p → t.journal[k]? =
    some (s.mem.read (s.latch.dstAddr.toNat + k), t.mem.read (s.latch.dstAddr.toNat + k))
  past : ∀ k, p ≤ k → t.mem.read (s.latch.dstAddr.toNat + k) = s.mem.read (s.latch.dstAddr.toNat + k)

theorem Booked.write {s t : State} {p : Nat} (v : Byte) (h : Booked s p t)
    (ha : s.latch.dstAddr.toNat + p < addressSpace) :
    Booked s (p + 1) (t.engineWrite (s.latch.dstAddr.toNat + p) v) where
  env := h.env
  cfg := h.cfg
  latch := h.latch
  memWf := Memory.wf_write v h.memWf ha
  written := by
    show t.work.written ++ [BitVec.ofNat 32 (s.latch.dstAddr.toNat + p)] = _
    rw [h.written, addresses_add]
    rfl
  size := by simp [State.engineWrite, h.size]
  journal k hk := by
    show (t.journal ++ [(t.mem.read (s.latch.dstAddr.toNat + p), v)])[k]? =
      some (_, (t.mem.write (s.latch.dstAddr.toNat + p) v).read (s.latch.dstAddr.toNat + k))
    rw [Memory.read_write h.memWf]
    by_cases hkp : k = p
    · subst hkp
      rw [List.getElem?_append_right (by rw [h.size]), h.size, if_pos rfl, h.past k (Nat.le_refl k)]
      simp
    · rw [List.getElem?_append_left (by rw [h.size]; omega), h.journal k (by omega), if_neg (by omega)]
  past k hk := by
    show (t.mem.write (s.latch.dstAddr.toNat + p) v).read _ = _
    rw [Memory.read_write h.memWf, if_neg (by omega), h.past k (by omega)]

/-- Where the addresses written in a row stand. -/
theorem getElem?_addresses {a n k : Nat} {w : Word} (h : (addresses a n)[k]? = some w) :
    k < n ∧ w = BitVec.ofNat 32 (a + k) := by
  induction n generalizing a k with
  | zero => simp [addresses] at h
  | succ n ih =>
    cases k with
    | zero => exact ⟨by omega, by simpa [addresses] using h.symm⟩
    | succ k =>
      have := ih (a := a + 1) (k := k) (by simpa only [addresses, List.getElem?_cons_succ] using h)
      exact ⟨by omega, by rw [this.2, show a + 1 + k = a + (k + 1) by omega]⟩

/-- The journal of every command's silent run. -/
theorem booked_run {i : Instr} {s : State} (henv : s.env = []) (hwf : s.mem.wf = true) (hw : s.work.written = [])
    (hj : s.journal = []) :
    (run i s).Sat (fun n t => n ≤ outSize i s ∧ Booked s n t) (fun e _ t => e ≠ .ok ∧ ∃ p, Booked s p t)
      (fun _ => False) (fun _ => True) := by
  have hI : Steady i s (fun p _ t => Booked s p t) (fun p _ t => Booked s p t) (fun _ => False) (fun _ => True) :=
    { latch := fun _ _ _ h => h.latch
      cfg := fun _ _ _ h => h.cfg
      turn := fun _ _ t h _ => by rw [engineTurn_quiet h.env]; exact h
      work := fun _ _ _ _ h hw => { h with written := hw.trans h.written }
      write := fun _ _ _ v h hp ha _ _ => h.write v (by omega)
      extent := fun _ h _ => { h with }
      device := fun _ _ _ => trivial
      store := fun _ _ _ _ _ _ _ _ _ h => { h with }
      other := fun _ _ _ _ h => h }
  have h := run_sat hI
    ⟨henv, rfl, rfl, hwf, hw, by rw [hj]; rfl, fun _ hk => absurd hk (Nat.not_lt_zero _), fun _ _ => rfl⟩
  cases hx : run i s with
  | ok n t =>
    rw [hx] at h
    obtain ⟨hn, -, q, -, hb⟩ := h
    exact ⟨hn, hb⟩
  | raised e ea t =>
    rw [hx] at h
    obtain ⟨he, -, p, q, -, -, hb⟩ := h
    exact ⟨he, p, hb⟩
  | aborted t => rw [hx] at h; exact h
  | refused r => exact trivial
  | faulted f => rw [hx] at h; exact h

end Sys2Proof.Machine
end

