-- ==== Sys2Proof/Laws/Pair.lean ====
section
/-! SUPPORT. Two runs of one command side by side: the left one under a host that keeps 70_reset_and_hazards.md R154,
the right one under a silent host. A rule for each shared operation, and one for all ten commands (`run_pair`). -/

namespace Sys2Proof.Machine

/-- Byte `a` lies in a region of command `i`. -/
def InRegions (i : Instr) (s : State) (a : Nat) : Prop :=
  ∃ r ∈ Safety.inputs i s ++ [Safety.outExtent i s], r.addr ≤ a ∧ a < r.addr + r.len

/-- `t` and `u` stand at the same point of command `i` accepted in `s`; `t`'s host keeps R154, `u`'s is silent. -/
structure Twin (i : Instr) (s t u : State) : Prop where
  cfgL : t.cfg = s.cfg
  cfgR : u.cfg = s.cfg
  latchL : t.latch = s.latch
  latchR : u.latch = s.latch
  envL : ∀ e ∈ t.env, Safety.Respects i s e
  envR : u.env = []
  busyL : t.busy = true
  work : t.work = u.work
  key : t.skeyRam = u.skeyRam ∧ t.skeyLen = u.skeyLen ∧ t.skeyValid = u.skeyValid
  wfL : t.mem.wf = true
  wfR : u.mem.wf = true
  mem : ∀ a, InRegions i s a → t.mem.read a = u.mem.read a

/-- Both runs end the same way, in related states. -/
def Eng.Rel {α : Type} (R : α → State → State → Prop) (E : State → State → Prop) (x y : Eng α) : Prop :=
  match x, y with
  | .ok a t, .ok b u => a = b ∧ R a t u
  | .raised e ea t, .raised e' ea' u => e = e' ∧ ea = ea' ∧ E t u
  | .refused r, .refused r' => r = r'
  | _, _ => False

theorem Eng.Rel.bind {α β : Type} {R : α → State → State → Prop} {R' : β → State → State → Prop}
    {E : State → State → Prop} {x y : Eng α} {k k' : α → State → Eng β} (h : Eng.Rel R E x y)
    (hk : ∀ a t u, R a t u → Eng.Rel R' E (k a t) (k' a u)) : Eng.Rel R' E (x.bind k) (y.bind k') := by
  cases x <;> cases y <;> simp only [Eng.Rel] at h
  · obtain ⟨rfl, h⟩ := h
    exact hk _ _ _ h
  · exact h
  · exact h

section
variable {i : Instr} {s : State}

/-- A host step that keeps R154 leaves the pair. -/
theorem Twin.host {t u : State} {e : Event} {rest : List Event} (h : Twin i s t u) (he : t.env = e :: rest) :
    (hostEvent e { t with env := rest }).Sat (fun t' => Twin i s t' u ∧ t'.env = rest) (fun _ => False) := by
  have hr : Safety.Respects i s e := h.envL e (by simp [he])
  refine (hostEvent_change e { t with env := rest }).mono (fun t' hc => ⟨?_, hc.env⟩) ?_
  · have hk := hc.key
    exact {
      cfgL := hc.cfg.trans h.cfgL
      cfgR := h.cfgR
      latchL := (hc.latch h.busyL).trans h.latchL
      latchR := h.latchR
      envL := fun e' h' => h.envL e' (by rw [hc.env] at h'; simp only at h'; simp [he, h'])
      envR := h.envR
      busyL := hc.busy h.busyL
      work := (hc.work h.busyL).trans h.work
      key := ⟨hk.1.trans h.key.1, hk.2.1.trans h.key.2.1, hk.2.2.trans h.key.2.2⟩
      wfL := hc.memWf h.wfL
      wfR := h.wfR
      mem := fun b hb => by
        refine (hc.mem h.wfL b ?_).trans (h.mem b hb)
        rintro a v rfl rfl
        obtain ⟨r, hm, h1, h2⟩ := hb
        exact hr r hm ⟨h1, h2⟩ }
  · rintro _ ⟨rs, rfl, _⟩
    exact hr

/-- The engine's turn comes on both sides. -/
theorem Twin.turn {t u : State} (h : Twin i s t u) :
    ∃ t', engineTurn t = .ready t' ∧ engineTurn u = .ready u ∧ Twin i s t' u := by
  have := engineTurn_sat (Q := fun t' => Twin i s t' u) (A := fun _ => False) (fun e _ t' rest ht he => ht.host he)
    (fun t' rest ht he => { ht with envL := fun e h' => ht.envL e (by simp [he, h']) }) h
  cases hx : engineTurn t with
  | ready t' => rw [hx] at this; exact ⟨t', rfl, engineTurn_quiet h.envR, this⟩
  | aborted t' => rw [hx] at this; exact this.elim

theorem raiseIf_pair {t u : State} (c : Bool) (e : ErrCode) (h : Twin i s t u) :
    Eng.Rel (fun _ t' u' => Twin i s t' u' ∧ c = false) (Twin i s) (raiseIf c e t) (raiseIf c e u) := by
  unfold raiseIf
  cases c
  · exact ⟨rfl, h, rfl⟩
  · exact ⟨rfl, rfl, h⟩

theorem memRead_pair {t u : State} {a n : Nat} (h : Twin i s t u) (ha : a + n ≤ addressSpace)
    (hr : ∀ b, a ≤ b → b < a + n → InRegions i s b) :
    Eng.Rel (fun bs t' u' => bs.length = n ∧ Twin i s t' u') (Twin i s) (memRead a n t) (memRead a n u) := by
  induction n generalizing a t u with
  | zero => exact ⟨rfl, rfl, h⟩
  | succ n ih =>
    refine Eng.Rel.bind (R := fun _ t' u' => Twin i s t' u') ?_ fun b t' u' h' => ?_
    · obtain ⟨t', h1, h2, h3⟩ := h.turn
      simp only [readByte, if_pos (show a < addressSpace by omega), h1, h2, h3.cfgL, h3.cfgR]
      split
      · exact ⟨rfl, rfl, h3⟩
      · exact ⟨h3.mem a (hr a (by omega) (by omega)), h3⟩
    · exact Eng.Rel.bind (ih h' (by omega) fun b h1 h2 => hr b (by omega) (by omega))
        fun bs t'' u'' h'' => ⟨rfl, by simp [h''.1], h''.2⟩

theorem memWrite_pair {t u : State} {a : Nat} (bs : List Byte) (h : Twin i s t u)
    (ha : a + bs.length ≤ addressSpace) :
    Eng.Rel (fun _ t' u' => Twin i s t' u') (Twin i s) (memWrite a bs t) (memWrite a bs u) := by
  induction bs generalizing a t u with
  | nil => exact ⟨rfl, h⟩
  | cons b bs ih =>
    simp only [List.length_cons] at ha
    refine Eng.Rel.bind (R := fun _ t' u' => Twin i s t' u') ?_ fun _ t' u' h' => ih h' (by omega)
    obtain ⟨t', h1, h2, h3⟩ := h.turn
    simp only [writeByte, if_pos (show a < addressSpace by omega), h1, h2, h3.cfgL, h3.cfgR]
    split
    · exact ⟨rfl, rfl, h3⟩
    · refine ⟨rfl, { h3 with
        work := by simp [State.engineWrite, h3.work]
        wfL := Memory.wf_write b h3.wfL (by omega)
        wfR := Memory.wf_write b h3.wfR (by omega)
        mem := fun c hc => ?_ }⟩
      show (t'.mem.write a b).read c = (u.mem.write a b).read c
      rw [Memory.read_write h3.wfL, Memory.read_write h3.wfR, h3.mem c hc]

theorem requirePlain_pair {t u : State} (rs : List Region) (h : Twin i s t u) :
    Eng.Rel (fun _ t' u' => Twin i s t' u') (Twin i s) (requirePlain rs t) (requirePlain rs u) := by
  unfold requirePlain
  rw [h.cfgL, h.cfgR]
  cases firstDevice s.cfg rs with
  | none => exact ⟨rfl, h⟩
  | some r => exact rfl

theorem checkRegions_pair {t u : State} {ins : List Region} {out : Option Nat} (h : Twin i s t u)
    (hins : ins = Safety.inputs i s) (hout : out = Safety.outMax i s) :
    Eng.Rel
      (fun _ t' u' => Twin i s t' u' ∧ (∀ r ∈ Safety.inputs i s, r.addr + r.len ≤ addressSpace) ∧
        s.latch.dstAddr.toNat + outSize i s ≤ addressSpace)
      (Twin i s) (checkRegions ins out t) (checkRegions ins out u) := by
  subst hins hout
  simp only [checkRegions]
  split
  · exact ⟨rfl, rfl, h⟩
  · rename_i hin
    have hin' : ∀ r ∈ Safety.inputs i s, r.addr + r.len ≤ addressSpace := by
      intro r hr
      simp only [List.any_eq_true, not_exists, not_and] at hin
      have := hin r hr
      rw [Bool.not_eq_true', Bool.not_eq_false, Region.inRange_iff] at this
      exact this
    cases ho : Safety.outMax i s with
    | none =>
      have hd := s.latch.dstAddr.isLt
      have e (x : Eng Unit) : x.bind (fun _ t => .ok () t) = x := by cases x <;> rfl
      simp only
      rw [← e (requirePlain _ t), ← e (requirePlain _ u)]
      refine Eng.Rel.bind (requirePlain_pair _ h) fun _ t' u' h' => ⟨rfl, h', hin', ?_⟩
      simp only [outSize, ho, Option.getD_none, addressSpace]
      omega
    | some n =>
      simp only [h.latchL, h.latchR]
      split
      · exact ⟨rfl, rfl, h⟩
      · rename_i hfit
        rw [outputFits_iff] at hfit
        split
        · exact ⟨rfl, rfl, h⟩
        · refine Eng.Rel.bind (requirePlain_pair _ h) fun _ t' u' h' => ⟨rfl, { h' with }, hin', ?_⟩
          simp only [outSize, ho, Option.getD_some, addressSpace]
          omega

theorem prologue_pair {t u : State} (j : Instr) (h : Twin i s t u) :
    Eng.Rel (fun _ t' u' => Twin i s t' u') (Twin i s) (prologue j t) (prologue j u) := by
  unfold prologue
  rw [h.key.2.2]
  repeat (split; exact ⟨rfl, rfl, h⟩)
  exact ⟨rfl, h⟩

theorem Twin.setWork {t u : State} (h : Twin i s t u) {w w' : Work} (hw : w = w') :
    Twin i s { t with work := w } { u with work := w' } := { h with work := hw }

theorem Twin.sk {t u : State} (h : Twin i s t u) : t.sk = u.sk := by
  simp only [State.sk, h.key.1, h.key.2.1]

theorem readIndex_pair {t u : State} (h : Twin i s t u)
    (ha : s.latch.auxAddr.toNat + s.latch.auxLen.toNat ≤ addressSpace)
    (hr : ∀ b, s.latch.auxAddr.toNat ≤ b → b < s.latch.auxAddr.toNat + s.latch.auxLen.toNat → InRegions i s b) :
    Eng.Rel (fun keyIv t' u' => keyIv.1.length = 32 ∧ keyIv.2.length = 16 ∧ Twin i s t' u') (Twin i s)
      (readIndex t) (readIndex u) := by
  unfold readIndex
  rw [h.latchL, h.latchR]
  refine Eng.Rel.bind (memRead_pair h ha hr) fun blob t' u' h' => ?_
  rw [h'.2.sk]
  cases hd : decodeIndexBlob u'.sk blob with
  | error e => exact ⟨rfl, rfl, h'.2.setWork (by rw [h'.2.work])⟩
  | ok keyIv =>
    refine ⟨rfl, ?_, ?_, h'.2.setWork (by rw [h'.2.work])⟩ <;>
    · simp only [decodeIndexBlob] at hd
      split at hd
      · cases hd
      split at hd
      · cases hd
      split at hd
      · cases hd
      split at hd
      · cases hd
      · cases hd
        simp only [List.length_take, List.length_drop] at *
        omega

theorem keyFromIndex_pair {t u : State} (h : Twin i s t u)
    (ha : s.latch.auxAddr.toNat + s.latch.auxLen.toNat ≤ addressSpace)
    (hr : ∀ b, s.latch.auxAddr.toNat ≤ b → b < s.latch.auxAddr.toNat + s.latch.auxLen.toNat → InRegions i s b) :
    Eng.Rel (fun _ t' u' => Twin i s t' u') (Twin i s) (keyFromIndex t) (keyFromIndex u) :=
  Eng.Rel.bind (readIndex_pair h ha hr) fun _ _ _ h' => ⟨rfl, h'.2.2.setWork (by rw [h'.2.2.work])⟩

theorem keyFromRecord_pair {t u : State} (h : Twin i s t u) (ha : s.latch.auxAddr.toNat + 48 ≤ addressSpace)
    (hr : ∀ b, s.latch.auxAddr.toNat ≤ b → b < s.latch.auxAddr.toNat + 48 → InRegions i s b) :
    Eng.Rel (fun _ t' u' => Twin i s t' u') (Twin i s) (keyFromRecord t) (keyFromRecord u) := by
  unfold keyFromRecord
  rw [h.latchL, h.latchR]
  exact Eng.Rel.bind (memRead_pair h ha hr) fun _ _ _ h' => ⟨rfl, h'.2.setWork (by rw [h'.2.work])⟩

theorem encLoop_pair {full off : Nat} {t u : State} (h : Twin i s t u)
    (hs : s.latch.srcAddr.toNat + off + (16 * full + s.latch.srcLen.toNat % 16) ≤ addressSpace)
    (hd : s.latch.dstAddr.toNat + off + (16 * full + 16) ≤ addressSpace)
    (hr : ∀ b, s.latch.srcAddr.toNat + off ≤ b →
      b < s.latch.srcAddr.toNat + off + (16 * full + s.latch.srcLen.toNat % 16) → InRegions i s b) :
    Eng.Rel (fun _ t' u' => Twin i s t' u') (Twin i s) (encLoop full off t) (encLoop full off u) := by
  induction full generalizing off t u with
  | zero =>
    simp only [encLoop, h.latchL, h.latchR]
    refine Eng.Rel.bind (memRead_pair h (by omega) fun b h1 h2 => hr b (by omega) (by omega)) fun p t' u' h' => ?_
    have hw : Twin i s (t'.encryptBlock (p ++ padBytes s.latch.srcLen.toNat))
        (u'.encryptBlock (p ++ padBytes s.latch.srcLen.toNat)) := h'.2.setWork (by rw [h'.2.work])
    have hc := congrArg Work.chain hw.work
    simp only [State.encryptBlock_latch, h'.2.latchL, h'.2.latchR] at hc ⊢
    rw [hc]
    exact memWrite_pair _ hw (by simp; omega)
  | succ full ih =>
    simp only [encLoop, h.latchL, h.latchR]
    refine Eng.Rel.bind (memRead_pair h (by omega) fun b h1 h2 => hr b (by omega) (by omega)) fun p t' u' h' => ?_
    have hw : Twin i s (t'.encryptBlock p) (u'.encryptBlock p) := h'.2.setWork (by rw [h'.2.work])
    have hc := congrArg Work.chain hw.work
    simp only [State.encryptBlock_latch, h'.2.latchL, h'.2.latchR] at hc ⊢
    rw [hc]
    refine Eng.Rel.bind (memWrite_pair _ hw (by simp; omega)) fun _ t'' u'' h'' => ?_
    exact ih h'' (by omega) (by omega) fun b h1 h2 => hr b (by omega) (by omega)

theorem decLoop_pair {more off : Nat} {t u : State} (h : Twin i s t u)
    (hs : s.latch.srcAddr.toNat + off + (16 * more + 16) ≤ addressSpace)
    (hd : s.latch.dstAddr.toNat + off + (16 * more + 15) ≤ addressSpace)
    (hr : ∀ b, s.latch.srcAddr.toNat + off ≤ b →
      b < s.latch.srcAddr.toNat + off + (16 * more + 16) → InRegions i s b) :
    Eng.Rel (fun _ t' u' => Twin i s t' u') (Twin i s) (decLoop more off t) (decLoop more off u) := by
  induction more generalizing off t u with
  | zero =>
    simp only [decLoop, h.latchL, h.latchR]
    refine Eng.Rel.bind (memRead_pair h (by omega) fun b h1 h2 => hr b (by omega) (by omega)) fun c t' u' h' => ?_
    have hw : Twin i s (t'.decryptBlock c) (u'.decryptBlock c) := h'.2.setWork (by rw [h'.2.work])
    have hc := congrArg Work.blk hw.work
    simp only [State.decryptBlock_latch, h'.2.latchL, h'.2.latchR] at hc ⊢
    rw [hc]
    cases hn : padLength (u'.decryptBlock c).work.blk.toBytes with
    | none => exact ⟨rfl, rfl, hw⟩
    | some n =>
      have hb := padLength_bounds hn
      exact Eng.Rel.bind (memWrite_pair _ hw (by simp; omega)) fun _ t'' u'' h'' => ⟨rfl, h''⟩
  | succ more ih =>
    simp only [decLoop, h.latchL, h.latchR]
    refine Eng.Rel.bind (memRead_pair h (by omega) fun b h1 h2 => hr b (by omega) (by omega)) fun c t' u' h' => ?_
    have hw : Twin i s (t'.decryptBlock c) (u'.decryptBlock c) := h'.2.setWork (by rw [h'.2.work])
    have hc := congrArg Work.blk hw.work
    simp only [State.decryptBlock_latch, h'.2.latchL, h'.2.latchR] at hc ⊢
    rw [hc]
    refine Eng.Rel.bind (memWrite_pair _ hw (by simp; omega)) fun _ t'' u'' h'' => ?_
    exact ih h'' (by omega) (by omega) fun b h1 h2 => hr b (by omega) (by omega)

theorem encStream_pair {t u : State} (h : Twin i s t u)
    (hs : s.latch.srcAddr.toNat + s.latch.srcLen.toNat ≤ addressSpace)
    (hd : s.latch.dstAddr.toNat + (s.latch.srcLen.toNat / 16 + 1) * 16 ≤ addressSpace)
    (hr : ∀ b, s.latch.srcAddr.toNat ≤ b → b < s.latch.srcAddr.toNat + s.latch.srcLen.toNat → InRegions i s b) :
    Eng.Rel (fun _ t' u' => Twin i s t' u') (Twin i s) (encStream t) (encStream u) := by
  simp only [encStream, h.latchL, h.latchR]
  have hw : Twin i s t.startStream u.startStream := h.setWork (by rw [h.work])
  refine Eng.Rel.bind (encLoop_pair hw (by omega) (by omega) fun b h1 h2 => hr b (by omega) (by omega))
    fun _ t' u' h' => ⟨by rw [h'.latchL, h'.latchR], h'⟩

theorem decStream_pair {t u : State} (h : Twin i s t u)
    (h0 : s.latch.srcLen.toNat ≠ 0) (h16 : s.latch.srcLen.toNat % 16 = 0)
    (hs : s.latch.srcAddr.toNat + s.latch.srcLen.toNat ≤ addressSpace)
    (hd : s.latch.dstAddr.toNat + (s.latch.srcLen.toNat - 1) ≤ addressSpace)
    (hr : ∀ b, s.latch.srcAddr.toNat ≤ b → b < s.latch.srcAddr.toNat + s.latch.srcLen.toNat → InRegions i s b) :
    Eng.Rel (fun _ t' u' => Twin i s t' u') (Twin i s) (decStream t) (decStream u) := by
  simp only [decStream, h.latchL, h.latchR]
  have hw : Twin i s t.startStream u.startStream := h.setWork (by rw [h.work])
  refine Eng.Rel.bind (decLoop_pair hw (by omega) (by omega) fun b h1 h2 => hr b (by omega) (by omega))
    fun _ t' u' h' => ⟨by rw [h'.latchL, h'.latchR], h'⟩

theorem writeFingerprint_pair {t u : State} {a : Nat} (name : List Byte) (raw : Bool) (h : Twin i s t u)
    (ha : a + fingerprintWidth raw ≤ addressSpace) :
    Eng.Rel (fun _ t' u' => Twin i s t' u') (Twin i s) (writeFingerprint name raw a t)
      (writeFingerprint name raw a u) := by
  have hw : Twin i s (t.hashed name) (u.hashed name) := by
    unfold State.hashed
    rw [h.sk]
    exact h.setWork (by rw [h.work])
  have hl := length_fpOut (length_hashBytes (u.hashed name).work.h) raw
  unfold writeFingerprint
  simp only
  rw [congrArg Work.h hw.work]
  exact memWrite_pair _ hw (by rw [hl]; exact ha)

theorem writeRecords_pair {n k : Nat} {t u : State} (raw : Bool) (h : Twin i s t u)
    (ha : s.latch.dstAddr.toNat + fingerprintWidth raw * (k + n) ≤ addressSpace) :
    Eng.Rel (fun _ t' u' => Twin i s t' u') (Twin i s) (writeRecords raw n k t) (writeRecords raw n k u) := by
  induction n generalizing k t u with
  | zero => exact ⟨rfl, h⟩
  | succ n ih =>
    simp only [writeRecords, h.latchL, h.latchR, h.cfgL, h.cfgR]
    have e : fingerprintWidth raw * (k + (n + 1)) = fingerprintWidth raw * k + fingerprintWidth raw +
        fingerprintWidth raw * n := by rw [Nat.mul_add, Nat.mul_add]; omega
    refine Eng.Rel.bind (writeFingerprint_pair _ raw h (by omega)) fun _ t' u' h' => ?_
    exact ih h' (by rw [show k + 1 + n = k + (n + 1) by omega]; exact ha)

/-- A region of the command, from its place in the list. -/
theorem inRegions_of {r : Region} (hm : r ∈ Safety.inputs i s) {b : Nat} (h1 : r.addr ≤ b) (h2 : b < r.addr + r.len) :
    InRegions i s b := ⟨r, by simp [hm], h1, h2⟩

/-- The runs of one command stay together. -/
theorem run_pair {t u : State} (h : Twin i s t u) :
    Eng.Rel (fun _ t' u' => Twin i s t' u') (Twin i s) (run i t) (run i u) := by
  cases i with
  | loadSkey =>
    simp only [run, runLoadSkey]
    refine Eng.Rel.bind (prologue_pair _ h) fun _ t u h => ?_
    rw [h.latchL, h.latchR]
    refine Eng.Rel.bind (raiseIf_pair _ _ h) fun _ t u h => ?_
    rw [h.1.latchL, h.1.latchR, h.1.cfgL, h.1.cfgR]
    refine Eng.Rel.bind (raiseIf_pair _ _ h.1) fun _ t u h => ?_
    rw [h.1.latchL, h.1.latchR]
    refine Eng.Rel.bind (checkRegions_pair h.1 rfl rfl) fun _ t u h => ?_
    have hin := h.2.1 _ (show (⟨_, _⟩ : Region) ∈ _ from List.mem_singleton.mpr rfl)
    rw [h.1.latchL, h.1.latchR]
    refine Eng.Rel.bind (memRead_pair h.1 hin fun b h1 h2 => inRegions_of (List.mem_singleton.mpr rfl) h1 h2)
      fun bs t u h => ⟨rfl, { h.2 with
        busyL := ?_
        key := ⟨?_, ?_, ?_⟩ }⟩
    · show (setBit t.status 2 true).getLsbD 0 = true
      rw [getLsbD_setBit _ _ _ _ (by omega)]
      exact h.2.busyL
    · simp only [State.storeKey, h.2.key.1]
    · simp only [State.storeKey, h.2.latchL, h.2.latchR]
    · show (setBit t.status 2 true).getLsbD 2 = (setBit u.status 2 true).getLsbD 2
      rw [getLsbD_setBit _ _ _ _ (by omega), getLsbD_setBit _ _ _ _ (by omega)]
      rfl
  | decodeIndex =>
    simp only [run, runDecodeIndex]
    refine Eng.Rel.bind (prologue_pair _ h) fun _ t u h => ?_
    rw [h.latchL, h.latchR]
    refine Eng.Rel.bind (checkRegions_pair h rfl rfl) fun _ t u h => ?_
    have hin := h.2.1 _ (show (⟨_, _⟩ : Region) ∈ _ from List.mem_singleton.mpr rfl)
    have hout := h.2.2
    refine Eng.Rel.bind (readIndex_pair h.1 hin fun b h1 h2 => inRegions_of (List.mem_singleton.mpr rfl) h1 h2)
      fun keyIv t u h => ?_
    have hl : (keyIv.1 ++ keyIv.2).length = 48 := by simp [h.1, h.2.1]
    rw [h.2.2.latchL, h.2.2.latchR]
    exact Eng.Rel.bind (memWrite_pair _ h.2.2 (by rw [hl]; exact hout)) fun _ t u h => ⟨rfl, h⟩
  | encryptIndex =>
    simp only [run, runEncryptIndex]
    refine Eng.Rel.bind (prologue_pair _ h) fun _ t u h => ?_
    rw [h.latchL, h.latchR]
    refine Eng.Rel.bind (checkRegions_pair h rfl rfl) fun _ t u h => ?_
    have hin1 := h.2.1 ⟨s.latch.auxAddr.toNat, s.latch.auxLen.toNat⟩ (by simp [Safety.inputs])
    have hin2 := h.2.1 ⟨s.latch.srcAddr.toNat, s.latch.srcLen.toNat⟩ (by simp [Safety.inputs])
    have hout := h.2.2
    refine Eng.Rel.bind (keyFromIndex_pair h.1 hin1 fun b h1 h2 =>
      inRegions_of (r := ⟨s.latch.auxAddr.toNat, s.latch.auxLen.toNat⟩) (by simp [Safety.inputs]) h1 h2)
      fun _ t u h => ?_
    exact encStream_pair h hin2 hout fun b h1 h2 =>
      inRegions_of (r := ⟨s.latch.srcAddr.toNat, s.latch.srcLen.toNat⟩) (by simp [Safety.inputs]) h1 h2
  | decryptIndex =>
    simp only [run, runDecryptIndex]
    refine Eng.Rel.bind (prologue_pair _ h) fun _ t u h => ?_
    rw [h.latchL, h.latchR]
    refine Eng.Rel.bind (raiseIf_pair _ _ h) fun _ t u h => ?_
    have hz := h.2
    simp only [badCiphertextLength, Bool.or_eq_false_iff, beq_eq_false_iff_ne, bne_eq_false_iff_eq] at hz
    have hz1 : s.latch.srcLen.toNat ≠ 0 := fun h0 => hz.1 (BitVec.eq_of_toNat_eq (by simpa using h0))
    rw [h.1.latchL, h.1.latchR]
    refine Eng.Rel.bind (checkRegions_pair h.1 rfl rfl) fun _ t u h => ?_
    have hin1 := h.2.1 ⟨s.latch.auxAddr.toNat, s.latch.auxLen.toNat⟩ (by simp [Safety.inputs])
    have hin2 := h.2.1 ⟨s.latch.srcAddr.toNat, s.latch.srcLen.toNat⟩ (by simp [Safety.inputs])
    have hout := h.2.2
    refine Eng.Rel.bind (keyFromIndex_pair h.1 hin1 fun b h1 h2 =>
      inRegions_of (r := ⟨s.latch.auxAddr.toNat, s.latch.auxLen.toNat⟩) (by simp [Safety.inputs]) h1 h2)
      fun _ t u h => ?_
    exact decStream_pair h hz1 hz.2 hin2 hout fun b h1 h2 =>
      inRegions_of (r := ⟨s.latch.srcAddr.toNat, s.latch.srcLen.toNat⟩) (by simp [Safety.inputs]) h1 h2
  | encryptRaw =>
    simp only [run, runEncryptRaw]
    refine Eng.Rel.bind (prologue_pair _ h) fun _ t u h => ?_
    rw [h.latchL, h.latchR]
    refine Eng.Rel.bind (raiseIf_pair _ _ h) fun _ t u h => ?_
    rw [h.1.latchL, h.1.latchR]
    refine Eng.Rel.bind (checkRegions_pair h.1 rfl rfl) fun _ t u h => ?_
    have hin1 := h.2.1 ⟨s.latch.auxAddr.toNat, 48⟩ (by simp [Safety.inputs])
    have hin2 := h.2.1 ⟨s.latch.srcAddr.toNat, s.latch.srcLen.toNat⟩ (by simp [Safety.inputs])
    have hout := h.2.2
    refine Eng.Rel.bind (keyFromRecord_pair h.1 hin1 fun b h1 h2 =>
      inRegions_of (r := ⟨s.latch.auxAddr.toNat, 48⟩) (by simp [Safety.inputs]) h1 h2)
      fun _ t u h => ?_
    exact encStream_pair h hin2 hout fun b h1 h2 =>
      inRegions_of (r := ⟨s.latch.srcAddr.toNat, s.latch.srcLen.toNat⟩) (by simp [Safety.inputs]) h1 h2
  | decryptRaw =>
    simp only [run, runDecryptRaw]
    refine Eng.Rel.bind (prologue_pair _ h) fun _ t u h => ?_
    rw [h.latchL, h.latchR]
    refine Eng.Rel.bind (raiseIf_pair _ _ h) fun _ t u h => ?_
    have hz := h.2
    simp only [badCiphertextLength, Bool.or_eq_false_iff, beq_eq_false_iff_ne, bne_eq_false_iff_eq] at hz
    have hz1 : s.latch.srcLen.toNat ≠ 0 := fun h0 => hz.1 (BitVec.eq_of_toNat_eq (by simpa using h0))
    rw [h.1.latchL, h.1.latchR]
    refine Eng.Rel.bind (raiseIf_pair _ _ h.1) fun _ t u h => ?_
    rw [h.1.latchL, h.1.latchR]
    refine Eng.Rel.bind (checkRegions_pair h.1 rfl rfl) fun _ t u h => ?_
    have hin1 := h.2.1 ⟨s.latch.auxAddr.toNat, 48⟩ (by simp [Safety.inputs])
    have hin2 := h.2.1 ⟨s.latch.srcAddr.toNat, s.latch.srcLen.toNat⟩ (by simp [Safety.inputs])
    have hout := h.2.2
    refine Eng.Rel.bind (keyFromRecord_pair h.1 hin1 fun b h1 h2 =>
      inRegions_of (r := ⟨s.latch.auxAddr.toNat, 48⟩) (by simp [Safety.inputs]) h1 h2)
      fun _ t u h => ?_
    exact decStream_pair h hz1 hz.2 hin2 hout fun b h1 h2 =>
      inRegions_of (r := ⟨s.latch.srcAddr.toNat, s.latch.srcLen.toNat⟩) (by simp [Safety.inputs]) h1 h2
  | fingerprint raw =>
    simp only [run, runFingerprint]
    refine Eng.Rel.bind (prologue_pair _ h) fun _ t u h => ?_
    rw [h.latchL, h.latchR]
    refine Eng.Rel.bind (checkRegions_pair h rfl rfl) fun _ t u h => ?_
    have hin := h.2.1 _ (show (⟨_, _⟩ : Region) ∈ _ from List.mem_singleton.mpr rfl)
    have hout := h.2.2
    rw [h.1.latchL, h.1.latchR]
    refine Eng.Rel.bind (memRead_pair h.1 hin fun b h1 h2 => inRegions_of (List.mem_singleton.mpr rfl) h1 h2)
      fun name t u h => ?_
    refine Eng.Rel.bind (raiseIf_pair _ _ h.2) fun _ t u h => ?_
    rw [h.1.latchL, h.1.latchR]
    exact Eng.Rel.bind (writeFingerprint_pair _ raw h.1 hout) fun _ t u h => ⟨rfl, h⟩
  | fingerprintCat k raw =>
    simp only [run, runFingerprintCat]
    refine Eng.Rel.bind (prologue_pair _ h) fun _ t u h => ?_
    refine Eng.Rel.bind (checkRegions_pair h rfl rfl) fun _ t u h => ?_
    rw [h.1.latchL, h.1.latchR, h.1.cfgL, h.1.cfgR]
    exact Eng.Rel.bind (writeFingerprint_pair _ raw h.1 h.2.2) fun _ t u h => ⟨rfl, h⟩
  | fingerprintAll raw =>
    simp only [run, runFingerprintAll]
    refine Eng.Rel.bind (prologue_pair _ h) fun _ t u h => ?_
    refine Eng.Rel.bind (checkRegions_pair h rfl rfl) fun _ t u h => ?_
    have hout := h.2.2
    refine Eng.Rel.bind (writeRecords_pair raw h.1 ?_) fun _ t u h => ⟨rfl, h⟩
    rw [Nat.zero_add, Nat.mul_comm]
    exact hout
  | catalogueName k =>
    simp only [run, runCatalogueName]
    refine Eng.Rel.bind (prologue_pair _ h) fun _ t u h => ?_
    rw [h.cfgL, h.cfgR]
    refine Eng.Rel.bind (checkRegions_pair h rfl rfl) fun _ t u h => ?_
    rw [h.1.latchL, h.1.latchR, h.1.cfgL, h.1.cfgR]
    refine Eng.Rel.bind (memWrite_pair _ h.1 h.2.2) fun _ t u h => ⟨?_, h⟩
    rw [h.cfgL, h.cfgR]

end

end Sys2Proof.Machine
end

