-- ==== Sys2Proof/Laws/Parts.lean ====
section
/-! SUPPORT. The parts of the commands with a silent host, in the terms of Safety: the checks that a runnable command
passes, the key reads, the streams as CBC functions, the fingerprint writes. -/

namespace Sys2Proof.Machine

/-! ### The checks -/

/-- A command that is admitted passes the prologue. -/
theorem prologue_admitted {i : Instr} {s : State} (h : Safety.Admitted i s) : prologue i s = .ok () s := by
  cases i <;> simp only [Safety.Admitted] at h <;>
    simp [prologue, Instr.opcode, Instr.arg, usesStaticKey, catCount, h]
  · exact decide_eq_false (by omega)
  · exact decide_eq_false (by omega)

/-- The region check of a runnable command notes the extent. -/
theorem checkRegions_runnable {i : Instr} {s : State} {n : Nat} (h : Safety.Runnable i s)
    (hn : Safety.outMax i s = some n) :
    checkRegions (Safety.inputs i s) (some n) s = .ok () { s with extent := n } :=
  checkRegions_ok h.inputsInRange (h.outputFits n hn) (h.noOverlap n hn) (by
    have := h.plain
    simpa only [Safety.PlainRegions, Safety.outExtent, hn, Option.getD_some] using this)

/-! ### The key -/

theorem readIndex_quiet {s : State} {keyIv : List Byte × List Byte} (h : s.env = [])
    (ha : s.latch.auxAddr.toNat + s.latch.auxLen.toNat ≤ addressSpace)
    (hr : ∀ b, s.latch.auxAddr.toNat ≤ b → b < s.latch.auxAddr.toNat + s.latch.auxLen.toNat →
      s.cfg.busErrAt b .read = false)
    (hd : decodeIndexBlob s.sk (s.mem.readRun s.latch.auxAddr.toNat s.latch.auxLen.toNat) = .ok keyIv) :
    ∃ t, readIndex s = .ok keyIv t ∧ t.rest = s.rest ∧ t.mem = s.mem ∧ t.work.written = s.work.written := by
  simp only [readIndex, memRead_quiet h ha hr, Eng.bind, hd]
  exact ⟨_, rfl, rfl, rfl, rfl⟩

theorem readIndex_quiet_error {s : State} {e : ErrCode} (h : s.env = [])
    (ha : s.latch.auxAddr.toNat + s.latch.auxLen.toNat ≤ addressSpace)
    (hr : ∀ b, s.latch.auxAddr.toNat ≤ b → b < s.latch.auxAddr.toNat + s.latch.auxLen.toNat →
      s.cfg.busErrAt b .read = false)
    (hd : decodeIndexBlob s.sk (s.mem.readRun s.latch.auxAddr.toNat s.latch.auxLen.toNat) = .error e) :
    ∃ t, readIndex s = .raised e 0 t ∧ t.rest = s.rest ∧ t.mem = s.mem ∧ t.work.written = s.work.written := by
  simp only [readIndex, memRead_quiet h ha hr, Eng.bind, hd]
  exact ⟨_, rfl, rfl, rfl, rfl⟩

/-- `t` is `s` with the cipher key and the IV in the working state. -/
structure Keyed (s t : State) (key iv : List Byte) : Prop where
  rest : t.rest = s.rest
  mem : t.mem = s.mem
  written : t.work.written = s.work.written
  key : t.work.key = key
  iv : t.work.iv = Block.ofBytes iv

theorem keyFromIndex_quiet {s : State} {key iv : List Byte} (h : s.env = [])
    (ha : s.latch.auxAddr.toNat + s.latch.auxLen.toNat ≤ addressSpace)
    (hr : ∀ b, s.latch.auxAddr.toNat ≤ b → b < s.latch.auxAddr.toNat + s.latch.auxLen.toNat →
      s.cfg.busErrAt b .read = false)
    (hd : decodeIndexBlob s.sk (s.mem.readRun s.latch.auxAddr.toNat s.latch.auxLen.toNat) = .ok (key, iv)) :
    ∃ t, keyFromIndex s = .ok () t ∧ Keyed s t key iv := by
  obtain ⟨t, ht, h1, h2, h3⟩ := readIndex_quiet h ha hr hd
  refine ⟨t.setKeyIv key iv, by simp only [keyFromIndex, ht, Eng.bind], h1, h2, h3, rfl, rfl⟩

theorem keyFromRecord_quiet {s : State} (h : s.env = []) (ha : s.latch.auxAddr.toNat + 48 ≤ addressSpace)
    (hr : ∀ b, s.latch.auxAddr.toNat ≤ b → b < s.latch.auxAddr.toNat + 48 → s.cfg.busErrAt b .read = false) :
    ∃ t, keyFromRecord s = .ok () t ∧
      Keyed s t (s.mem.readRun s.latch.auxAddr.toNat 32) (s.mem.readRun (s.latch.auxAddr.toNat + 32) 16) := by
  simp only [keyFromRecord, recordLength, memRead_quiet h ha hr, Eng.bind]
  refine ⟨_, rfl, rfl, rfl, rfl, ?_, ?_⟩
  · rw [Memory.readRun_add s.mem _ 32 16]
    simp [State.setKeyIv]
  · rw [Memory.readRun_add s.mem _ 32 16]
    simp [State.setKeyIv]

/-! ### The streams -/

theorem length_cbcEncrypt_blocks (key iv p : List Byte) :
    cbcEncrypt key iv p =
      cbcEncryptBlocks (keyExpansion key) (p.length / 16 + 1) (Block.ofBytes iv) (p ++ padBytes p.length) := by
  have : (pad p).length / 16 = p.length / 16 + 1 := by
    simp only [pad, List.length_append, length_padBytes]
    omega
  simp only [cbcEncrypt, this]
  rfl

/-- What the streams need of their regions, from what a runnable command is given. -/
theorem streamOk_of {s t : State} {n m : Nat} (hrest : t.rest = s.rest) (hmem : t.mem = s.mem) (he : s.env = [])
    (hwf : s.mem.wf = true) (hs : s.latch.srcAddr.toNat + n ≤ addressSpace)
    (hd : s.latch.dstAddr.toNat + m ≤ addressSpace)
    (hr : ∀ b, s.latch.srcAddr.toNat ≤ b → b < s.latch.srcAddr.toNat + n → s.cfg.busErrAt b .read = false)
    (hw : ∀ b, s.latch.dstAddr.toNat ≤ b → b < s.latch.dstAddr.toNat + m → s.cfg.busErrAt b .write = false)
    (hov : ¬(0 < n ∧ 0 < m ∧ s.latch.srcAddr.toNat < s.latch.dstAddr.toNat + m ∧
      s.latch.dstAddr.toNat < s.latch.srcAddr.toNat + n)) : StreamOk t 0 n m where
  env := (State.env_of_rest hrest).trans he
  memWf := by rw [hmem]; exact hwf
  srcRange := by rw [State.latch_of_rest hrest]; exact hs
  dstRange := by rw [State.latch_of_rest hrest]; exact hd
  reads := by rw [State.latch_of_rest hrest, State.cfg_of_rest hrest]; exact hr
  writes := by rw [State.latch_of_rest hrest, State.cfg_of_rest hrest]; exact hw
  apart := by
    rw [State.latch_of_rest hrest]
    intro b h1 h2 h3
    omega

/-- `EncStream` writes CBC encryption (R99). -/
theorem encStream_quiet {s : State}
    (h : StreamOk s 0 s.latch.srcLen.toNat ((s.latch.srcLen.toNat / 16 + 1) * 16)) :
    ∃ t, encStream s = .ok ((s.latch.srcLen.toNat / 16 + 1) * 16) t ∧
      ∀ key iv, s.work.key = key → s.work.iv = Block.ofBytes iv →
        Wrote s t s.latch.dstAddr.toNat
          (cbcEncrypt key iv (s.mem.readRun s.latch.srcAddr.toNat s.latch.srcLen.toNat)) := by
  have h' : StreamOk s.startStream 0
      (16 * (s.latch.srcLen.toNat / 16) + s.startStream.latch.srcLen.toNat % 16)
      (16 * (s.latch.srcLen.toNat / 16) + 16) := by
    have e1 : 16 * (s.latch.srcLen.toNat / 16) + s.startStream.latch.srcLen.toNat % 16 = s.latch.srcLen.toNat :=
      Nat.div_add_mod _ _
    have e2 : 16 * (s.latch.srcLen.toNat / 16) + 16 = (s.latch.srcLen.toNat / 16 + 1) * 16 := by omega
    rw [e1, e2]
    exact { h with }
  obtain ⟨t, ht, hw⟩ := encLoop_quiet h'
  refine ⟨t, ?_, fun key iv hk hi => ?_⟩
  · simp only [encStream, ht, Eng.bind, State.latch_of_rest hw.rest]
    rfl
  · rw [length_cbcEncrypt_blocks, Memory.length_readRun, ← hk, ← hi]
    have e1 : 16 * (s.latch.srcLen.toNat / 16) + s.startStream.latch.srcLen.toNat % 16 = s.latch.srcLen.toNat :=
      Nat.div_add_mod _ _
    rw [e1] at hw
    exact ⟨hw.rest, hw.mem, hw.written⟩

/-- The buffer inverse CBC gives for the source region. -/
theorem decStream_quiet {s : State} {key iv plain : List Byte} (h0 : s.latch.srcLen.toNat ≠ 0)
    (h16 : s.latch.srcLen.toNat % 16 = 0)
    (h : StreamOk s 0 s.latch.srcLen.toNat (s.latch.srcLen.toNat - 1))
    (hk : s.work.key = key) (hi : s.work.iv = Block.ofBytes iv)
    (hd : cbcDecrypt key iv (s.mem.readRun s.latch.srcAddr.toNat s.latch.srcLen.toNat) = some plain) :
    ∃ t, decStream s = .ok plain.length t ∧ Wrote s t s.latch.dstAddr.toNat plain := by
  obtain ⟨m, hm⟩ : ∃ m, s.latch.srcLen.toNat = 16 * m + 16 := ⟨s.latch.srcLen.toNat / 16 - 1, by omega⟩
  simp only [cbcDecrypt, Memory.length_readRun, unpad] at hd
  rw [show s.latch.srcLen.toNat / 16 = m + 1 by omega] at hd
  have h' : StreamOk s.startStream 0 (16 * m + 16) (16 * m + 15) := by
    have := h
    rw [hm] at this
    exact { this with }
  have hdd : cbcDecryptBlocks s.startStream.work.rk (m + 1) s.startStream.work.chain
      (s.startStream.mem.readRun (s.startStream.latch.srcAddr.toNat + 0) (16 * m + 16)) =
      cbcDecryptBlocks (keyExpansion key) (m + 1) (Block.ofBytes iv)
        (s.mem.readRun s.latch.srcAddr.toNat s.latch.srcLen.toNat) := by
    rw [← hk, ← hi, hm]
    rfl
  cases hp : padLength (cbcDecryptBlocks (keyExpansion key) (m + 1) (Block.ofBytes iv)
      (s.mem.readRun s.latch.srcAddr.toNat s.latch.srcLen.toNat)) with
  | none => rw [hp] at hd; cases hd
  | some n =>
    rw [hp] at hd
    obtain ⟨t, ht, hw⟩ := decLoop_quiet (n := n) h' (by rw [hdd]; exact hp)
    rw [hdd] at hw
    cases hd
    have hl := length_cbcDecryptBlocks (keyExpansion key) (m + 1) (Block.ofBytes iv)
      (s.mem.readRun s.latch.srcAddr.toNat s.latch.srcLen.toNat)
    have hb := padLength_bounds hp
    refine ⟨t, ?_, ?_⟩
    · simp only [decStream, show s.latch.srcLen.toNat / 16 - 1 = m by omega, ht, Eng.bind,
        State.latch_of_rest hw.rest]
      congr 1
      rw [List.length_take, hl]
      show s.latch.srcLen.toNat - n = _
      omega
    · rw [hl, show 16 * (m + 1) - n = 16 * m + 16 - n by omega]
      exact ⟨hw.rest, hw.mem, hw.written⟩

/-- `DecStream` on invalid final padding: the plaintext of every block but the last is written, then PADDING. -/
theorem decStream_quiet_padding {s : State} {key iv : List Byte} (h0 : s.latch.srcLen.toNat ≠ 0)
    (h16 : s.latch.srcLen.toNat % 16 = 0)
    (h : StreamOk s 0 s.latch.srcLen.toNat (s.latch.srcLen.toNat - 1))
    (hk : s.work.key = key) (hi : s.work.iv = Block.ofBytes iv)
    (hd : cbcDecrypt key iv (s.mem.readRun s.latch.srcAddr.toNat s.latch.srcLen.toNat) = none) :
    ∃ t bs, decStream s = .raised .padding 0 t ∧ bs.length = s.latch.srcLen.toNat - 16 ∧
      Wrote s t s.latch.dstAddr.toNat bs := by
  obtain ⟨m, hm⟩ : ∃ m, s.latch.srcLen.toNat = 16 * m + 16 := ⟨s.latch.srcLen.toNat / 16 - 1, by omega⟩
  simp only [cbcDecrypt, Memory.length_readRun, unpad] at hd
  rw [show s.latch.srcLen.toNat / 16 = m + 1 by omega] at hd
  have h' : StreamOk s.startStream 0 (16 * m + 16) (16 * m + 15) := by
    have := h
    rw [hm] at this
    exact { this with }
  have hdd : cbcDecryptBlocks s.startStream.work.rk (m + 1) s.startStream.work.chain
      (s.startStream.mem.readRun (s.startStream.latch.srcAddr.toNat + 0) (16 * m + 16)) =
      cbcDecryptBlocks (keyExpansion key) (m + 1) (Block.ofBytes iv)
        (s.mem.readRun s.latch.srcAddr.toNat s.latch.srcLen.toNat) := by
    rw [← hk, ← hi, hm]
    rfl
  cases hp : padLength (cbcDecryptBlocks (keyExpansion key) (m + 1) (Block.ofBytes iv)
      (s.mem.readRun s.latch.srcAddr.toNat s.latch.srcLen.toNat)) with
  | some n => rw [hp] at hd; cases hd
  | none =>
    obtain ⟨t, ht, hw⟩ := decLoop_quiet_padding h' (by rw [hdd]; exact hp)
    refine ⟨t, _, ?_, ?_, hw.rest, hw.mem, hw.written⟩
    · simp only [decStream, show s.latch.srcLen.toNat / 16 - 1 = m by omega, ht, Eng.bind]
    · rw [List.length_take, length_cbcDecryptBlocks]
      omega

/-- `EncStream` where byte `j` is the first of the source that gets an error response (20_memory.md R45). -/
theorem encStream_quiet_busRead {s : State} {j : Nat} (hs : s.latch.srcAddr.toNat + s.latch.srcLen.toNat ≤ addressSpace)
    (hj : j < s.latch.srcLen.toNat) (h : StreamOk s 0 j (16 * (j / 16)))
    (hbad : s.cfg.busErrAt (s.latch.srcAddr.toNat + j) .read = true) :
    ∃ t bs, encStream s = .raised .bus (s.latch.srcAddr.toNat + j) t ∧ bs.length = 16 * (j / 16) ∧
      Wrote s t s.latch.dstAddr.toNat bs := by
  have e := Nat.div_add_mod s.latch.srcLen.toNat 16
  obtain ⟨t, bs, ht, hl, hw⟩ := encLoop_quiet_busRead (s := s.startStream) (full := s.latch.srcLen.toNat / 16) (off := 0)
    (by simp only [State.startStream]; omega) (by simp only [State.startStream]; omega) { h with } hbad
  exact ⟨t, bs, by simp only [encStream, ht, Eng.bind]; rfl, hl, hw.rest, hw.mem, hw.written⟩

/-- `EncStream` where byte `j` is the first of the output that gets an error response (R46). -/
theorem encStream_quiet_busWrite {s : State} {j : Nat}
    (hd : s.latch.dstAddr.toNat + (s.latch.srcLen.toNat / 16 + 1) * 16 ≤ addressSpace)
    (hj : j < (s.latch.srcLen.toNat / 16 + 1) * 16) (h : StreamOk s 0 s.latch.srcLen.toNat j)
    (hbad : s.cfg.busErrAt (s.latch.dstAddr.toNat + j) .write = true) :
    ∃ t bs, encStream s = .raised .bus (s.latch.dstAddr.toNat + j) t ∧ bs.length = j ∧
      Wrote s t s.latch.dstAddr.toNat bs := by
  have e : 16 * (s.latch.srcLen.toNat / 16) + s.startStream.latch.srcLen.toNat % 16 = s.latch.srcLen.toNat :=
    Nat.div_add_mod _ _
  obtain ⟨t, bs, ht, hl, hw⟩ := encLoop_quiet_busWrite (s := s.startStream) (full := s.latch.srcLen.toNat / 16)
    (off := 0) (by simp only [State.startStream]; omega) (by omega) (by rw [e]; exact { h with }) hbad
  exact ⟨t, bs, by simp only [encStream, ht, Eng.bind]; rfl, hl, hw.rest, hw.mem, hw.written⟩

/-- `DecStream` where byte `j` is the first of the source that gets an error response. -/
theorem decStream_quiet_busRead {s : State} {j : Nat} (h16 : s.latch.srcLen.toNat % 16 = 0)
    (hs : s.latch.srcAddr.toNat + s.latch.srcLen.toNat ≤ addressSpace)
    (hj : j < s.latch.srcLen.toNat) (h : StreamOk s 0 j (16 * (j / 16)))
    (hbad : s.cfg.busErrAt (s.latch.srcAddr.toNat + j) .read = true) :
    ∃ t bs, decStream s = .raised .bus (s.latch.srcAddr.toNat + j) t ∧ bs.length = 16 * (j / 16) ∧
      Wrote s t s.latch.dstAddr.toNat bs := by
  obtain ⟨t, bs, ht, hl, hw⟩ := decLoop_quiet_busRead (s := s.startStream) (more := s.latch.srcLen.toNat / 16 - 1)
    (off := 0) (by simp only [State.startStream]; omega) (by omega) { h with } hbad
  exact ⟨t, bs, by simp only [decStream, ht, Eng.bind]; rfl, hl, hw.rest, hw.mem, hw.written⟩

/-- `DecStream` of a ciphertext that decrypts, where byte `j` is the first of the output that gets an error
response. -/
theorem decStream_quiet_busWrite {s : State} {key iv plain : List Byte} {j : Nat} (h0 : s.latch.srcLen.toNat ≠ 0)
    (h16 : s.latch.srcLen.toNat % 16 = 0)
    (hd : s.latch.dstAddr.toNat + (s.latch.srcLen.toNat - 1) ≤ addressSpace)
    (hj : j < plain.length) (h : StreamOk s 0 s.latch.srcLen.toNat j)
    (hk : s.work.key = key) (hi : s.work.iv = Block.ofBytes iv)
    (hp : cbcDecrypt key iv (s.mem.readRun s.latch.srcAddr.toNat s.latch.srcLen.toNat) = some plain)
    (hbad : s.cfg.busErrAt (s.latch.dstAddr.toNat + j) .write = true) :
    ∃ t bs, decStream s = .raised .bus (s.latch.dstAddr.toNat + j) t ∧ bs.length = j ∧
      Wrote s t s.latch.dstAddr.toNat bs := by
  obtain ⟨m, hm⟩ : ∃ m, s.latch.srcLen.toNat = 16 * m + 16 := ⟨s.latch.srcLen.toNat / 16 - 1, by omega⟩
  simp only [cbcDecrypt, Memory.length_readRun, unpad] at hp
  rw [show s.latch.srcLen.toNat / 16 = m + 1 by omega, hm, ← hk, ← hi] at hp
  split at hp
  · rename_i n hn
    cases hp
    rw [List.length_take, length_cbcDecryptBlocks] at hj
    obtain ⟨t, bs, ht, hl, hw⟩ := decLoop_quiet_busWrite (s := s.startStream) (more := m) (off := 0) (n := n)
      (by simp only [State.startStream]; omega) (by omega) (by rw [← hm]; exact { h with }) hn hbad
    refine ⟨t, bs, ?_, hl, hw.rest, hw.mem, hw.written⟩
    simp only [decStream, show s.latch.srcLen.toNat / 16 - 1 = m by omega, ht, Eng.bind]
    rfl
  · cases hp

/-! ### The cipher commands up to their streams -/

/-- The ciphertext length that a runnable DECRYPT_* has. -/
theorem badCiphertextLength_eq_false {l : Word} (h0 : l.toNat ≠ 0) (h16 : l.toNat % 16 = 0) :
    badCiphertextLength l = false := by
  have : l ≠ 0#32 := by rintro rfl; exact h0 rfl
  simp [badCiphertextLength, this, h16]

/-- A runnable ENCRYPT_* whose key is read is its stream, run under that key. -/
theorem run_encrypt_keyed {i : Instr} {s : State} {key iv : List Byte} (hi : i = .encryptIndex ∨ i = .encryptRaw)
    (he : s.env = []) (hr : Safety.Runnable i s) (hk : Safety.Keys i s key iv)
    (hx : ∀ a, s.latch.auxAddr.toNat ≤ a → a < s.latch.auxAddr.toNat + s.latch.auxLen.toNat →
      s.cfg.busErrAt a .read = false) :
    ∃ t, Keyed s t key iv ∧ run i s = encStream t := by
  rcases hi with rfl | rfl
  · obtain ⟨t, ht, h⟩ := keyFromIndex_quiet (s := { s with extent := encryptExtent s.latch.srcLen }) he
      (hr.inputsInRange ⟨_, _⟩ (List.mem_cons_self ..)) hx hk
    refine ⟨t, ⟨h.rest, h.mem, h.written, h.key, h.iv⟩, ?_⟩
    have hc := checkRegions_runnable hr rfl
    simp only [Safety.inputs] at hc
    simp only [run, runEncryptIndex, prologue_admitted hr.admitted, Eng.bind, Latch.aux, Latch.src, encryptExtent]
      at ht ⊢
    rw [hc]
    simp only [ht]
  · have hl : s.latch.auxLen.toNat = 48 := hr.admitted
    rw [hl] at hx
    obtain ⟨t, ht, h⟩ := keyFromRecord_quiet (s := { s with extent := encryptExtent s.latch.srcLen }) he
      (hr.inputsInRange ⟨_, _⟩ (List.mem_cons_self ..)) hx
    refine ⟨t, ⟨h.rest, h.mem, h.written, hk.1 ▸ h.key, hk.2 ▸ h.iv⟩, ?_⟩
    have hc := checkRegions_runnable hr rfl
    simp only [Safety.inputs] at hc
    simp only [run, runEncryptRaw, prologue_admitted hr.admitted, raiseIf, hl, recordLength, bne_self_eq_false,
      Bool.false_eq_true, if_false, Eng.bind, Latch.record, Latch.src, encryptExtent] at ht ⊢
    rw [hc]
    simp only [ht]

/-- A runnable DECRYPT_* whose key is read is its stream, run under that key. -/
theorem run_decrypt_keyed {i : Instr} {s : State} {key iv : List Byte} (hi : i = .decryptIndex ∨ i = .decryptRaw)
    (he : s.env = []) (hr : Safety.Runnable i s) (hk : Safety.Keys i s key iv)
    (hx : ∀ a, s.latch.auxAddr.toNat ≤ a → a < s.latch.auxAddr.toNat + s.latch.auxLen.toNat →
      s.cfg.busErrAt a .read = false) :
    ∃ t, Keyed s t key iv ∧ run i s = decStream t := by
  rcases hi with rfl | rfl
  · obtain ⟨-, h0, h16⟩ := hr.admitted
    obtain ⟨t, ht, h⟩ := keyFromIndex_quiet (s := { s with extent := decryptExtent s.latch.srcLen }) he
      (hr.inputsInRange ⟨_, _⟩ (List.mem_cons_self ..)) hx hk
    refine ⟨t, ⟨h.rest, h.mem, h.written, h.key, h.iv⟩, ?_⟩
    have hc := checkRegions_runnable hr rfl
    simp only [Safety.inputs] at hc
    simp only [run, runDecryptIndex, prologue_admitted hr.admitted, raiseIf, badCiphertextLength_eq_false h0 h16,
      Bool.false_eq_true, if_false, Eng.bind, Latch.aux, Latch.src, decryptExtent] at ht ⊢
    rw [hc]
    simp only [ht]
  · obtain ⟨h0, h16, hl⟩ := hr.admitted
    rw [hl] at hx
    obtain ⟨t, ht, h⟩ := keyFromRecord_quiet (s := { s with extent := decryptExtent s.latch.srcLen }) he
      (hr.inputsInRange ⟨_, _⟩ (List.mem_cons_self ..)) hx
    refine ⟨t, ⟨h.rest, h.mem, h.written, hk.1 ▸ h.key, hk.2 ▸ h.iv⟩, ?_⟩
    have hc := checkRegions_runnable hr rfl
    simp only [Safety.inputs] at hc
    simp only [run, runDecryptRaw, prologue_admitted hr.admitted, raiseIf, badCiphertextLength_eq_false h0 h16, hl,
      recordLength, bne_self_eq_false, Bool.false_eq_true, if_false, Eng.bind, Latch.record, Latch.src, decryptExtent]
      at ht ⊢
    rw [hc]
    simp only [ht]

/-! ### The fingerprints -/

theorem writeFingerprint_quiet {s : State} {a : Nat} (name : List Byte) (raw : Bool) (h : s.env = [])
    (ha : a + fingerprintWidth raw ≤ addressSpace)
    (hw : ∀ b, a ≤ b → b < a + fingerprintWidth raw → s.cfg.busErrAt b .write = false) :
    ∃ t, writeFingerprint name raw a s = .ok () t ∧ Wrote s t a (fpOut (fingerprint s.sk name) raw) := by
  have hl := length_fpOut (length_hashBytes (s.hashed name).work.h) raw
  refine ⟨_, memWrite_quiet (s := s.hashed name) _ h (by rw [hl]; exact ha) (by rw [hl]; exact hw), rfl, rfl, rfl⟩

/-- The bytes of the records of `n` catalogue entries from `k` on. -/
def records (c : Config) (sk : List Byte) (raw : Bool) (n k : Nat) : List Byte :=
  match n with
  | 0 => []
  | n + 1 => fpOut (fingerprint sk (c.name k)) raw ++ records c sk raw n (k + 1)

theorem length_records (c : Config) (sk : List Byte) (raw : Bool) (n k : Nat) :
    (records c sk raw n k).length = fingerprintWidth raw * n := by
  induction n generalizing k with
  | zero => rfl
  | succ n ih =>
    have := length_fpOut (length_hashBytes (shaState (fpMsg sk (c.name k)))) raw
    simp only [records, List.length_append, ih, fingerprint, sha256, this]
    rw [Nat.mul_add]
    omega

theorem writeRecords_quiet {s : State} {n k : Nat} (raw : Bool) (h : s.env = [])
    (ha : s.latch.dstAddr.toNat + fingerprintWidth raw * (k + n) ≤ addressSpace)
    (hw : ∀ b, s.latch.dstAddr.toNat ≤ b → b < s.latch.dstAddr.toNat + fingerprintWidth raw * (k + n) →
      s.cfg.busErrAt b .write = false) :
    ∃ t, writeRecords raw n k s = .ok () t ∧
      Wrote s t (s.latch.dstAddr.toNat + fingerprintWidth raw * k) (records s.cfg s.sk raw n k) := by
  induction n generalizing k s with
  | zero => exact ⟨s, rfl, rfl, rfl, by simp [records, addresses]⟩
  | succ n ih =>
    have e1 : fingerprintWidth raw * (k + (n + 1)) = fingerprintWidth raw * k + fingerprintWidth raw +
        fingerprintWidth raw * n := by rw [Nat.mul_add, Nat.mul_add]; omega
    obtain ⟨u, hu, huw⟩ := writeFingerprint_quiet (a := s.latch.dstAddr.toNat + fingerprintWidth raw * k)
      (s.cfg.name k) raw h (by omega) fun b h1 h2 => hw b (by omega) (by omega)
    have hul := State.latch_of_rest huw.rest
    have huc := State.cfg_of_rest huw.rest
    have hus : u.sk = s.sk := by
      simp only [State.sk, State.skeyRam_of_rest huw.rest, State.skeyLen_of_rest huw.rest]
    obtain ⟨t, ht, htw⟩ := ih (s := u) (k := k + 1) ((State.env_of_rest huw.rest).trans h)
      (by rw [hul, show k + 1 + n = k + (n + 1) by omega]; exact ha)
      (by rw [hul, huc, show k + 1 + n = k + (n + 1) by omega]; exact hw)
    refine ⟨t, by simp only [writeRecords, hu, Eng.bind, ht], ?_⟩
    have hl := length_fpOut (length_hashBytes (shaState (fpMsg s.sk (s.cfg.name k)))) raw
    rw [hul, huc, hus, Nat.mul_add, Nat.mul_one, ← Nat.add_assoc] at htw
    refine huw.trans ?_
    simp only [fingerprint, sha256, hl]
    exact htw

/-- A fingerprint whose output has byte `j` as its first that gets an error response. -/
theorem writeFingerprint_quiet_bus {s : State} {a j : Nat} (name : List Byte) (raw : Bool) (h : s.env = [])
    (ha : a + fingerprintWidth raw ≤ addressSpace) (hj : j < fingerprintWidth raw)
    (hok : ∀ i, i < j → s.cfg.busErrAt (a + i) .write = false) (hbad : s.cfg.busErrAt (a + j) .write = true) :
    ∃ t bs, writeFingerprint name raw a s = .raised .bus (a + j) t ∧ bs.length = j ∧ Wrote s t a bs := by
  have hl := length_fpOut (length_hashBytes (s.hashed name).work.h) raw
  exact ⟨_, _, memWrite_quiet_bus (s := s.hashed name) _ h (by rw [hl]; exact ha) (by rw [hl]; exact hj) hok hbad,
    by rw [List.length_take, hl]; omega, rfl, rfl, rfl⟩

/-- The table of fingerprints where byte `j` of it is the first that gets an error response. -/
theorem writeRecords_quiet_bus {s : State} {n k j : Nat} (raw : Bool) (h : s.env = [])
    (ha : s.latch.dstAddr.toNat + fingerprintWidth raw * (k + n) ≤ addressSpace) (hj : j < fingerprintWidth raw * n)
    (hok : ∀ i, i < j → s.cfg.busErrAt (s.latch.dstAddr.toNat + fingerprintWidth raw * k + i) .write = false)
    (hbad : s.cfg.busErrAt (s.latch.dstAddr.toNat + fingerprintWidth raw * k + j) .write = true) :
    ∃ t bs, writeRecords raw n k s = .raised .bus (s.latch.dstAddr.toNat + fingerprintWidth raw * k + j) t ∧
      bs.length = j ∧ Wrote s t (s.latch.dstAddr.toNat + fingerprintWidth raw * k) bs := by
  induction n generalizing k j s with
  | zero => simp at hj
  | succ n ih =>
    have e1 : fingerprintWidth raw * (k + (n + 1)) = fingerprintWidth raw * k + fingerprintWidth raw +
        fingerprintWidth raw * n := by rw [Nat.mul_add, Nat.mul_add]; omega
    have e2 : fingerprintWidth raw * (k + 1) = fingerprintWidth raw * k + fingerprintWidth raw := Nat.mul_succ _ _
    by_cases hjw : j < fingerprintWidth raw
    · obtain ⟨t, bs, ht, hl, hw⟩ := writeFingerprint_quiet_bus (s.cfg.name k) raw h (by omega) hjw hok hbad
      exact ⟨t, bs, by simp only [writeRecords, ht, Eng.bind], hl, hw⟩
    · obtain ⟨l, rfl⟩ : ∃ l, j = fingerprintWidth raw + l := ⟨j - fingerprintWidth raw, by omega⟩
      obtain ⟨u, hu, huw⟩ := writeFingerprint_quiet (a := s.latch.dstAddr.toNat + fingerprintWidth raw * k)
        (s.cfg.name k) raw h (by omega) fun b h1 h2 => by
          have := hok (b - (s.latch.dstAddr.toNat + fingerprintWidth raw * k)) (by omega)
          rwa [Nat.add_sub_cancel' h1] at this
      have hul := State.latch_of_rest huw.rest
      have huc := State.cfg_of_rest huw.rest
      have hlen : (fpOut (fingerprint s.sk (s.cfg.name k)) raw).length = fingerprintWidth raw :=
        length_fpOut (length_hashBytes _) raw
      obtain ⟨t, bs, ht, hl, htw⟩ := ih (s := u) (k := k + 1) (j := l) ((State.env_of_rest huw.rest).trans h)
        (by rw [hul, show k + 1 + n = k + (n + 1) by omega]; exact ha)
        (by rw [Nat.mul_succ] at hj; omega)
        (fun i hi => by
          rw [hul, huc, e2]
          simpa only [Nat.add_assoc] using hok (fingerprintWidth raw + i) (by omega))
        (by rw [hul, huc, e2]; simpa only [Nat.add_assoc] using hbad)
      refine ⟨t, _ ++ bs, ?_, by rw [List.length_append, hlen, hl],
        huw.trans (by rw [hlen]; simpa only [hul, e2, Nat.add_assoc] using htw)⟩
      simp only [writeRecords, hu, Eng.bind, ht, hul, e2, Nat.add_assoc]

/-! ### The ends -/

/-- A run that wrote `bs` from `a` on and succeeded. -/
theorem conclude_ok_wrote {s t : State} {n a : Nat} {bs : List Byte} (he : s.env = []) (hwf : s.mem.wf = true)
    (h : Wrote s t a bs) (hn : n < 2 ^ 32) (ha : a + bs.length ≤ addressSpace) :
    ∃ u, conclude (.ok n t) = .next u ∧ Safety.Completes s u .ok n 0 ∧ Safety.KeyKept s u ∧
      Safety.Stored s.mem u.mem a bs := by
  refine ⟨_, conclude_ok_quiet n ((State.env_of_rest h.rest).trans he),
    completes_finish .ok h.rest hn (by omega) he, keyKept_finish _ _ _ h.rest, fun b => ?_⟩
  show t.mem.read b = _
  rw [h.mem, Memory.read_writeRun bs hwf ha]

/-- A run that wrote `bs` from `a` on and raised an error: the bytes are scrubbed. -/
theorem conclude_raised_wrote {s t : State} {e : ErrCode} {ea a : Nat} {bs : List Byte} (hf : Safety.Fresh s)
    (hwf : s.mem.wf = true) (h : Wrote s t a bs) (hea : ea < 2 ^ 32) (ha : a + bs.length ≤ addressSpace) :
    ∃ u, conclude (.raised e ea t) = .next u ∧ Safety.Completes s u e 0 (if e = .bus then ea else 0) ∧
      Safety.KeyKept s u ∧ Safety.Stored s.mem u.mem a (List.replicate bs.length 0) := by
  refine ⟨_, conclude_raised_quiet e ea ((State.env_of_rest h.rest).trans hf.1),
    completes_finish e h.rest (by omega) (by split <;> omega) hf.1, keyKept_finish _ _ _ h.rest, fun b => ?_⟩
  show (zeroAll t.work.written t.mem).read b = _
  rw [h.written, hf.2, List.nil_append, zeroAll_addresses _ _ _ ha, h.mem,
    Memory.read_writeRun _ (Memory.wf_writeRun _ hwf ha) (by simpa using ha), List.length_replicate]
  split
  · rfl
  · rename_i hb
    rw [Memory.read_writeRun _ hwf ha, if_neg hb]

end Sys2Proof.Machine
end

