-- ==== Sys2Proof/Laws/PerInstr.lean ====
section
/-! SUPPORT. Facts about every command as syntax, one lemma per constructor. -/

namespace Sys2Proof.Laws.EncodedFields

/-- The fields of an encoded well-formed command (30_encoding.md R60, R63, R72): OP, ARG and RAW are the command's,
RSV is 0, and the word is legal. -/
def Statement (i : Instr) : Prop :=
  i.wf = true →
    opField (encode i) = i.opcode ∧ argField (encode i) = i.arg ∧ rawField (encode i) = i.raw
      ∧ rsvField (encode i) = 0 ∧ legalWord (encode i) = true

/-- Checked for every index of the field. -/
theorem cat_all : ∀ k < 256, ∀ raw : Bool,
    (opField (encode (.fingerprintCat k raw)) = 0x08 ∧ argField (encode (.fingerprintCat k raw)) = k
      ∧ rawField (encode (.fingerprintCat k raw)) = raw ∧ rsvField (encode (.fingerprintCat k raw)) = 0
      ∧ legalWord (encode (.fingerprintCat k raw)) = true) := by decide +kernel

/-- Checked for every index of the field. -/
theorem name_all : ∀ k < 256,
    (opField (encode (.catalogueName k)) = 0x0A ∧ argField (encode (.catalogueName k)) = k
      ∧ rawField (encode (.catalogueName k)) = false ∧ rsvField (encode (.catalogueName k)) = 0
      ∧ legalWord (encode (.catalogueName k)) = true) := by decide +kernel

theorem loadSkey : Statement .loadSkey := by unfold Statement; decide

theorem decodeIndex : Statement .decodeIndex := by unfold Statement; decide

theorem encryptIndex : Statement .encryptIndex := by unfold Statement; decide

theorem decryptIndex : Statement .decryptIndex := by unfold Statement; decide

theorem encryptRaw : Statement .encryptRaw := by unfold Statement; decide

theorem decryptRaw : Statement .decryptRaw := by unfold Statement; decide

theorem fingerprint (raw : Bool) : Statement (.fingerprint raw) := by cases raw <;> (unfold Statement; decide)

theorem fingerprintCat (k : Nat) (raw : Bool) : Statement (.fingerprintCat k raw) := fun h =>
  cat_all k (of_decide_eq_true h) raw

theorem fingerprintAll (raw : Bool) : Statement (.fingerprintAll raw) := by cases raw <;> (unfold Statement; decide)

theorem catalogueName (k : Nat) : Statement (.catalogueName k) := fun h => name_all k (of_decide_eq_true h)

end Sys2Proof.Laws.EncodedFields
end

