-- ==== Sys2Proof/Tests/Slice0.lean ====
section
/-! SUPPORT. Our own tests: the well-formedness smoke tests, words written out from the spec's encoding, one or two
small runs of each command on values of 95_test_vectors.md, and a witness of the hypotheses of every statement. -/

namespace Sys2Proof.Tests

open Sys2Proof.Machine Sys2Proof.Safety

set_option Elab.async false

/-! ### The test instance and its states (95_test_vectors.md section 2) -/

/-- The test instance, with the accesses `errs` answered by an error. -/
def cfg (errs : List BusErrRange) : Config := ⟨0x40000000, 256, placeholderCatalogue, errs, true, []⟩

/-- TK. -/
def tk : List Byte := [0x01, 0x23, 0x45, 0x67, 0x89, 0xAB, 0xCD]

/-- KEY. -/
def key : List Byte := (List.range 32).map (BitVec.ofNat 8)

/-- IV. -/
def iv : List Byte := (List.range 16).map fun n => BitVec.ofNat 8 (0xF0 + n)

/-- IDX-1. -/
def idx1 : List Byte :=
  [0xAB, 0xBA, 0x01, 0x00, 0x11, 0x23, 0x65, 0x67, 0x79, 0x5A, 0x3F, 0xF2, 0xD7, 0xB0, 0x91, 0x7E,
   0x53, 0x34, 0xFB, 0xD8, 0xB9, 0x9A, 0x77, 0x54, 0xCD, 0x00, 0x21, 0x46, 0x63, 0x8C, 0xAD, 0xCA,
   0x09, 0x2A, 0x4F, 0x6C, 0x85, 0xA6, 0xC3, 0x0E, 0x33, 0x54, 0x75, 0x9A, 0xBF, 0xD8, 0x17, 0x34,
   0x5D, 0x7E, 0x93, 0xB0, 0xD1, 0x1C, 0x3D, 0x5A]

/-- Memory with TK at 0x1000, IDX-1 at 0x2000, `bs` at 0x3000 and KEY, IV at 0x5000. -/
def image (bs : List Byte) : Memory :=
  Memory.writeRun (Memory.writeRun (Memory.writeRun (Memory.writeRun [] 0x1000 tk) 0x2000 idx1) 0x3000 bs) 0x5000
    (key ++ iv)

/-- A core that has just accepted `w` with the operands of `l`, before LOAD_SKEY. -/
def fresh (w : Word) (l : Latch) (m : Memory) : State :=
  { State.reset with cfg := cfg [], status := 1, cmd := w, latch := { l with cmd := w }, mem := m }

/-- The same after LOAD_SKEY of TK. -/
def loaded (w : Word) (l : Latch) (m : Memory) : State :=
  { fresh w l m with status := 5, skeyLen := 7, skeyRam := tk ++ List.replicate 249 0 }

/-- The operands: the source, the auxiliary and the destination region. -/
def ops (src srcLen aux auxLen dst dstLen : Nat) : Latch :=
  ⟨0, BitVec.ofNat 32 src, BitVec.ofNat 32 srcLen, BitVec.ofNat 32 aux, BitVec.ofNat 32 auxLen, BitVec.ofNat 32 dst,
    BitVec.ofNat 32 dstLen⟩

/-- The outcome is a next state that `p` holds of. -/
def ends (o : Host.Outcome State Fault Refusal) (p : State → Bool) : Bool :=
  match o with
  | .next t => p t
  | .fault _ => false
  | .refused _ => false

/-- RESULT, OUT_LEN and the bytes at 0x4000 of `t`. -/
def gives (code : Word) (bs : List Byte) (t : State) : Bool :=
  t.result == code && t.outLen.toNat == bs.length && t.mem.readRun 0x4000 bs.length == bs

theorem of_ends {o : Host.Outcome State Fault Refusal} {p : State → Bool} (h : ends o p = true) :
    ∃ t, o = .next t ∧ p t = true := by
  cases o with
  | next t => exact ⟨t, rfl, h⟩
  | fault f => cases h
  | refused r => cases h

/-! ### Well-formedness and the command word -/

theorem test_wf_fingerprintCat_index : (Instr.fingerprintCat 256 false).wf = false := by decide

theorem test_wf_catalogueName_index : (Instr.catalogueName 256).wf = false := by decide

theorem test_wf_last_index : (Instr.catalogueName 255).wf = true ∧ (Instr.fingerprintCat 255 true).wf = true := by decide

/-- Words as RSV(15) RAW(1) ARG(8) OP(8), from 30_encoding.md R60 and R62. -/
theorem test_decode_loadSkey : decode 0b000000000000000_0_00000000_00000001#32 = .ok .loadSkey := by decide

theorem test_decode_decodeIndex : decode 0b000000000000000_0_00000000_00000010#32 = .ok .decodeIndex := by decide

theorem test_decode_encryptIndex : decode 0b000000000000000_0_00000000_00000011#32 = .ok .encryptIndex := by decide

theorem test_decode_decryptIndex : decode 0b000000000000000_0_00000000_00000100#32 = .ok .decryptIndex := by decide

theorem test_decode_encryptRaw : decode 0b000000000000000_0_00000000_00000101#32 = .ok .encryptRaw := by decide

theorem test_decode_decryptRaw : decode 0b000000000000000_0_00000000_00000110#32 = .ok .decryptRaw := by decide

theorem test_decode_fingerprint :
    decode 0b000000000000000_0_00000000_00000111#32 = .ok (.fingerprint false)
      ∧ decode 0b000000000000000_1_00000000_00000111#32 = .ok (.fingerprint true) := by decide

theorem test_decode_fingerprintCat :
    decode 0b000000000000000_1_00000001_00001000#32 = .ok (.fingerprintCat 1 true)
      ∧ decode 0b000000000000000_0_11111111_00001000#32 = .ok (.fingerprintCat 255 false) := by decide

theorem test_decode_fingerprintAll :
    decode 0b000000000000000_0_00000000_00001001#32 = .ok (.fingerprintAll false)
      ∧ decode 0b000000000000000_1_00000000_00001001#32 = .ok (.fingerprintAll true) := by decide

theorem test_decode_catalogueName : decode 0b000000000000000_0_00001011_00001010#32 = .ok (.catalogueName 11) := by
  decide

/-- ERR-1 to ERR-8: the words R64 rejects, each by its reason. -/
theorem test_decode_rejects :
    decode 0x00000000#32 = .error .opcode ∧ decode 0x0000000B#32 = .error .opcode
      ∧ decode 0x000000FF#32 = .error .opcode ∧ decode 0x00010003#32 = .error .raw
      ∧ decode 0x00000101#32 = .error .arg ∧ decode 0x00020001#32 = .error .reserved
      ∧ decode 0x8000000A#32 = .error .reserved ∧ decode 0x0001010A#32 = .error .raw := by decide

/-! ### The datapaths (sections 3 to 8) -/

/-- AES-1, AES-2. -/
theorem test_aes :
    (aesEncrypt (keyExpansion key) (Block.ofBytes ((List.range 16).map fun n => BitVec.ofNat 8 (0x11 * n)))).toBytes =
        [0x8E, 0xA2, 0xB7, 0xCA, 0x51, 0x67, 0x45, 0xBF, 0xEA, 0xFC, 0x49, 0x90, 0x4B, 0x49, 0x60, 0x89]
      ∧ (aesDecrypt (keyExpansion key) (Block.ofBytes
          [0x8E, 0xA2, 0xB7, 0xCA, 0x51, 0x67, 0x45, 0xBF, 0xEA, 0xFC, 0x49, 0x90, 0x4B, 0x49, 0x60, 0x89])).toBytes =
        (List.range 16).map fun n => BitVec.ofNat 8 (0x11 * n) := by decide +kernel

/-- AES-1: the last word of the key schedule. -/
theorem test_keyExpansion : (keyExpansion key).getD 59 Quad.zero = ⟨0x6D, 0x68, 0xDE, 0x36⟩ := by decide +kernel

/-- The SHA-256 of "abc". -/
theorem test_sha256 : sha256 [0x61, 0x62, 0x63] =
    [0xBA, 0x78, 0x16, 0xBF, 0x8F, 0x01, 0xCF, 0xEA, 0x41, 0x41, 0x40, 0xDE, 0x5D, 0xAE, 0x22, 0x23,
     0xB0, 0x03, 0x61, 0xA3, 0x96, 0x17, 0x7A, 0x9C, 0xB4, 0x10, 0xFF, 0x61, 0xF2, 0x00, 0x15, 0xAD] := by
  decide +kernel

/-- UTF-1 to UTF-9 are ill-formed. -/
theorem test_utf8_ill : ([[0x80], [0xC0, 0xAF], [0xE0, 0x80, 0xAF], [0xED, 0xA0, 0x80], [0xF4, 0x90, 0x80, 0x80],
    [0xF5], [0xC3], [0xE2, 0x82], [0xFF]] : List (List Byte)).all (fun n => !wellFormedUtf8 n) = true := by decide

/-- UTF-10 to UTF-16 are well-formed. -/
theorem test_utf8_well : ([[0xC3, 0xA9], [0xE2, 0x82, 0xAC], [0xF0, 0x9F, 0x98, 0x80], [0xED, 0x9F, 0xBF],
    [0xEE, 0x80, 0x80], [0xF4, 0x8F, 0xBF, 0xBF], [0x7F]] : List (List Byte)).all wellFormedUtf8 = true := by decide

/-! ### One or two small runs of each command -/

/-- LOAD_SKEY of TK. -/
theorem test_loadSkey_next :
    ends (step (fresh 0x01 (ops 0x1000 7 0 0 0 0) (image []))) (fun t => t.sk == tk && t.status == 6 && gives 0 [] t)
      = true := by decide +kernel

/-- ERR-16 and ERR-17: a region that wraps, and one that ends at 2^32. -/
theorem test_loadSkey_edge :
    ends (step (fresh 0x01 (ops 0xFFFFFFFF 2 0 0 0 0) [])) (fun t => t.result == 0x09 && !t.skeyValid) = true
      ∧ ends (step (fresh 0x01 (ops 0xFFFFFFFF 1 0 0 0 0) [])) (fun t => t.result == 0 && t.skeyLen == 1) = true := by
  decide +kernel

/-- IDX-1. -/
theorem test_decodeIndex_next :
    ends (step (loaded 0x02 (ops 0 0 0x2000 56 0x4000 48) (image []))) (gives 0 (key ++ iv)) = true := by
  decide +kernel

/-- ERR-28 and ERR-29: blobs of 3 and of 55 bytes. -/
theorem test_decodeIndex_short :
    ends (step (loaded 0x02 (ops 0 0 0x2000 3 0x4000 48) (image []))) (gives 0x01 []) = true
      ∧ ends (step (loaded 0x02 (ops 0 0 0x2000 55 0x4000 48) (image []))) (gives 0x02 []) = true := by decide +kernel

/-- CBC-E1. -/
theorem test_encryptIndex_next :
    ends (step (loaded 0x03 (ops 0x3000 1 0x2000 56 0x4000 16) (image [0x00]))) (gives 0
      [0x45, 0x35, 0xEB, 0xCA, 0x01, 0xAF, 0x72, 0x5E, 0xD4, 0xA8, 0xEF, 0xDA, 0x15, 0xFD, 0x03, 0x1E]) = true := by
  decide +kernel

/-- CBC-D7, under the index. -/
theorem test_decryptIndex_next :
    ends (step (loaded 0x04 (ops 0x3000 16 0x2000 56 0x4000 15) (image
      [0x03, 0x1D, 0x40, 0xD1, 0x3B, 0x15, 0xB4, 0x4D, 0xCB, 0x49, 0x0B, 0x09, 0xBC, 0x9D, 0xB8, 0x19])))
      (gives 0 [0xAA]) = true := by decide +kernel

/-- CBC-E16: two blocks, the second one all padding. -/
theorem test_encryptRaw_next :
    ends (step (fresh 0x05 (ops 0x3000 16 0x5000 48 0x4000 32) (image (key.take 16)))) (gives 0
      [0x90, 0x4C, 0xE4, 0x5C, 0xF2, 0x2E, 0xD0, 0xD1, 0xBE, 0x64, 0x3F, 0x5F, 0xC8, 0x65, 0x04, 0xCD,
       0xB5, 0x8A, 0xC2, 0xAA, 0x02, 0x49, 0xC9, 0xE3, 0x4A, 0x84, 0x01, 0x3A, 0x19, 0xE6, 0xEB, 0x24]) = true := by
  decide +kernel

/-- CBC-D4: a whole block of padding decrypts to nothing. -/
theorem test_decryptRaw_next :
    ends (step (fresh 0x06 (ops 0x3000 16 0x5000 48 0x4000 15) (image
      [0xED, 0xAF, 0x9E, 0x57, 0xD0, 0x45, 0xAC, 0x85, 0x7F, 0x02, 0x3F, 0x9D, 0xC2, 0x38, 0xB1, 0x4E])))
      (gives 0 []) = true := by decide +kernel

/-- CBC-D1: an invalid last byte. -/
theorem test_decryptRaw_padding :
    ends (step (fresh 0x06 (ops 0x3000 16 0x5000 48 0x4000 15) (image
      [0x92, 0x00, 0xCD, 0x8D, 0x23, 0x96, 0x80, 0xCB, 0x5A, 0x69, 0xE6, 0x54, 0x40, 0x32, 0x63, 0x14])))
      (gives 0x03 []) = true := by decide +kernel

/-- FP-6 with RAW. -/
theorem test_fingerprint_next :
    ends (step (loaded 0x10007 (ops 0x3000 2 0 0 0x4000 32) (image [0xC3, 0xA9]))) (gives 0
      [0xED, 0x20, 0xB0, 0x4C, 0x21, 0x48, 0x53, 0x03, 0x16, 0xBE, 0xCC, 0xEC, 0x85, 0x35, 0x14, 0x0A,
       0xD0, 0xF5, 0x19, 0x9C, 0x48, 0x4E, 0x6C, 0x54, 0x9E, 0x65, 0x0C, 0xC9, 0xED, 0x35, 0x37, 0x81]) = true := by
  decide +kernel

/-- UTF-7: a truncated scalar. -/
theorem test_fingerprint_utf8 :
    ends (step (loaded 0x07 (ops 0x3000 1 0 0 0x4000 64) (image [0xC3]))) (gives 0x0B []) = true := by decide +kernel

/-- FP-2 in hex, "E2DA50A6" and on. -/
theorem test_fingerprintCat_next :
    ends (step (loaded 0x108 (ops 0 0 0 0 0x4000 64) [])) (fun t =>
      t.outLen == 64 && t.mem.readRun 0x4000 8 == [0x45, 0x32, 0x44, 0x41, 0x35, 0x30, 0x41, 0x36]
        && t.mem.readRun 0x403C 5 == [0x35, 0x45, 0x46, 0x45, 0x00]) = true := by decide +kernel

/-- FPALL-1 and ERR-35: 384 bytes with RAW, and LENGTH where the capacity is one smaller. -/
theorem test_fingerprintAll_next :
    ends (step (loaded 0x10009 (ops 0 0 0 0 0x4000 384) [])) (fun t => t.result == 0 && t.outLen == 384) = true
      ∧ ends (step (loaded 0x10009 (ops 0 0 0 0 0x4000 383) [])) (gives 0x09 []) = true := by decide +kernel

/-- FPALL-1: record 11, "Session_ID", stands at `0x4000 + 32 * 11`. -/
theorem test_fingerprintAll_record :
    (match writeRecords true 1 11 (loaded 0x10009 (ops 0 0 0 0 0x4000 384) []) with
      | .ok _ t => t.mem.readRun 0x4160 32
      | .raised _ _ _ | .aborted _ | .refused _ | .faulted _ => []) =
    [0x29, 0x12, 0xEE, 0x1E, 0x0A, 0x6F, 0xCC, 0x7D, 0xE4, 0x5B, 0x59, 0xEE, 0x3B, 0x46, 0x9C, 0x32,
     0xAF, 0x69, 0x20, 0x32, 0xDC, 0x4A, 0x39, 0x18, 0x1A, 0x31, 0x16, 0x31, 0x73, 0x9C, 0xC6, 0xF9] := by
  decide +kernel

/-- CATN-4. -/
theorem test_catalogueName_next :
    ends (step (fresh 0xB0A (ops 0 0 0 0 0x4000 10) [])) (gives 0 nameSessionId) = true := by decide +kernel

/-- CATN-3 and CATN-5: a capacity one too small, and an index one too large. -/
theorem test_catalogueName_errors :
    ends (step (fresh 0xA (ops 0 0 0 0 0x4000 17) [])) (gives 0x09 []) = true
      ∧ ends (step (fresh 0xC0A (ops 0 0 0 0 0x4000 255) [])) (gives 0x0C []) = true := by decide +kernel

/-! ### A witness of the hypotheses of every statement that has some -/

/-- The region checks of R138, as a Bool. -/
def passes (i : Instr) (s : State) : Bool :=
  (inputs i s).all (fun r => decide (r.addr + r.len ≤ 2 ^ 32))
    && match outMax i s with
      | none => true
      | some n =>
        decide (n ≤ s.latch.dstLen.toNat ∧ s.latch.dstAddr.toNat + n ≤ 2 ^ 32)
          && (inputs i s).all fun r => decide
            ¬(0 < r.len ∧ 0 < n ∧ r.addr < s.latch.dstAddr.toNat + n ∧ s.latch.dstAddr.toNat < r.addr + r.len)

theorem plain_of {i : Instr} {s : State} (hd : s.cfg.devices = []) : PlainRegions i s := by
  intro r _ a _ _; simp [Config.deviceAt, hd]

theorem runnable_of {i : Instr} {s : State} (hd : s.cfg.devices = []) (ha : Admitted i s) (h : passes i s = true) :
    Runnable i s := by
  simp only [passes, Bool.and_eq_true, List.all_eq_true, decide_eq_true_eq] at h
  refine ⟨ha, h.1, ?_, ?_, plain_of hd⟩
  · intro n hn
    have h2 := h.2
    simp only [hn, Bool.and_eq_true, decide_eq_true_eq] at h2
    exact h2.1
  · intro n hn r hr
    have h2 := h.2
    simp only [hn, Bool.and_eq_true, decide_eq_true_eq, List.all_eq_true] at h2
    exact h2.2 r hr

theorem reads_of {i : Instr} {s : State} (hb : s.cfg.busErr = []) : ReadsAnswered i s := by
  intro r _ a _ _; simp [Config.busErrAt, hb]

theorem writes_of {i : Instr} {s : State} (hb : s.cfg.busErr = []) : WritesAnswered i s := by
  intro a _ _; simp [Config.busErrAt, hb]

theorem witness_DecodeOfEncode : (Instr.fingerprintCat 255 true).wf = true := by decide

theorem witness_EncodeOfDecode : decode 0x0001FF08#32 = .ok (.fingerprintCat 255 true) := by decide

/-- CATALOGUE_NAME of entry 11 at the last 10 bytes of memory, just accepted. -/
def sName : State := fresh 0x00000B0A (ops 0 0 0 0 0xFFFFFFF6 10) []

theorem witness_StepRunsDecodedCommand : sName.busy = true ∧ decode sName.latch.cmd = .ok (.catalogueName 11) := by
  decide

theorem witness_IllegalWordCompletes :
    Fresh (fresh 0x00020008 (ops 0 0 0 0 0 0) []) ∧ (fresh 0x00020008 (ops 0 0 0 0 0 0) []).busy = true
      ∧ ∀ i, decode (fresh 0x00020008 (ops 0 0 0 0 0 0) []).latch.cmd ≠ .ok i :=
  ⟨⟨rfl, rfl⟩, rfl, fun i h => by
    have e : decode (fresh 0x00020008 (ops 0 0 0 0 0 0) []).latch.cmd = .error .reserved := by decide
    rw [e] at h; cases h⟩

/-- An idle core of the test instance, with the schedule `es`. -/
def idle (es : List Event) : State := { State.reset with cfg := cfg [], env := es }

theorem witness_IdleCoreIsStill :
    ((idle []).busy = false ∧ (idle []).env = [])
      ∧ ((idle [.memWrite 0xFFFFFFFF 1]).busy = false
        ∧ ∃ t, hostEvent (.memWrite 0xFFFFFFFF 1) { idle [.memWrite 0xFFFFFFFF 1] with env := [] } = .ready t)
      ∧ ∃ t, hostEvent (.reset []) { idle [.reset []] with env := [] } = .aborted t :=
  ⟨⟨rfl, rfl⟩, ⟨rfl, _, rfl⟩, _, rfl⟩

theorem witness_CommandAcceptance : sName.busy = true ∧ (idle []).busy = false := ⟨rfl, rfl⟩

theorem witness_RegisterReads :
    ({ idle [] with cfg := { cfg [] with skeyMax := 65535 } } : State).cfg.skeyMax ≤ 65535
      ∧ (0x040 ≤ 0x040 ∧ 0x040 ≤ 0x0FC ∧ 0x040 % 4 = 0) ∧ (0x040 ≤ 0x0FC ∧ 0x0FC ≤ 0x0FC ∧ 0x0FC % 4 = 0) := by
  decide

theorem witness_IllegalMmioAccess :
    (0 < 256 ∧ 1 ≤ 8 ∧ (8 ≠ 32 ∨ 0 % 4 ≠ 0)) ∧ (255 < 256 ∧ 1 ≤ 32 ∧ (32 ≠ 32 ∨ 255 % 4 ≠ 0))
      ∧ (0xFC < 256 ∧ 1 ≤ 64 ∧ (64 ≠ 32 ∨ 0xFC % 4 ≠ 0)) := by decide

theorem witness_RegisterWrites : 0x040 ≤ 0x040 ∧ 0x040 ≤ 0x0FC ∧ 0x040 % 4 = 0 ∧ 0x0FC ≤ 0x0FC ∧ 0x0FC % 4 = 0 := by
  decide

theorem sName_next : ∃ t, exec (.catalogueName 11) sName = .next t ∧ t.result = 0 ∧ t.busy = false := by
  obtain ⟨t, ht, h⟩ := of_ends (o := exec (.catalogueName 11) sName) (p := fun t => t.result == 0 && !t.busy)
    (by decide +kernel)
  simp only [Bool.and_eq_true, beq_iff_eq, Bool.not_eq_true'] at h
  exact ⟨t, ht, h⟩

theorem sName_step : ∃ t, step sName = .next t := by
  obtain ⟨t, ht, -⟩ := of_ends (o := step sName) (p := fun t => t.result == 0) (by decide +kernel)
  exact ⟨t, ht⟩

theorem witness_InterruptLine :
    (Fresh sName ∧ ∃ t, exec (.catalogueName 11) sName = .next t)
      ∧ (∃ t, hostEvent (.mmioWrite (sName.cfg.base + 0x020) 32 1) sName = .ready t) ∧ (1 : Word).getLsbD 0 = true
      ∧ ∃ t, hostEvent (.mmioWrite (sName.cfg.base + 0x01C) 32 0) sName = .ready t :=
  ⟨⟨⟨rfl, rfl⟩, sName_next.imp fun _ h => h.1⟩, ⟨_, rfl⟩, rfl, _, rfl⟩

theorem witness_ResetEvent :
    (idle []).mem.wf = true ∧ (idle []).latch.dstAddr.toNat + (idle []).extent ≤ 2 ^ 32
      ∧ sName.mem.wf = true
      ∧ ({ sName with extent := 10 } : State).latch.dstAddr.toNat + ({ sName with extent := 10 } : State).extent ≤ 2 ^ 32 := by
  decide

/-- A reset before the first engine step, one after four of the ten bytes, and one that comes after the completion; the
first and the last byte of the output extent, and the silent run, which succeeds. -/
theorem witness_ResetAbandonsCommand :
    (let s := { sName with env := List.replicate 0 .engine ++ [.reset []] };
      s.mem.wf = true ∧ s.work.written = [] ∧ s.journal = [] ∧ s.extent = 0
        ∧ ∃ t, exec (.catalogueName 11) s = .next t ∧ t.env = [])
    ∧ (let s := { sName with env := List.replicate 4 .engine ++ [.reset [.written, .zero, .old]] };
      s.mem.wf = true ∧ s.work.written = [] ∧ s.journal = [] ∧ s.extent = 0
        ∧ (∃ t, exec (.catalogueName 11) s = .next t ∧ t.env = [])
        ∧ (∀ a ∈ [0xFFFFFFF6, 0xFFFFFFFF], (outExtent (.catalogueName 11) s).addr ≤ a
          ∧ a < (outExtent (.catalogueName 11) s).addr + (outExtent (.catalogueName 11) s).len)
        ∧ ∃ u, exec (.catalogueName 11) { s with env := [] } = .next u ∧ u.result = 0)
    ∧ (let s := { sName with env := List.replicate 11 .engine ++ [.reset [.written]] };
      s.mem.wf = true ∧ s.work.written = [] ∧ s.journal = [] ∧ s.extent = 0
        ∧ ∃ t, exec (.catalogueName 11) s = .next t ∧ t.env ≠ []) := by
  refine ⟨⟨rfl, rfl, rfl, rfl, ?_⟩, ⟨rfl, rfl, rfl, rfl, ?_, by decide, sName_next.imp fun _ h => ⟨h.1, h.2.1⟩⟩,
    ⟨rfl, rfl, rfl, rfl, ?_⟩⟩
  · obtain ⟨t, ht, h⟩ := of_ends
      (o := exec (.catalogueName 11) { sName with env := List.replicate 0 .engine ++ [.reset []] })
      (p := fun t => decide (t.env = [])) (by decide +kernel)
    exact ⟨t, ht, of_decide_eq_true h⟩
  · obtain ⟨t, ht, h⟩ := of_ends
      (o := exec (.catalogueName 11)
        { sName with env := List.replicate 4 .engine ++ [.reset [.written, .zero, .old]] })
      (p := fun t => decide (t.env = [])) (by decide +kernel)
    exact ⟨t, ht, of_decide_eq_true h⟩
  · obtain ⟨t, ht, h⟩ := of_ends
      (o := exec (.catalogueName 11) { sName with env := List.replicate 11 .engine ++ [.reset [.written]] })
      (p := fun t => decide (t.env ≠ [])) (by decide +kernel)
    exact ⟨t, ht, of_decide_eq_true h⟩

/-- An idle core whose host writes CMD next, and a busy one, each with its next state. -/
theorem witness_StepKeepsInvariant :
    (Inv (idle [.mmioWrite 0x40000008 32 0xB0A]) ∧ ∃ t, step (idle [.mmioWrite 0x40000008 32 0xB0A]) = .next t)
      ∧ Inv sName ∧ ∃ t, step sName = .next t := by
  refine ⟨⟨?_, ?_⟩, ?_, sName_step⟩
  · constructor <;> decide +kernel
  · obtain ⟨t, ht, -⟩ := of_ends (o := step (idle [.mmioWrite 0x40000008 32 0xB0A])) (p := fun t => t.busy)
      (by decide +kernel)
    exact ⟨t, ht⟩
  · constructor <;> decide +kernel

/-- CATALOGUE_NAME of entry 11 with the key loaded. -/
def sNameLoaded : State := loaded 0x00000B0A (ops 0 0 0 0 0xFFFFFFF6 10) []

theorem sNameLoaded_next : ∃ t, exec (.catalogueName 11) sNameLoaded = .next t := by
  obtain ⟨t, ht, -⟩ := of_ends (o := exec (.catalogueName 11) sNameLoaded) (p := fun t => t.result == 0)
    (by decide +kernel)
  exact ⟨t, ht⟩

theorem sNameLoaded_step : ∃ t, step sNameLoaded = .next t := by
  obtain ⟨t, ht, -⟩ := of_ends (o := step sNameLoaded) (p := fun t => t.result == 0) (by decide +kernel)
  exact ⟨t, ht⟩

theorem witness_StaticKeyIsImmutable :
    sNameLoaded.skeyValid = true ∧ (∀ e ∈ sNameLoaded.env, NotReset e) ∧ ∃ t, step sNameLoaded = .next t :=
  ⟨rfl, fun _ h => (List.not_mem_nil h).elim, sNameLoaded_step⟩

theorem witness_OnlyLoadSkeyWritesKey :
    sNameLoaded.busy = true ∧ Instr.catalogueName 11 ≠ .loadSkey ∧ (∀ e ∈ sNameLoaded.env, NotReset e)
      ∧ ∃ t, exec (.catalogueName 11) sNameLoaded = .next t :=
  ⟨rfl, by decide, fun _ h => (List.not_mem_nil h).elim, sNameLoaded_next⟩

theorem witness_ParametersAreConstant : ∃ t, step sName = .next t := sName_step

theorem witness_EveryCommandCompletes : Fresh sName ∧ PlainRegions (.catalogueName 11) sName :=
  ⟨⟨rfl, rfl⟩, plain_of rfl⟩

/-- The same command where the write of the last byte of the output gets an error response. -/
def sNameBus : State := { sName with cfg := cfg [⟨.write, 0xFFFFFFFF, 0x100000000⟩] }

theorem witness_ErrorLeavesNoOutput :
    Fresh sNameBus ∧ sNameBus.mem.wf = true ∧ ∃ t, exec (.catalogueName 11) sNameBus = .next t ∧ t.result ≠ 0 := by
  refine ⟨⟨rfl, rfl⟩, rfl, ?_⟩
  obtain ⟨t, ht, h⟩ := of_ends (o := exec (.catalogueName 11) sNameBus) (p := fun t => decide (t.result ≠ 0))
    (by decide +kernel)
  exact ⟨t, ht, of_decide_eq_true h⟩

theorem witness_BoundedCompletion :
    let s := { sName with env := List.replicate 21 .engine ++ [.reset []] }
    s.work.written = [] ∧ PlainRegions (.catalogueName 11) s
      ∧ ((inputs (.catalogueName 11) s).map Region.len).sum + 2 * (outExtent (.catalogueName 11) s).len + 1 ≤ 21 :=
  ⟨rfl, plain_of rfl, by decide⟩

/-- A host that breaks R154: it writes into the output extent, and sets OVR. -/
theorem witness_OnlyResetStopsCommand :
    let s := { sName with env := [.memWrite 0xFFFFFFF6 7, .engine, .mmioWrite 0x40000008 32 1, .memRead 0xFFFFFFFF] }
    s.busy = true ∧ PlainRegions (.catalogueName 11) s ∧ ∀ e ∈ s.env, NotReset e := by
  refine ⟨rfl, plain_of rfl, fun e he => ?_⟩
  simp only [List.mem_cons, List.not_mem_nil, or_false] at he
  rcases he with rfl | rfl | rfl | rfl <;> trivial

/-- A host that reads a register, writes a register, and writes the byte right before the output extent. -/
theorem witness_RespectfulHostDoesNotMatter :
    let s := { sName with env := [.mmioRead 0x40000008 32, .engine, .mmioWrite 0x40000034 32 5, .memWrite 0xFFFFFFF5 7] }
    s.busy = true ∧ s.mem.wf = true ∧ s.work.written = [] ∧ (∀ e ∈ s.env, Respects (.catalogueName 11) s e)
      ∧ ∃ t, exec (.catalogueName 11) { s with env := [] } = .next t := by
  refine ⟨rfl, rfl, rfl, ?_, sName_next.imp fun _ h => h.1⟩
  intro e he
  simp only [List.mem_cons, List.not_mem_nil, or_false] at he
  rcases he with rfl | rfl | rfl | rfl
  · trivial
  · trivial
  · trivial
  · intro r hr
    simp only [inputs, List.nil_append, List.mem_singleton] at hr
    subst hr
    decide +kernel

theorem witness_HostStepsLeaveResults :
    (∃ t, hostEvent (.memWrite 0 1) sName = .ready t ∧ sName.busy = true)
      ∧ ∃ t, hostEvent (.memWrite 0 1) (idle []) = .ready t ∧ (idle []).busy = false ∧ t.busy = false :=
  ⟨⟨_, rfl, rfl⟩, _, rfl, rfl, rfl⟩

/-- A platform with a device at 0x50000000: the addresses right before it and at its start. -/
theorem witness_HostMemoryAccess :
    let s := { sName with cfg := { cfg [] with devices := [⟨0x50000000, 0x50000100⟩] } }
    s.cfg.deviceAt (0x4FFFFFFF#32).toNat = false ∧ s.mem.wf = true
      ∧ s.cfg.deviceAt (0x50000000#32).toNat = true := by decide

/-- R53: the store before the read in the interleaving is the one it sees. -/
theorem test_hostMemory_store_then_read :
    (match hostEvent (.memWrite 0x4000 0xAB) sName with
      | .ready t => match hostEvent (.memRead 0x4000) t with
        | .ready u => u.replies
        | .aborted _ => []
      | .aborted _ => []) = [.byte 0xAB] := by decide

/-- A key of SKEY_MAX bytes at the end of memory. -/
theorem witness_LoadSkeyResult :
    let s := fresh 0x01 (ops 0xFFFFFF00 256 0 0 0 0) []
    Fresh s ∧ Runnable .loadSkey s ∧ ReadsAnswered .loadSkey s :=
  ⟨⟨rfl, rfl⟩, runnable_of rfl ⟨rfl, by decide, by decide⟩ (by decide), reads_of rfl⟩

theorem blob_decodes :
    decodeIndexBlob tk ((image []).readRun 0x2000 56) = .ok (key, iv)
      ∧ (image []).wf = true := by decide +kernel

/-- IDX-1, with the record at the end of memory. -/
theorem witness_DecodeIndexResult :
    let s := loaded 0x02 (ops 0 0 0x2000 56 0xFFFFFFD0 48) (image [])
    Fresh s ∧ s.mem.wf = true ∧ Runnable .decodeIndex s ∧ ReadsAnswered .decodeIndex s
      ∧ WritesAnswered .decodeIndex s
      ∧ decodeIndexBlob s.sk (s.mem.readRun s.latch.auxAddr.toNat s.latch.auxLen.toNat) = .ok (key, iv) :=
  ⟨⟨rfl, rfl⟩, blob_decodes.2, runnable_of rfl rfl (by decide), reads_of rfl, writes_of rfl, blob_decodes.1⟩

/-- IDX-1 and an empty plaintext, whose region shares its address with the output. -/
theorem witness_EncryptIndexResult :
    let s := loaded 0x03 (ops 0x3000 0 0x2000 56 0x3000 16) (image [])
    Fresh s ∧ s.mem.wf = true ∧ Runnable .encryptIndex s ∧ ReadsAnswered .encryptIndex s
      ∧ WritesAnswered .encryptIndex s
      ∧ decodeIndexBlob s.sk (s.mem.readRun s.latch.auxAddr.toNat s.latch.auxLen.toNat) = .ok (key, iv) :=
  ⟨⟨rfl, rfl⟩, blob_decodes.2, runnable_of rfl rfl (by decide), reads_of rfl, writes_of rfl, blob_decodes.1⟩

/-- CBC-D4's ciphertext, and CBC-D1's. -/
def d4 : List Byte :=
  [0xED, 0xAF, 0x9E, 0x57, 0xD0, 0x45, 0xAC, 0x85, 0x7F, 0x02, 0x3F, 0x9D, 0xC2, 0x38, 0xB1, 0x4E]

def d1 : List Byte :=
  [0x92, 0x00, 0xCD, 0x8D, 0x23, 0x96, 0x80, 0xCB, 0x5A, 0x69, 0xE6, 0x54, 0x40, 0x32, 0x63, 0x14]

theorem d4_decrypts : cbcDecrypt key iv d4 = some [] := by decide +kernel

theorem d4_encrypts : cbcEncrypt key iv [] = d4 := by decide +kernel

theorem d1_fails : cbcDecrypt key iv d1 = none := by decide +kernel

/-- The memory of both, with what each command reads of it. -/
theorem image_d4 : (image d4).wf = true ∧ (image d4).readRun 0x3000 16 = d4 ∧ (image d4).readRun 0x5000 32 = key
    ∧ (image d4).readRun 0x5020 16 = iv ∧ decodeIndexBlob tk ((image d4).readRun 0x2000 56) = .ok (key, iv) := by
  decide +kernel

theorem image_d1 : (image d1).wf = true ∧ (image d1).readRun 0x3000 16 = d1 ∧ (image d1).readRun 0x5000 32 = key
    ∧ (image d1).readRun 0x5020 16 = iv ∧ decodeIndexBlob tk ((image d1).readRun 0x2000 56) = .ok (key, iv) := by
  decide +kernel

/-- One block of ciphertext under IDX-1. -/
def sDecIndex (bs : List Byte) : State := loaded 0x04 (ops 0x3000 16 0x2000 56 0x4000 15) (image bs)

/-- One block of ciphertext under the record. -/
def sDecRaw (bs : List Byte) : State := fresh 0x06 (ops 0x3000 16 0x5000 48 0x4000 15) (image bs)

theorem sDecIndex_runs (bs : List Byte) :
    Fresh (sDecIndex bs) ∧ Runnable .decryptIndex (sDecIndex bs) ∧ ReadsAnswered .decryptIndex (sDecIndex bs)
      ∧ WritesAnswered .decryptIndex (sDecIndex bs) :=
  ⟨⟨rfl, rfl⟩, runnable_of rfl ⟨(by decide : (5#32).getLsbD 2 = true), (by decide : (16#32).toNat ≠ 0), (by decide : (16#32).toNat % 16 = 0)⟩ rfl,
    reads_of rfl, writes_of rfl⟩

theorem sDecRaw_runs (bs : List Byte) :
    Fresh (sDecRaw bs) ∧ Runnable .decryptRaw (sDecRaw bs) ∧ ReadsAnswered .decryptRaw (sDecRaw bs)
      ∧ WritesAnswered .decryptRaw (sDecRaw bs) :=
  ⟨⟨rfl, rfl⟩, runnable_of rfl ⟨(by decide : (16#32).toNat ≠ 0), (by decide : (16#32).toNat % 16 = 0), rfl⟩ rfl,
    reads_of rfl, writes_of rfl⟩

theorem witness_DecryptIndexResult :
    let s := sDecIndex d4
    (Fresh s ∧ Runnable .decryptIndex s ∧ ReadsAnswered .decryptIndex s ∧ WritesAnswered .decryptIndex s)
      ∧ s.mem.wf = true
      ∧ decodeIndexBlob s.sk (s.mem.readRun s.latch.auxAddr.toNat s.latch.auxLen.toNat) = .ok (key, iv)
      ∧ cbcDecrypt key iv (s.mem.readRun s.latch.srcAddr.toNat s.latch.srcLen.toNat) = some [] :=
  ⟨sDecIndex_runs d4, image_d4.1, image_d4.2.2.2.2,
    (congrArg (cbcDecrypt key iv) image_d4.2.1).trans d4_decrypts⟩

theorem witness_EncryptRawResult :
    let s := fresh 0x05 (ops 0x3000 15 0x5000 48 0xFFFFFFF0 16) (image [])
    Fresh s ∧ s.mem.wf = true ∧ Runnable .encryptRaw s ∧ ReadsAnswered .encryptRaw s ∧ WritesAnswered .encryptRaw s :=
  ⟨⟨rfl, rfl⟩, blob_decodes.2, runnable_of rfl rfl (by decide), reads_of rfl, writes_of rfl⟩

theorem witness_DecryptRawResult :
    let s := sDecRaw d4
    (Fresh s ∧ Runnable .decryptRaw s ∧ ReadsAnswered .decryptRaw s ∧ WritesAnswered .decryptRaw s)
      ∧ s.mem.wf = true
      ∧ cbcDecrypt (s.mem.readRun s.latch.auxAddr.toNat 32) (s.mem.readRun (s.latch.auxAddr.toNat + 32) 16)
        (s.mem.readRun s.latch.srcAddr.toNat s.latch.srcLen.toNat) = some [] := by
  refine ⟨sDecRaw_runs d4, image_d4.1, ?_⟩
  show cbcDecrypt ((image d4).readRun 0x5000 32) ((image d4).readRun 0x5020 16) ((image d4).readRun 0x3000 16) = _
  rw [image_d4.2.2.1, image_d4.2.2.2.1, image_d4.2.1]
  exact d4_decrypts

/-- "é". -/
theorem witness_FingerprintResult :
    let s := loaded 0x10007 (ops 0x3000 2 0 0 0x3002 32) (image [0xC3, 0xA9])
    Fresh s ∧ s.mem.wf = true ∧ Runnable (.fingerprint true) s ∧ ReadsAnswered (.fingerprint true) s
      ∧ WritesAnswered (.fingerprint true) s
      ∧ wellFormedUtf8 (s.mem.readRun s.latch.srcAddr.toNat s.latch.srcLen.toNat) = true :=
  ⟨⟨rfl, rfl⟩, by decide +kernel, runnable_of rfl rfl (by decide), reads_of rfl, writes_of rfl, by decide +kernel⟩

theorem witness_FingerprintCatResult :
    let s := loaded 0xB08 (ops 0 0 0 0 0xFFFFFFC0 64) []
    Fresh s ∧ s.mem.wf = true ∧ Runnable (.fingerprintCat 11 false) s ∧ WritesAnswered (.fingerprintCat 11 false) s :=
  ⟨⟨rfl, rfl⟩, rfl, runnable_of rfl ⟨by decide, rfl⟩ (by decide), writes_of rfl⟩

theorem witness_FingerprintAllResult :
    let s := loaded 0x10009 (ops 0 0 0 0 0 384) []
    Fresh s ∧ s.mem.wf = true ∧ Runnable (.fingerprintAll true) s ∧ WritesAnswered (.fingerprintAll true) s :=
  ⟨⟨rfl, rfl⟩, rfl, runnable_of rfl rfl (by decide), writes_of rfl⟩

theorem witness_CatalogueNameResult :
    Fresh sName ∧ sName.mem.wf = true ∧ Runnable (.catalogueName 11) sName ∧ WritesAnswered (.catalogueName 11) sName :=
  ⟨⟨rfl, rfl⟩, rfl, runnable_of rfl (by show 11 < 12; decide) (by decide), writes_of rfl⟩

theorem witness_CommandRoundTrip :
    (let s := sDecIndex d4;
      (Fresh s ∧ Runnable .decryptIndex s ∧ ReadsAnswered .decryptIndex s ∧ WritesAnswered .decryptIndex s)
        ∧ s.mem.wf = true
        ∧ decodeIndexBlob s.sk (s.mem.readRun s.latch.auxAddr.toNat s.latch.auxLen.toNat) = .ok (key, iv)
        ∧ s.mem.readRun s.latch.srcAddr.toNat s.latch.srcLen.toNat = cbcEncrypt key iv [])
    ∧ (let s := sDecRaw d4;
      (Fresh s ∧ Runnable .decryptRaw s ∧ ReadsAnswered .decryptRaw s ∧ WritesAnswered .decryptRaw s)
        ∧ s.mem.wf = true
        ∧ s.mem.readRun s.latch.srcAddr.toNat s.latch.srcLen.toNat =
          cbcEncrypt (s.mem.readRun s.latch.auxAddr.toNat 32) (s.mem.readRun (s.latch.auxAddr.toNat + 32) 16) []) := by
  refine ⟨⟨sDecIndex_runs d4, image_d4.1, image_d4.2.2.2.2, image_d4.2.1.trans d4_encrypts.symm⟩,
    sDecRaw_runs d4, image_d4.1, ?_⟩
  show (image d4).readRun 0x3000 16 = cbcEncrypt ((image d4).readRun 0x5000 32) ((image d4).readRun 0x5020 16) []
  rw [image_d4.2.2.1, image_d4.2.2.2.1, image_d4.2.1]
  exact d4_encrypts.symm

/-- ENCRYPT_RAW and ENCRYPT_INDEX of an empty plaintext. -/
def sEncRaw : State := fresh 0x05 (ops 0x3000 0 0x5000 48 0x4000 16) (image [])

def sEncIndex : State := loaded 0x03 (ops 0x3000 0 0x2000 56 0x4000 16) (image [])

theorem sEncRaw_next : ∃ t, exec .encryptRaw sEncRaw = .next t ∧ (sDecRaw d4).mem.readRun 0x3000 16 =
    t.mem.readRun sEncRaw.latch.dstAddr.toNat t.outLen.toNat := by
  obtain ⟨t, ht, h⟩ := of_ends (o := exec .encryptRaw sEncRaw)
    (p := fun t => decide ((sDecRaw d4).mem.readRun 0x3000 16 = t.mem.readRun 0x4000 t.outLen.toNat))
    (by decide +kernel)
  exact ⟨t, ht, of_decide_eq_true h⟩

theorem sEncIndex_next : ∃ t, exec .encryptIndex sEncIndex = .next t ∧ (sDecIndex d4).mem.readRun 0x3000 16 =
    t.mem.readRun sEncIndex.latch.dstAddr.toNat t.outLen.toNat := by
  obtain ⟨t, ht, h⟩ := of_ends (o := exec .encryptIndex sEncIndex)
    (p := fun t => decide ((sDecIndex d4).mem.readRun 0x3000 16 = t.mem.readRun 0x4000 t.outLen.toNat))
    (by decide +kernel)
  exact ⟨t, ht, of_decide_eq_true h⟩

/-- The last clause of that statement, for both pairs: DECRYPT_* of CBC-D4 after ENCRYPT_* of nothing. -/
theorem witness_CommandRoundTrip_both :
    (let s := sEncRaw; let u := sDecRaw d4;
      Fresh s ∧ s.mem.wf = true ∧ Runnable .encryptRaw s ∧ ReadsAnswered .encryptRaw s ∧ WritesAnswered .encryptRaw s
        ∧ (∃ key iv, Keys .encryptRaw s key iv)
        ∧ u.mem.readRun u.latch.auxAddr.toNat u.latch.auxLen.toNat =
          s.mem.readRun s.latch.auxAddr.toNat s.latch.auxLen.toNat
        ∧ (∃ t, exec .encryptRaw s = .next t ∧ u.mem.readRun u.latch.srcAddr.toNat u.latch.srcLen.toNat =
          t.mem.readRun s.latch.dstAddr.toNat t.outLen.toNat)
        ∧ u.mem.wf = true ∧ (Fresh u ∧ Runnable .decryptRaw u ∧ ReadsAnswered .decryptRaw u ∧ WritesAnswered .decryptRaw u))
    ∧ (let s := sEncIndex; let u := sDecIndex d4;
      Fresh s ∧ s.mem.wf = true ∧ Runnable .encryptIndex s ∧ ReadsAnswered .encryptIndex s
        ∧ WritesAnswered .encryptIndex s ∧ Keys .encryptIndex s key iv ∧ u.sk = s.sk
        ∧ u.mem.readRun u.latch.auxAddr.toNat u.latch.auxLen.toNat =
          s.mem.readRun s.latch.auxAddr.toNat s.latch.auxLen.toNat
        ∧ (∃ t, exec .encryptIndex s = .next t ∧ u.mem.readRun u.latch.srcAddr.toNat u.latch.srcLen.toNat =
          t.mem.readRun s.latch.dstAddr.toNat t.outLen.toNat)
        ∧ u.mem.wf = true
        ∧ (Fresh u ∧ Runnable .decryptIndex u ∧ ReadsAnswered .decryptIndex u ∧ WritesAnswered .decryptIndex u)) :=
  ⟨⟨⟨rfl, rfl⟩, blob_decodes.2, runnable_of rfl rfl (by decide), reads_of rfl, writes_of rfl, ⟨_, _, rfl, rfl⟩,
      by decide +kernel, sEncRaw_next, image_d4.1, sDecRaw_runs d4⟩,
    ⟨rfl, rfl⟩, blob_decodes.2, runnable_of rfl rfl (by decide), reads_of rfl, writes_of rfl, blob_decodes.1, rfl,
    by decide +kernel, sEncIndex_next, image_d4.1, sDecIndex_runs d4⟩

theorem witness_InvalidPaddingIsScrubbed :
    (let s := sDecIndex d1;
      (Fresh s ∧ Runnable .decryptIndex s ∧ ReadsAnswered .decryptIndex s ∧ WritesAnswered .decryptIndex s)
        ∧ s.mem.wf = true
        ∧ decodeIndexBlob s.sk (s.mem.readRun s.latch.auxAddr.toNat s.latch.auxLen.toNat) = .ok (key, iv)
        ∧ cbcDecrypt key iv (s.mem.readRun s.latch.srcAddr.toNat s.latch.srcLen.toNat) = none)
    ∧ (let s := sDecRaw d1;
      (Fresh s ∧ Runnable .decryptRaw s ∧ ReadsAnswered .decryptRaw s ∧ WritesAnswered .decryptRaw s)
        ∧ s.mem.wf = true
        ∧ cbcDecrypt (s.mem.readRun s.latch.auxAddr.toNat 32) (s.mem.readRun (s.latch.auxAddr.toNat + 32) 16)
          (s.mem.readRun s.latch.srcAddr.toNat s.latch.srcLen.toNat) = none) := by
  refine ⟨⟨sDecIndex_runs d1, image_d1.1, image_d1.2.2.2.2,
    (congrArg (cbcDecrypt key iv) image_d1.2.1).trans d1_fails⟩, sDecRaw_runs d1, image_d1.1, ?_⟩
  show cbcDecrypt ((image d1).readRun 0x5000 32) ((image d1).readRun 0x5020 16) ((image d1).readRun 0x3000 16) = _
  rw [image_d1.2.2.1, image_d1.2.2.2.1, image_d1.2.1]
  exact d1_fails

theorem witness_CatIndexError : Fresh sName ∧ 12 ≤ 12 := ⟨⟨rfl, rfl⟩, by decide⟩

theorem witness_SkeyNotLoadedError : Fresh sName ∧ sName.skeyValid = false ∧ 11 < 12 := ⟨⟨rfl, rfl⟩, rfl, by decide⟩

/-- One state for each clause: the key loaded; length 0; length 257 with a capacity of 256. -/
theorem witness_LoadSkeyErrors :
    (Fresh sNameLoaded ∧ sNameLoaded.skeyValid = true)
      ∧ (let s := fresh 0x01 (ops 0x1000 0 0 0 0 0) [];
        Fresh s ∧ s.skeyValid = false ∧ s.latch.srcLen = 0)
      ∧ (let s := fresh 0x01 (ops 0x1000 257 0 0 0 0) [];
        Fresh s ∧ s.skeyValid = false ∧ s.latch.srcLen ≠ 0 ∧ s.cfg.skeyMax < s.latch.srcLen.toNat) :=
  ⟨⟨⟨rfl, rfl⟩, rfl⟩, ⟨⟨rfl, rfl⟩, rfl, rfl⟩, ⟨rfl, rfl⟩, rfl, by decide, by decide⟩

/-- Lengths 0, 15 and 17 for the first clause, and a record length of 47 with a ciphertext of 16 for the second. -/
theorem witness_CipherLengthErrors :
    (let s := loaded 0x04 (ops 0x3000 0 0x2000 56 0x4000 15) [];
      Fresh s ∧ s.latch.srcLen.toNat = 0 ∧ s.skeyValid = true)
    ∧ (let s := loaded 0x04 (ops 0x3000 15 0x2000 56 0x4000 15) [];
      Fresh s ∧ s.latch.srcLen.toNat % 16 ≠ 0 ∧ s.skeyValid = true)
    ∧ (let s := loaded 0x04 (ops 0x3000 17 0x2000 56 0x4000 15) [];
      Fresh s ∧ s.latch.srcLen.toNat % 16 ≠ 0 ∧ s.skeyValid = true)
    ∧ (let s := fresh 0x06 (ops 0x3000 16 0x5000 47 0x4000 15) [];
      Fresh s ∧ s.latch.auxLen.toNat ≠ 48 ∧ s.latch.srcLen.toNat ≠ 0 ∧ s.latch.srcLen.toNat % 16 = 0) :=
  ⟨⟨⟨rfl, rfl⟩, rfl, rfl⟩, ⟨⟨rfl, rfl⟩, by decide, rfl⟩, ⟨⟨rfl, rfl⟩, by decide, rfl⟩, ⟨rfl, rfl⟩, by decide, by decide,
    rfl⟩

/-- ENCRYPT_RAW with a source that ends one byte past 2^32; with a capacity one byte short; with an output extent
whose last byte is the source's first. -/
theorem witness_RegionErrors :
    (let s := fresh 0x05 (ops 0xFFFFFFFF 2 0x5000 48 0x4000 16) [];
      Fresh s ∧ Admitted .encryptRaw s ∧ ¬InputsInRange .encryptRaw s)
    ∧ (let s := fresh 0x05 (ops 0x3000 1 0x5000 48 0x4000 15) [];
      Fresh s ∧ Admitted .encryptRaw s ∧ InputsInRange .encryptRaw s ∧ ¬OutputFits .encryptRaw s)
    ∧ (let s := fresh 0x05 (ops 0x400F 1 0x5000 48 0x4000 16) [];
      Fresh s ∧ Admitted .encryptRaw s ∧ InputsInRange .encryptRaw s ∧ OutputFits .encryptRaw s
        ∧ ¬NoOverlap .encryptRaw s) := by
  refine ⟨⟨⟨rfl, rfl⟩, rfl, fun h => ?_⟩, ⟨⟨rfl, rfl⟩, rfl, ?_, fun h => ?_⟩, ⟨rfl, rfl⟩, rfl, ?_, ?_, fun h => ?_⟩
  · exact absurd (h ⟨0xFFFFFFFF, 2⟩ (by decide)) (by decide)
  · intro r hr
    have : ∀ r ∈ [(⟨0x5000, 48⟩ : Region), ⟨0x3000, 1⟩], r.addr + r.len ≤ 2 ^ 32 := by decide
    exact this r hr
  · exact absurd (h 16 rfl).1 (by decide)
  · intro r hr
    have : ∀ r ∈ [(⟨0x5000, 48⟩ : Region), ⟨0x400F, 1⟩], r.addr + r.len ≤ 2 ^ 32 := by decide
    exact this r hr
  · intro n hn
    have e : n = 16 := (Option.some.inj hn).symm
    subst e
    decide
  · exact h 16 rfl ⟨0x400F, 1⟩ (by decide) (by decide)

theorem witness_Utf8Error :
    let s := loaded 0x07 (ops 0x3000 1 0 0 0x4000 64) (image [0xC3])
    Fresh s ∧ Runnable (.fingerprint false) s ∧ ReadsAnswered (.fingerprint false) s
      ∧ wellFormedUtf8 (s.mem.readRun s.latch.srcAddr.toNat s.latch.srcLen.toNat) = false :=
  ⟨⟨rfl, rfl⟩, runnable_of rfl rfl (by decide), reads_of rfl, by decide +kernel⟩

/-- A blob of 3 bytes, without the whole magic; and IDX-1 cut to 55 bytes, one byte short of the key. -/
theorem witness_IndexErrors :
    (let s := loaded 0x02 (ops 0 0 0x2000 3 0x4000 48) (image []);
      Fresh s ∧ Runnable .decodeIndex s
        ∧ (∀ a, s.latch.auxAddr.toNat ≤ a → a < s.latch.auxAddr.toNat + s.latch.auxLen.toNat →
          s.cfg.busErrAt a .read = false)
        ∧ (s.mem.readRun s.latch.auxAddr.toNat s.latch.auxLen.toNat).take 4 ≠ [0xAB, 0xBA, 0x01, 0x00])
    ∧ (let s := loaded 0x02 (ops 0 0 0x2000 55 0x4000 48) (image []);
      Fresh s ∧ Runnable .decodeIndex s
        ∧ (∀ a, s.latch.auxAddr.toNat ≤ a → a < s.latch.auxAddr.toNat + s.latch.auxLen.toNat →
          s.cfg.busErrAt a .read = false)
        ∧ (s.mem.readRun s.latch.auxAddr.toNat s.latch.auxLen.toNat).take 4 = [0xAB, 0xBA, 0x01, 0x00]
        ∧ (deobf s.sk ((s.mem.readRun s.latch.auxAddr.toNat s.latch.auxLen.toNat).drop 4)).length < 52) :=
  ⟨⟨⟨rfl, rfl⟩, runnable_of rfl rfl (by decide), fun _ _ _ => rfl, by decide +kernel⟩,
    ⟨rfl, rfl⟩, runnable_of rfl rfl (by decide), fun _ _ _ => rfl, by decide +kernel, by decide +kernel⟩

/-- ENCRYPT_RAW of 17 bytes, the last of which gets an error response: one block is written before it. -/
def sEncRawBus (errs : List BusErrRange) : State :=
  { fresh 0x05 (ops 0x3000 17 0x5000 48 0x4000 32) (image (key.take 17)) with cfg := cfg errs }

/-- FINGERPRINT of two bytes, the second of which gets an error response; and ENCRYPT_RAW of 17 bytes, the last of which
does. -/
theorem witness_BusErrorOnRead :
    (let s := { loaded 0x07 (ops 0x3000 2 0 0 0x4000 64) [] with cfg := cfg [⟨.read, 0x3001, 0x3002⟩] };
      Fresh s ∧ Runnable (.fingerprint false) s ∧ inputs (.fingerprint false) s = ⟨0x3000, 2⟩ :: [] ∧ 1 < 2
        ∧ (∀ m, m < 1 → s.cfg.busErrAt (0x3000 + m) .read = false) ∧ s.cfg.busErrAt (0x3000 + 1) .read = true)
    ∧ (let s := sEncRawBus [⟨.read, 0x3010, 0x3011⟩];
      Fresh s ∧ s.mem.wf = true ∧ Runnable .encryptRaw s
        ∧ Keys .encryptRaw s (s.mem.readRun s.latch.auxAddr.toNat 32) (s.mem.readRun (s.latch.auxAddr.toNat + 32) 16)
        ∧ (∀ a, s.latch.auxAddr.toNat ≤ a → a < s.latch.auxAddr.toNat + s.latch.auxLen.toNat →
          s.cfg.busErrAt a .read = false)
        ∧ 16 < s.latch.srcLen.toNat
        ∧ (∀ m, m < 16 → s.cfg.busErrAt (s.latch.srcAddr.toNat + m) .read = false)
        ∧ s.cfg.busErrAt (s.latch.srcAddr.toNat + 16) .read = true
        ∧ ∀ m, m < 16 * (16 / 16) → s.cfg.busErrAt (s.latch.dstAddr.toNat + m) .write = false) := by
  refine ⟨⟨⟨rfl, rfl⟩, runnable_of rfl rfl (by decide), rfl, by decide, by decide, by decide⟩, ⟨rfl, rfl⟩,
    by decide +kernel, runnable_of rfl rfl (by decide), ⟨rfl, rfl⟩, fun a h1 h2 => ?_, by decide, by decide, by decide,
    by decide⟩
  have e1 : (sEncRawBus [⟨.read, 0x3010, 0x3011⟩]).latch.auxAddr.toNat = 0x5000 := by decide
  rw [e1] at h1
  have : ¬a < 0x3011 := by omega
  simp [sEncRawBus, fresh, cfg, Config.busErrAt, this]

/-- The bus read error of that command leaves its code, its address and a zeroed block. -/
theorem test_encryptRaw_bus :
    ends (step (sEncRawBus [⟨.read, 0x3010, 0x3011⟩])) (fun t =>
      t.errAddr == 0x3010 && gives 0x04 [] t && t.mem.readRun 0x4000 16 == List.replicate 16 0) = true := by
  decide +kernel

/-- CATALOGUE_NAME of ten bytes, the last of which gets an error response; and ENCRYPT_RAW with the first byte of its
second block. -/
theorem witness_BusErrorOnWrite :
    (Fresh sNameBus ∧ sNameBus.mem.wf = true ∧ Runnable (.catalogueName 11) sNameBus
      ∧ ReadsAnswered (.catalogueName 11) sNameBus ∧ Produces (.catalogueName 11) sNameBus nameSessionId
      ∧ 9 < nameSessionId.length
      ∧ (∀ m, m < 9 → sNameBus.cfg.busErrAt (sNameBus.latch.dstAddr.toNat + m) .write = false)
      ∧ sNameBus.cfg.busErrAt (sNameBus.latch.dstAddr.toNat + 9) .write = true)
    ∧ (let s := sEncRawBus [⟨.write, 0x4010, 0x4011⟩];
      let bs := cbcEncrypt (s.mem.readRun s.latch.auxAddr.toNat 32) (s.mem.readRun (s.latch.auxAddr.toNat + 32) 16)
        (s.mem.readRun s.latch.srcAddr.toNat s.latch.srcLen.toNat);
      Fresh s ∧ s.mem.wf = true ∧ Runnable .encryptRaw s ∧ ReadsAnswered .encryptRaw s ∧ Produces .encryptRaw s bs
        ∧ 16 < bs.length ∧ (∀ m, m < 16 → s.cfg.busErrAt (s.latch.dstAddr.toNat + m) .write = false)
        ∧ s.cfg.busErrAt (s.latch.dstAddr.toNat + 16) .write = true) :=
  ⟨⟨⟨rfl, rfl⟩, rfl, runnable_of rfl (by show 11 < 12; decide) (by decide), fun _ h => (List.not_mem_nil h).elim, rfl,
      by decide, by decide, by decide⟩,
    ⟨rfl, rfl⟩, by decide +kernel, runnable_of rfl rfl (by decide), fun _ _ _ _ _ => rfl, ⟨_, _, ⟨rfl, rfl⟩, rfl⟩,
    by decide +kernel, by decide, by decide⟩

theorem witness_Deobfuscation : 1 ≤ ([0x01] : List Byte).length := by decide

theorem witness_CbcRoundTrip : key.length = 32 ∧ iv.length = 16 := by decide

theorem witness_ShaPadding : ([] : List Byte).length < 2 ^ 61 ∧ (List.replicate 64 (0x61 : Byte)).length < 2 ^ 61 := by
  decide

/-- "é" as one scalar. -/
theorem witness_FingerprintForms :
    (∀ x ∈ ([[0xC3, 0xA9]] : List (List Byte)), IsScalar x) ∧ (key : List Byte).length = 32 ∧ 31 < 32 := by
  refine ⟨fun x hx => ?_, by decide, by decide⟩
  simp only [List.mem_singleton] at hx
  subst hx
  exact ⟨⟨by decide, by decide⟩, by decide, by decide⟩

end Sys2Proof.Tests
end

section
/-! PROOFS. The parameters of the instance: no host step, engine turn, command or completion changes them
(00_scope.md R7, 10_state.md R36). -/

namespace Sys2Proof.Machine

/-- `t` is a point of the command running in `s`, as far as the host's steps and the engine's accesses alike must leave
it: BUSY, the latch and the parameters. -/
structure Running (s t : State) : Prop where
  busy : t.busy = true
  latch : t.latch = s.latch
  cfg : t.cfg = s.cfg

theorem Running.hostChange {s t u : State} {e : Event} (h : Running s t) (hc : HostChange e t u) : Running s u where
  busy := hc.busy h.busy
  latch := (hc.latch h.busy).trans h.latch
  cfg := hc.cfg.trans h.cfg

theorem Running.setEnv {s t : State} (h : Running s t) (events : List Event) : Running s { t with env := events } :=
  ⟨h.busy, h.latch, h.cfg⟩

/-- The engine's turn keeps the parameters, of a running core or an idle one. -/
theorem engineTurn_cfg {s t : State} (h : t.cfg = s.cfg) :
    (engineTurn t).Sat (fun u => u.cfg = s.cfg) (fun u => u.cfg = s.cfg) :=
  engineTurn_sat
    (fun e _ u rest hu _ => (hostEvent_change e { u with env := rest }).mono
      (fun _ hc => ⟨hc.cfg.trans hu, hc.env⟩) fun _ ⟨_, _, hr⟩ => hr ▸ hu)
    (fun _ _ hu _ => hu) h

/-- The engine's turn keeps a command running, or a reset cuts it off with the parameters kept. -/
theorem engineTurn_running {s t : State} (h : Running s t) :
    (engineTurn t).Sat (Running s) (fun u => u.cfg = s.cfg) :=
  engineTurn_sat
    (fun e _ u rest hu _ => (hostEvent_change e { u with env := rest }).mono
      (fun _ hc => ⟨(hu.setEnv rest).hostChange hc, hc.env⟩) fun _ ⟨_, _, hr⟩ => hr ▸ hu.cfg)
    (fun _ rest hu _ => hu.setEnv rest) h

theorem completion_cfg {s t : State} (e : ErrCode) (n ea : Nat) (h : t.cfg = s.cfg) :
    OutcomeSat (completion e n ea t) (fun u => u.cfg = s.cfg) (fun _ => True) :=
  completion_sat e n ea (engineTurn_cfg h) (fun _ hu => hu) fun _ hu => hu

theorem takeError_cfg {s t : State} (e : ErrCode) (ea : Nat) (h : t.cfg = s.cfg) :
    OutcomeSat (takeError e ea t) (fun u => u.cfg = s.cfg) (fun _ => True) :=
  takeError_sat (J := fun u => u.cfg = s.cfg) (A := fun u => u.cfg = s.cfg)
    (scrub_sat (J := fun _ u => u.cfg = s.cfg) (k := 0) h fun _ _ _ hu =>
      (engineTurn_cfg hu).mono (fun _ hv => hv) fun _ hv => hv)
    (fun _ hu => completion_cfg e 0 _ hu) fun _ hu => hu

/-- A running command keeps BUSY, its latch and the parameters at every access; its last step, the parameters. -/
theorem steady_running (i : Instr) (s : State) :
    Steady i s (fun _ _ => Running s) (fun _ _ t => t.cfg = s.cfg) (fun t => t.cfg = s.cfg) (fun _ => True) where
  latch _ _ _ h := h.latch
  cfg _ _ _ h := h.cfg
  turn _ _ _ h _ := engineTurn_running h
  work _ _ _ _ h _ := ⟨h.busy, h.latch, h.cfg⟩
  write _ _ _ _ h _ _ _ _ := ⟨h.busy, h.latch, h.cfg⟩
  extent _ h _ := ⟨h.busy, h.latch, h.cfg⟩
  device _ _ _ := trivial
  store _ _ _ _ _ _ _ _ _ h := h.cfg
  other _ _ _ _ h := h.cfg

theorem exec_cfg (i : Instr) {s : State} (hb : s.busy = true) :
    OutcomeSat (exec i s) (fun t => t.cfg = s.cfg) (fun _ => True) := by
  rw [exec_eq_conclude]
  refine conclude_sat (run_sat (steady_running i s) ⟨hb, rfl, rfl⟩) (fun n t ht => ?_) (fun e ea t ht => ?_)
    fun _ ht => ht
  · obtain ⟨-, -, _, -, hcfg⟩ := ht
    exact completion_cfg .ok n 0 hcfg
  · obtain ⟨-, -, _, _, -, -, hrun⟩ := ht
    exact takeError_cfg e ea hrun.cfg

theorem hostStep_cfg (s : State) : OutcomeSat (hostStep s) (fun t => t.cfg = s.cfg) (fun _ => True) := by
  unfold hostStep
  cases s.env with
  | nil => exact rfl
  | cons e rest =>
    have hev := hostEvent_cfg e { s with env := rest }
    simp only
    cases hx : hostEvent e { s with env := rest } with
    | ready t => rw [hx] at hev; exact hev
    | aborted t => rw [hx] at hev; exact hev

/-- Every step, of a command, of an illegal word or of the host, keeps the parameters, and none faults. -/
theorem step_cfg (s : State) : OutcomeSat (step s) (fun t => t.cfg = s.cfg) (fun _ => True) := by
  unfold step
  split
  case isTrue hb =>
    split
    case h_1 i _ => exact exec_cfg i hb
    case h_2 => exact takeError_cfg .illegal 0 rfl
  case isFalse => exact hostStep_cfg s

/-- Settles O22: what holds of every outcome of a step holds of the state it leaves. -/
theorem parametersAreConstant : Obligations.ParametersAreConstant := by
  intro s t hstep
  have hcfg := step_cfg s
  rw [hstep] at hcfg
  exact hcfg

end Sys2Proof.Machine
end

section
/-! PROOFS. The register window (10_state.md R18 to R34): what a legal host read answers and what a legal host write
changes, register by register; the command that a step of a busy core runs; what host steps leave of the results. -/

namespace Sys2Proof.Machine

/-- Settles O5. -/
theorem stepRunsDecodedCommand : Obligations.StepRunsDecodedCommand := by
  intro s i hbusy hdec
  simp only [step, hbusy, if_true, hdec]

/-! ### Reading registers -/

/-- CONFIG holds CAT_COUNT over SKEY_MAX (R21). -/
theorem configValue_eq {c : Config} (h : c.skeyMax ≤ 65535) :
    configValue c = BitVec.ofNat 32 (12 * 65536 + c.skeyMax) := by
  have hlow : BitVec.ofNat 32 c.skeyMax &&& 0xFFFF = BitVec.ofNat 32 c.skeyMax := by
    refine BitVec.eq_of_toNat_eq ?_
    rw [BitVec.toNat_and, show (0xFFFF : Word).toNat = 2 ^ 16 - 1 from rfl, Nat.and_two_pow_sub_one_eq_mod,
      BitVec.toNat_ofNat]
    omega
  have hor : 12 * 65536 ||| c.skeyMax = 12 * 65536 + c.skeyMax :=
    (Nat.two_pow_add_eq_or_of_lt (i := 16) (by omega) 12).symm
  rw [configValue, hlow, ← hor, BitVec.ofNat_or]
  rfl

/-- The low `n` bits of a word, the others as 0. -/
theorem and_mask_eq (w : Word) (n : Nat) :
    w &&& BitVec.ofNat 32 (2 ^ n - 1) = BitVec.ofNat 32 (w.toNat % 2 ^ n) := by
  refine BitVec.eq_of_getLsbD_eq fun j hj => ?_
  simp only [BitVec.getLsbD_and, BitVec.getLsbD_ofNat, Nat.testBit_two_pow_sub_one, Nat.testBit_mod_two_pow, hj,
    decide_true, Bool.true_and]
  exact Bool.and_comm _ _

/-- Reserved offsets read 0 (R19, R32). -/
theorem readOffset_reserved (s : State) {off : Nat} (h : 0x040 ≤ off) : s.readOffset off = 0 := by
  unfold State.readOffset
  split <;> first | omega | rfl

/-- Settles O9: the answer is `readOffset` of the register's offset; CONFIG and the registers with reserved bits are
brought to the form of the statement, and the others read as they stand. -/
theorem registerReads : Obligations.RegisterReads := by
  intro s hmax
  constructor
  · have hstatus : s.status &&& 0xF = BitVec.ofNat 32 (s.status.toNat % 16) := and_mask_eq s.status 4
    have hresult : s.result &&& 0xFF = BitVec.ofNat 32 (s.result.toNat % 256) := and_mask_eq s.result 8
    have hirqEn : s.irqEn &&& 1 = BitVec.ofNat 32 (s.irqEn.toNat % 2) := and_mask_eq s.irqEn 1
    have hirqStat : s.irqStat &&& 1 = BitVec.ofNat 32 (s.irqStat.toNat % 2) := and_mask_eq s.irqStat 1
    rw [← configValue_eq hmax, ← hstatus, ← hresult, ← hirqEn, ← hirqStat]
    simp only [List.forall_mem_cons, List.not_mem_nil, false_imp_iff, implies_true, and_true]
    refine ⟨?_, ?_, ?_, ?_, ?_, ?_, ?_, ?_, ?_, ?_, ?_, ?_, ?_, ?_, ?_, ?_⟩
    all_goals exact hostEvent_mmioRead s (by decide) (by decide)
  · intro off hlo hhi h4
    rw [hostEvent_mmioRead s (by omega) h4, readOffset_reserved s hlo]
    rfl

/-! ### Writing registers -/

/-- Reserved offsets ignore writes (R19). -/
theorem writeOffset_reserved (s : State) (v : Word) {off : Nat} (h : 0x040 ≤ off) : s.writeOffset off v = s := by
  unfold State.writeOffset
  split <;> first | omega | rfl

/-- Settles O11: a legal write is `writeOffset`, which has one arm per operand register and none for the others. -/
theorem registerWrites : Obligations.RegisterWrites := by
  intro s v
  refine ⟨?srcAddr, ?srcLen, ?auxAddr, ?auxLen, ?dstAddr, ?dstLen, ?readOnly, ?reserved⟩
  case readOnly =>
    simp only [List.forall_mem_cons, List.not_mem_nil, false_imp_iff, implies_true, and_true]
    refine ⟨?_, ?_, ?_, ?_, ?_, ?_⟩
    all_goals exact hostEvent_mmioWrite s v (by decide) (by decide)
  case reserved =>
    intro off hlo hhi h4
    rw [hostEvent_mmioWrite s v (by omega) h4, writeOffset_reserved s v hlo]
  all_goals exact hostEvent_mmioWrite s v (by decide) (by decide)

/-- A command just accepted runs (R23). -/
theorem busy_accept (s : State) (v : Word) : (s.accept v).busy = true := getLsbD_statusAccepted s.status 0

/-- Settles O8: a legal write of CMD is `writeCmd`, which BUSY sends to `overrun` or to `accept`. -/
theorem commandAcceptance : Obligations.CommandAcceptance := by
  intro s v
  have hwrite : hostEvent (.mmioWrite (s.cfg.base + 0x008) 32 v) s = .ready (s.writeCmd v) :=
    hostEvent_mmioWrite s v (by decide) (by decide)
  constructor
  · intro hbusy
    refine ⟨s.overrun, by rw [hwrite, State.writeCmd, if_pos hbusy], rfl, ?_, fun j hj => ?_⟩
    · exact getLsbD_setBit s.status 3 3 true (by decide)
    · exact (getLsbD_setBit s.status 3 j true (by decide)).trans (if_neg hj)
  · intro hidle
    refine ⟨s.accept v, by simp [hwrite, State.writeCmd, hidle], rfl, ?_, ?_, fun j hj => ?_⟩
    · exact busy_accept s v
    · exact getLsbD_statusAccepted s.status 1
    · simp [getLsbD_statusAccepted, show j ≠ 0 by omega, show j ≠ 1 by omega]

/-- A write-1-to-clear bit: written 1 it becomes 0, written 0 it stays, and no other bit changes (R18). -/
theorem getLsbD_clearIf (w : Word) (i j : Nat) (c : Bool) (hi : i < 32) :
    (if c then setBit w i false else w).getLsbD j = if j = i then w.getLsbD i && !c else w.getLsbD j := by
  cases c with
  | false => by_cases hj : j = i <;> simp [hj]
  | true => simpa using getLsbD_setBit w i j false hi

/-- A write of STATUS clears OVR where the bit written is 1 (R24). -/
theorem writeOffset_status (s : State) (v : Word) :
    s.writeOffset 0x00C v = { s with status := if v.getLsbD 3 then setBit s.status 3 false else s.status } := by
  simp only [State.writeOffset]
  split <;> rfl

/-- A write of IRQ_STAT clears DONE_IP where the bit written is 1 (R29). -/
theorem writeOffset_irqStat (s : State) (v : Word) :
    s.writeOffset 0x020 v = { s with irqStat := if v.getLsbD 0 then setBit s.irqStat 0 false else s.irqStat } := by
  simp only [State.writeOffset]
  split <;> rfl

/-- Settles O12. -/
theorem flagWrites : Obligations.FlagWrites := by
  intro s v
  refine ⟨⟨_, hostEvent_mmioWrite s v (by decide) (by decide), ?_⟩,
    ⟨_, hostEvent_mmioWrite s v (by decide) (by decide), rfl, ?_⟩,
    ⟨_, hostEvent_mmioWrite s v (by decide) (by decide), ?_⟩⟩
  · rw [writeOffset_status]
    refine ⟨rfl, ?_, fun j hj => ?_⟩
    · exact (getLsbD_clearIf _ 3 3 _ (by decide)).trans (if_pos rfl)
    · exact (getLsbD_clearIf _ 3 j _ (by decide)).trans (if_neg hj)
  · show (v &&& 1).toNat = v.toNat % 2
    rw [BitVec.toNat_and]
    exact Nat.and_one_is_mod _
  · rw [writeOffset_irqStat]
    refine ⟨rfl, ?_, fun j hj => ?_⟩
    · exact (getLsbD_clearIf _ 0 0 _ (by decide)).trans (if_pos rfl)
    · exact (getLsbD_clearIf _ 0 j _ (by decide)).trans (if_neg (by omega))

/-! ### What host steps leave of the results -/

/-- Short of an acceptance a host step leaves the result registers (70_reset_and_hazards.md R152, R156). -/
theorem HostChange.results {e : Event} {s t : State} (h : HostChange e s t) (hb : s.busy = true ∨ t.busy = false) :
    t.result = s.result ∧ t.outLen = s.outLen ∧ t.errAddr = s.errAddr := by
  cases h with
  | accept v idle => simp [idle, busy_accept] at hb
  | _ => exact ⟨rfl, rfl, rfl⟩

/-- Short of an acceptance a host step leaves DONE (R152, R157). -/
theorem HostChange.done {e : Event} {s t : State} (h : HostChange e s t) (hb : s.busy = true ∨ t.busy = false) :
    t.done = s.done := by
  cases h with
  | accept v idle => simp [idle, busy_accept] at hb
  | ovr b => exact getLsbD_setBit s.status 3 1 b (by decide)
  | _ => rfl

/-- Settles O28: each part of the state is one lemma about `HostChange`. -/
theorem hostStepsLeaveResults : Obligations.HostStepsLeaveResults := by
  intro e s t hev
  have hc := hostEvent_change e s
  rw [hev] at hc
  have hc : HostChange e s t := hc
  constructor
  · intro hbusy
    obtain ⟨hresult, houtLen, herrAddr⟩ := hc.results (.inl hbusy)
    obtain ⟨hjournal, hextent⟩ := hc.records hbusy
    exact ⟨hc.busy hbusy, hc.latch hbusy, hc.work hbusy, hjournal, hextent, hresult, houtLen, herrAddr, hc.key⟩
  · intro _ hidle
    obtain ⟨hresult, houtLen, herrAddr⟩ := hc.results (.inr hidle)
    exact ⟨hresult, houtLen, herrAddr, hc.done (.inr hidle), hc.key⟩

end Sys2Proof.Machine
end

section
/-! PROOFS. The invariant of the step boundaries, and the static-key store under every command but LOAD_SKEY. Inside a
command the invariant holds of the state with its working state cleared; the engine's turns, its writes, the scrub and
LOAD_SKEY's store keep that, and the completion step clears the working state (60_exceptions.md R140). -/

namespace Sys2Proof.Machine

open Safety

/-! ### Assertions that hold all through a command -/

/-- `I` outlasts the engine's turns and the scrub's writes; `A` is what a reset leaves. -/
structure Lasting (I A : State → Prop) : Prop where
  turn : ∀ t, I t → (engineTurn t).Sat I A
  scrubbed : ∀ t (a : Word), I t → I { t with mem := t.mem.write a.toNat 0 }

section
variable {I A Q : State → Prop} {F : Refusal → Prop} {t : State}

theorem Lasting.takeError (h : Lasting I A) (e : ErrCode) (ea : Nat) (ht : I t)
    (hfin : ∀ u, I u → Q (u.finish e 0 (if e = .bus then ea else 0))) (ha : ∀ u, A u → Q u) :
    OutcomeSat (takeError e ea t) Q F := by
  have hturn (u : State) (hu : I u) (a : Word) :
      (engineTurn u).Sat (fun v => I { v with mem := v.mem.write a.toNat 0 }) A :=
    (h.turn u hu).mono (fun v hv => h.scrubbed v a hv) fun _ hv => hv
  exact takeError_sat (scrub_sat (J := fun _ => I) (k := 0) ht fun _ _ u hu => hturn u hu _)
    (fun u hu => completion_sat e 0 _ (h.turn u hu) hfin ha) ha

/-- What holds after every completion step that a command can take, and after every reset that can cut it off, holds
after the command. -/
theorem Lasting.exec (h : Lasting I A) {i : Instr} {s : State}
    (hI : Steady i s (fun _ _ => I) (fun _ _ => I) A F) (hs : I s)
    (hfin : ∀ e n ea u, (e ≠ .ok → n = 0) → (e ≠ .bus → ea = 0) → I u → Q (u.finish e n ea)) (ha : ∀ u, A u → Q u) :
    OutcomeSat (exec i s) Q F := by
  rw [exec_eq_conclude]
  refine conclude_sat (run_sat hI hs) (fun n t ht => ?_) (fun e ea t ht => ?_) ha
  · obtain ⟨-, -, _, -, ht⟩ := ht
    exact completion_sat .ok n 0 (h.turn t ht)
      (fun u hu => hfin .ok n 0 u (fun hne => absurd rfl hne) (fun _ => rfl) hu) ha
  · obtain ⟨-, -, _, _, -, -, ht⟩ := ht
    exact h.takeError e ea ht (fun u hu => hfin e 0 _ u (fun _ => rfl) (fun hne => if_neg hne) hu) ha

end

/-! ### The static-key store -/

/-- `t` is a point of the command running in `s`, with the static-key store as in `s` and no reset to come. -/
structure KeyRunning (s t : State) : Prop extends Running s t where
  key : KeyKept s t
  noReset : ∀ e ∈ t.env, NotReset e

theorem KeyRunning.setEnv {s t : State} {e : Event} {rest : List Event} (h : KeyRunning s t) (he : t.env = e :: rest) :
    KeyRunning s { t with env := rest } where
  toRunning := h.toRunning.setEnv rest
  key := h.key
  noReset := fun e' he' => h.noReset e' (he ▸ List.mem_cons_of_mem e he')

theorem KeyRunning.hostChange {s t u : State} {e : Event} (h : KeyRunning s t) (hc : HostChange e t u) :
    KeyRunning s u where
  toRunning := h.toRunning.hostChange hc
  key := keyKept_trans h.key hc.key
  noReset := hc.env ▸ h.noReset

theorem lasting_keyRunning (s : State) : Lasting (KeyRunning s) (fun _ => False) where
  turn _ h := engineTurn_sat
    (fun e _ u rest hu he => (hostEvent_change e { u with env := rest }).mono
      (fun _ hc => ⟨(hu.setEnv he).hostChange hc, hc.env⟩)
      fun _ ⟨rs, hr, _⟩ => hu.noReset (.reset rs) (by rw [he, hr]; exact List.mem_cons_self))
    (fun _ _ hu he => hu.setEnv he) h
  scrubbed _ _ h := { h with }

/-- No access of a command other than LOAD_SKEY changes the static-key store (10_state.md R33). -/
theorem steady_keyRunning {i : Instr} (hi : i ≠ .loadSkey) (s : State) :
    Steady i s (fun _ _ => KeyRunning s) (fun _ _ => KeyRunning s) (fun _ => False) (fun _ => True) where
  latch _ _ _ h := h.latch
  cfg _ _ _ h := h.cfg
  turn _ _ t h _ := (lasting_keyRunning s).turn t h
  work _ _ _ _ h _ := { h with }
  write _ _ _ _ h _ _ _ _ := { h with }
  extent _ h _ := { h with }
  device _ _ _ := trivial
  store _ _ _ _ hload _ _ _ _ _ := absurd hload hi
  other _ _ _ _ h := h

/-- Settles O20: the completion step, too, leaves the static-key store. -/
theorem onlyLoadSkeyWritesKey : Obligations.OnlyLoadSkeyWritesKey := by
  intro i s t hbusy hi hres hexec
  have hs : KeyRunning s s := ⟨⟨hbusy, rfl, rfl⟩, ⟨rfl, rfl, rfl⟩, hres⟩
  have hkept := (lasting_keyRunning s).exec (Q := KeyKept s) (steady_keyRunning hi s) hs
    (fun e n ea u _ _ hu => keyKept_trans hu.key (keyKept_finish e n ea rfl)) fun _ hf => hf.elim
  rw [hexec] at hkept
  exact hkept

/-! ### What keeps the invariant -/

/-- Setting one of the low `n` bits keeps the bits above them 0. -/
theorem toNat_setBit_lt {w : Word} {n i : Nat} (b : Bool) (h : w.toNat < 2 ^ n) (hin : i < n) (hi : i < 32) :
    (setBit w i b).toNat < 2 ^ n := by
  refine toNat_lt_of_bits n fun j hj => ?_
  rw [getLsbD_setBit w i j b hi, if_neg (by omega)]
  exact getLsbD_of_toNat_lt h hj

theorem toNat_statusAccepted_lt {w : Word} (h : w.toNat < 16) : (statusAccepted w).toNat < 16 :=
  toNat_setBit_lt (n := 4) true (toNat_setBit_lt false h (by decide) (by decide)) (by decide) (by decide)

theorem toNat_statusCompleted_lt {w : Word} (h : w.toNat < 16) : (statusCompleted w).toNat < 16 :=
  toNat_setBit_lt (n := 4) true (toNat_setBit_lt false h (by decide) (by decide)) (by decide) (by decide)

theorem toNat_setBit_zero_le {w : Word} (b : Bool) (h : w.toNat ≤ 1) : (setBit w 0 b).toNat ≤ 1 :=
  Nat.le_of_lt_succ (toNat_setBit_lt (n := 1) b (Nat.lt_succ_of_le h) (by decide) (by decide))

/-- RESULT takes one of the 13 codes (60_exceptions.md R124). -/
theorem ErrCode.toNat_code_le (e : ErrCode) : e.code.toNat ≤ 0x0C := by
  cases e <;> decide

/-- Acceptance keeps the invariant of an idle core (10_state.md R23). -/
theorem inv_accept {s : State} (v : Word) (h : Inv s) : Inv (s.accept v) :=
  have hdone : (s.accept v).done = false := getLsbD_statusAccepted s.status 1
  { h with
    statusReserved := toNat_statusAccepted_lt h.statusReserved
    busyOrDone := fun hbd => Bool.false_ne_true (hdone.symm.trans hbd.2)
    busyResults := fun _ => ⟨rfl, rfl, rfl⟩
    busyLatch := fun _ => rfl
    resultCode := Nat.zero_le _
    errorNoOutput := fun _ => rfl
    errAddrBus := fun hne => absurd rfl hne
    skeyLenValid := by rw [skeyValid_accept]; exact h.skeyLenValid
    skeyRamZero := by rw [skeyValid_accept]; exact h.skeyRamZero
    workZero := by rw [State.accept_work, h.workZero]; rfl
    journalEmpty := rfl
    extentZero := rfl }

/-- The invariant says nothing of OVR but that it is no reserved bit. -/
theorem inv_setOvr {s : State} (b : Bool) (h : Inv s) : Inv { s with status := setBit s.status 3 b } :=
  have hbusy := busy_setBit_ovr s b
  have hdone : State.done { s with status := setBit s.status 3 b } = s.done := getLsbD_setBit s.status 3 1 b (by decide)
  have hvalid := skeyValid_setBit_ovr s b
  { h with
    statusReserved := toNat_setBit_lt (n := 4) b h.statusReserved (by decide) (by decide)
    busyOrDone := by rw [hbusy, hdone]; exact h.busyOrDone
    busyResults := by rw [hbusy]; exact h.busyResults
    busyLatch := by rw [hbusy]; exact h.busyLatch
    skeyLenValid := by rw [hvalid]; exact h.skeyLenValid
    skeyRamZero := by rw [hvalid]; exact h.skeyRamZero }

/-- Every host step short of a reset keeps the invariant. -/
theorem inv_hostChange {e : Event} {s t : State} (hc : HostChange e s t) (h : Inv s) : Inv t := by
  cases hc with
  | same => exact h
  | accept v _ => exact inv_accept v h
  | ovr b => exact inv_setOvr b h
  | irqEn v => exact { h with irqEnReserved := (BitVec.toNat_and v 1).trans_le Nat.and_le_right }
  | irqStat => exact { h with irqStatReserved := toNat_setBit_zero_le false h.irqStatReserved }
  | operands l => exact { h with }
  | reply r => exact { h with }
  | store a v _ _ => exact { h with memWf := Memory.wf_write v h.memWf a.isLt }

/-- The reset state meets the invariant, whatever command the reset cut off (70_reset_and_hazards.md R150). -/
theorem inv_hardReset {s : State} (rs : List Residue) (hcfg : s.cfg.wf = true) (hmem : s.mem.wf = true)
    (hext : s.latch.dstAddr.toNat + s.extent ≤ addressSpace) : Inv (s.hardReset rs) where
  cfgWf := hcfg
  memWf := wf_leaveResidue rs s.journal hmem hext
  statusReserved := show (0 : Word).toNat < 16 by decide
  busyOrDone := by simp [State.busy]
  busyResults := fun _ => ⟨rfl, rfl, rfl⟩
  busyLatch := fun _ => rfl
  resultCode := Nat.zero_le _
  errorNoOutput := fun _ => rfl
  errAddrBus := fun hne => absurd rfl hne
  irqEnReserved := Nat.zero_le _
  irqStatReserved := Nat.zero_le _
  skeyRamSize := List.length_replicate
  skeyLenMax := Nat.zero_le _
  skeyLenValid := by simp [State.skeyValid]
  skeyRamZero := fun _ => rfl
  workZero := rfl
  journalEmpty := rfl
  extentZero := rfl

/-- LOAD_SKEY's store of a key that fits makes SKEY_LEN non-zero with SKEY_VALID (40_key_store.md R73). -/
theorem inv_storeKey {s : State} {bs : List Byte} (h : Inv s) (hlen : bs.length = s.latch.srcLen.toNat)
    (hne : s.latch.srcLen ≠ 0) (hmax : s.latch.srcLen.toNat ≤ s.cfg.skeyMax) : Inv (s.storeKey bs) :=
  have hbit (j : Nat) : (s.storeKey bs).status.getLsbD j = if j = 2 then true else s.status.getLsbD j :=
    getLsbD_setBit s.status 2 j true (by decide)
  have hbusy : (s.storeKey bs).busy = s.busy := hbit 0
  have hdone : (s.storeKey bs).done = s.done := hbit 1
  have hvalid : (s.storeKey bs).skeyValid = true := hbit 2
  { h with
    statusReserved := toNat_setBit_lt (n := 4) true h.statusReserved (by decide) (by decide)
    busyOrDone := by rw [hbusy, hdone]; exact h.busyOrDone
    busyResults := by rw [hbusy]; exact h.busyResults
    busyLatch := by rw [hbusy]; exact h.busyLatch
    skeyRamSize := by
      have hsize := h.skeyRamSize
      simp only [State.storeKey_skeyRam, State.storeKey_cfg, List.length_append, List.length_drop]
      omega
    skeyLenMax := hmax
    skeyLenValid := ⟨fun _ => hne, fun _ => hvalid⟩
    skeyRamZero := fun hv => absurd (hvalid.symm.trans hv) (by decide) }

/-! ### Inside a command -/

/-- `s` with its working state cleared, and the model's own records with it. -/
def State.settled (s : State) : State := { s with work := Work.zero, journal := [], extent := 0 }

/-- Where nothing is left of a command, `settled` clears nothing. -/
theorem State.settled_of_inv {s : State} (h : Inv s) : s.settled = s := by
  rw [State.settled, ← h.workZero, ← h.journalEmpty, ← h.extentZero]

/-- A running core's host steps do not touch the working state, so that clearing it before them or after is the same. -/
theorem HostChange.settled {e : Event} {s t : State} (hc : HostChange e s t) (hb : s.busy = true) :
    HostChange e s.settled t.settled := by
  cases hc with
  | same => exact .same
  | accept v idle => rw [hb] at idle; cases idle
  | ovr b => exact .ovr b
  | irqEn v => exact .irqEn v
  | irqStat => exact .irqStat
  | operands l => exact .operands l
  | reply r => exact .reply r
  | store a v is plain => exact .store a v is plain

/-- The completion step brings the invariant of the step boundary back, with any code: an error has no output, and
only BUS an address (60_exceptions.md R140). -/
theorem inv_finish {t : State} {e : ErrCode} {n ea : Nat} (h : Inv t.settled) (hn : e ≠ .ok → n = 0)
    (hea : e ≠ .bus → ea = 0) : Inv (t.finish e n ea) :=
  have hidle : (t.finish e n ea).busy = false := getLsbD_statusCompleted t.status 0
  have hnot : ¬ (t.finish e n ea).busy = true := by simp [hidle]
  have hvalid : (t.finish e n ea).skeyValid = t.settled.skeyValid := getLsbD_statusCompleted t.status 2
  { h with
    statusReserved := toNat_statusCompleted_lt h.statusReserved
    busyOrDone := fun hbd => hnot hbd.1
    busyResults := fun hb => absurd hb hnot
    busyLatch := fun hb => absurd hb hnot
    resultCode := e.toNat_code_le
    errorNoOutput := fun hne => by
      rw [State.finish_outLen, hn fun he => hne (by rw [he]; rfl)]
      rfl
    errAddrBus := fun hne => by
      have he : e = .bus := Classical.byContradiction fun he => hne (by rw [State.finish_errAddr, hea he]; rfl)
      rw [he]
      rfl
    irqStatReserved := toNat_setBit_zero_le true h.irqStatReserved
    skeyLenValid := by rw [hvalid]; exact h.skeyLenValid
    skeyRamZero := by rw [hvalid]; exact h.skeyRamZero
    workZero := rfl
    journalEmpty := rfl
    extentZero := rfl }

/-- `t` is a point of the command running in `s`: the invariant holds but for the working state, and the output extent
lies in the address space. -/
structure InvRunning (s t : State) : Prop extends Running s t where
  inv : Inv t.settled
  extentRange : t.latch.dstAddr.toNat + t.extent ≤ addressSpace

theorem InvRunning.start {s : State} (h : Inv s) (hb : s.busy = true) : InvRunning s s where
  busy := hb
  latch := rfl
  cfg := rfl
  inv := (State.settled_of_inv h).symm ▸ h
  extentRange := by rw [h.extentZero]; exact s.latch.dstAddr.isLt.le

theorem InvRunning.setEnv {s t : State} (h : InvRunning s t) (events : List Event) :
    InvRunning s { t with env := events } :=
  { h with inv := { h.inv with } }

theorem InvRunning.hostChange {s t u : State} {e : Event} (h : InvRunning s t) (hc : HostChange e t u) :
    InvRunning s u where
  toRunning := h.toRunning.hostChange hc
  inv := inv_hostChange (hc.settled h.busy) h.inv
  extentRange := by rw [hc.latch h.busy, (hc.records h.busy).2]; exact h.extentRange

theorem InvRunning.hardReset {s t : State} (rs : List Residue) (h : InvRunning s t) : Inv (t.hardReset rs) :=
  inv_hardReset rs h.inv.cfgWf h.inv.memWf h.extentRange

theorem InvRunning.setMem {s t : State} {m : Memory} (h : InvRunning s t) (hm : m.wf = true) :
    InvRunning s { t with mem := m } :=
  { h with inv := { h.inv with memWf := hm } }

theorem lasting_invRunning (s : State) : Lasting (InvRunning s) Inv where
  turn _ h := engineTurn_sat
    (fun e _ u rest hu _ => (hostEvent_change e { u with env := rest }).mono
      (fun _ hc => ⟨(hu.setEnv rest).hostChange hc, hc.env⟩) fun _ ⟨rs, _, hr⟩ => hr ▸ (hu.setEnv rest).hardReset rs)
    (fun _ rest hu _ => hu.setEnv rest) h
  scrubbed _ a h := h.setMem (Memory.wf_write 0 h.inv.memWf a.isLt)

theorem InvRunning.storeKey {s t : State} {bs : List Byte} (h : InvRunning s t)
    (hlen : bs.length = s.latch.srcLen.toNat) (hne : s.latch.srcLen ≠ 0)
    (hmax : s.latch.srcLen.toNat ≤ s.cfg.skeyMax) : InvRunning s (t.storeKey bs) where
  busy := (getLsbD_setBit t.status 2 0 true (by decide)).trans h.busy
  latch := h.latch
  cfg := h.cfg
  inv := by
    rw [← h.latch] at hlen hne hmax
    rw [← h.cfg] at hmax
    exact inv_storeKey h.inv hlen hne hmax
  extentRange := h.extentRange

/-- All through every command the invariant holds but for the working state. -/
theorem steady_invRunning (i : Instr) (s : State) :
    Steady i s (fun _ _ => InvRunning s) (fun _ _ => InvRunning s) Inv (fun _ => True) where
  latch _ _ _ h := h.latch
  cfg _ _ _ h := h.cfg
  turn _ _ t h _ := (lasting_invRunning s).turn t h
  work _ _ _ _ h _ := { h with }
  write p _ t v h hp hrange _ _ :=
    have hmem := h.setMem (Memory.wf_write v h.inv.memWf (show s.latch.dstAddr.toNat + p < addressSpace by omega))
    { hmem with }
  extent _ h hrange := { h with extentRange := by rw [h.latch]; exact hrange }
  device _ _ _ := trivial
  store _ _ _ _ _ _ hlen hne hmax h := h.storeKey hlen hne hmax
  other _ _ _ _ h := h

/-! ### Every step -/

theorem exec_inv (i : Instr) {s : State} (h : Inv s) (hb : s.busy = true) :
    OutcomeSat (exec i s) Inv (fun _ => True) :=
  (lasting_invRunning s).exec (steady_invRunning i s) (.start h hb)
    (fun _ _ _ _ hn hea hu => inv_finish hu.inv hn hea) fun _ hu => hu

theorem runIllegal_inv {s : State} (h : Inv s) (hb : s.busy = true) :
    OutcomeSat (runIllegal s) Inv (fun _ => True) :=
  (lasting_invRunning s).takeError .illegal 0 (.start h hb)
    (fun _ hu => inv_finish hu.inv (fun _ => rfl) fun _ => rfl) fun _ hu => hu

/-- A reset of an idle core finds no output extent, so that it leaves memory as it is. -/
theorem hostEvent_inv (e : Event) {s : State} (h : Inv s) : (hostEvent e s).Sat Inv Inv :=
  (hostEvent_change e s).mono (fun _ hc => inv_hostChange hc h) fun _ ⟨rs, _, hr⟩ =>
    hr ▸ inv_hardReset rs h.cfgWf h.memWf (by rw [h.extentZero]; exact s.latch.dstAddr.isLt.le)

theorem hostStep_inv {s : State} (h : Inv s) : OutcomeSat (hostStep s) Inv (fun _ => True) := by
  unfold hostStep
  cases s.env with
  | nil => exact h
  | cons e rest =>
    have hev := hostEvent_inv e (s := { s with env := rest }) { h with }
    simp only
    cases hx : hostEvent e { s with env := rest } with
    | ready t => rw [hx] at hev; exact hev
    | aborted t => rw [hx] at hev; exact hev

theorem step_inv {s : State} (h : Inv s) : OutcomeSat (step s) Inv (fun _ => True) := by
  unfold step
  split
  case isTrue hb =>
    split
    case h_1 i _ => exact exec_inv i h hb
    case h_2 => exact runIllegal_inv h hb
  case isFalse => exact hostStep_inv h

/-- Settles O17. -/
theorem stepKeepsInvariant : Obligations.StepKeepsInvariant := by
  intro s t hinv hstep
  have hnext := step_inv hinv
  rw [hstep] at hnext
  exact hnext

end Sys2Proof.Machine
end

section
/-! PROOFS. System memory and the bus (20_memory.md R38 to R55): no access of a command leaves the address space, what
a host access to one byte of memory does, and the answer to an illegal MMIO access. -/

namespace Sys2Proof.Machine

/-- An outcome of which anything is known to hold is no fault. -/
theorem OutcomeSat.ne_fault {x : Host.Outcome State Fault Refusal} {Q : State → Prop} {F : Refusal → Prop}
    (h : OutcomeSat x Q F) (f : Fault) : x ≠ .fault f := by
  rintro rfl
  exact h

/-- Settles O21: `run_sat`, which `step_cfg` rests on, follows every access of a command under the bounds that
CheckRegions gives (R50), so that only outcomes other than faults are left. -/
theorem noStepFaults : Obligations.NoStepFaults := fun s f => (step_cfg s).ne_fault f

/-! ### Host accesses to one byte of memory -/

section
variable {s : State} {a : Nat}

theorem hostByte_plain (h : s.cfg.deviceAt a = false) : s.hostByte a = s.mem.read a := by
  simp [State.hostByte, h]

theorem hostStore_plain (h : s.cfg.deviceAt a = false) (v : Byte) :
    s.hostStore a v = { s with mem := s.mem.write a v } := by
  simp [State.hostStore, h]

theorem hostStore_device (h : s.cfg.deviceAt a = true) (v : Byte) : s.hostStore a v = s := by
  simp [State.hostStore, h]

end

/-- Settles O29: a host access is `hostByte` or `hostStore` at its address; in plain memory the store is
`Memory.write`, whose laws give the canonical form and the bytes. -/
theorem hostMemoryAccess : Obligations.HostMemoryAccess := by
  intro s a v
  constructor
  · intro hplain
    have hread : hostEvent (.memRead a) s = .ready (s.reply (.byte (s.mem.read a.toNat))) := by
      rw [hostEvent, hostByte_plain hplain]
    have hwrite : hostEvent (.memWrite a v) s = .ready { s with mem := s.mem.write a.toNat v } := by
      rw [hostEvent, hostStore_plain hplain]
    exact ⟨hread, _, hwrite, rfl, fun hwf =>
      ⟨Memory.wf_write v hwf a.isLt, fun b => Memory.read_write hwf a.toNat b v⟩⟩
  · intro hdevice
    have hwrite : hostEvent (.memWrite a v) s = .ready s := by rw [hostEvent, hostStore_device hdevice]
    exact ⟨⟨s.hostByte a.toNat, rfl⟩, hwrite⟩

/-! ### Illegal MMIO accesses -/

/-- Settles O10. -/
theorem illegalMmioAccess : Obligations.IllegalMmioAccess := fun s _ _ v hoff hbits hillegal =>
  hostEvent_mmio_illegal s v hoff hbits hillegal

end Sys2Proof.Machine
end

section
/-! PROOFS. The command word (30_encoding.md R60 to R64): a word is its four fields, the decoder and the rows of the
opcode table are conditions on the fields, and the encoder writes the fields of a command. -/

namespace Sys2Proof

/-! ### The fields of a word -/

theorem opField_eq (v : Word) : opField v = v.toNat % 256 := by
  simp [opField, BitVec.extractLsb'_toNat]

theorem argField_eq (v : Word) : argField v = v.toNat / 2 ^ 8 % 256 := by
  simp [argField, BitVec.extractLsb'_toNat, Nat.shiftRight_eq_div_pow]

theorem rawField_eq (v : Word) : rawField v = decide (v.toNat / 2 ^ 16 % 2 = 1) :=
  Nat.testBit_eq_decide_div_mod_eq

/-- RSV reaches up to the last bit of the word, so that nothing is left above it. -/
theorem rsvField_eq (v : Word) : rsvField v = v.toNat / 2 ^ 17 := by
  rw [rsvField, BitVec.extractLsb'_toNat, Nat.shiftRight_eq_div_pow]
  omega

theorem argField_lt (v : Word) : argField v < 256 := (v.extractLsb' 8 8).isLt

/-- The four fields cover every bit of a word (R60). -/
theorem word_eq_iff {v w : Word} :
    v = w ↔ opField v = opField w ∧ argField v = argField w ∧ rawField v = rawField w ∧ rsvField v = rsvField w := by
  constructor
  · rintro rfl
    exact ⟨rfl, rfl, rfl, rfl⟩
  · rintro ⟨hop, harg, hraw, hrsv⟩
    refine BitVec.eq_of_toNat_eq ?_
    rw [rawField_eq, rawField_eq, decide_eq_decide] at hraw
    rw [opField_eq, opField_eq] at hop
    rw [argField_eq, argField_eq] at harg
    rw [rsvField_eq, rsvField_eq] at hrsv
    omega

/-! ### The decoder -/

/-- Each opcode R62 names has its command, and no other has one. -/
theorem exists_ofOpcode_iff {op k : Nat} {raw : Bool} : (∃ i, ofOpcode op k raw = some i) ↔ 1 ≤ op ∧ op ≤ 0x0A := by
  constructor
  · rintro ⟨i, hi⟩
    unfold ofOpcode at hi
    split at hi
    case h_11 => cases hi
    all_goals decide
  · rintro ⟨hlo, hhi⟩
    interval_cases op
    all_goals exact ⟨_, rfl⟩

/-- A command is the one its own fields stand for. -/
theorem ofOpcode_fields (i : Instr) : ofOpcode i.opcode i.arg i.raw = some i := by cases i <;> rfl

/-- The command of an opcode has that opcode, and ARG and RAW where the opcode takes them. -/
theorem fields_of_ofOpcode {op k : Nat} {raw : Bool} {i : Instr} (h : ofOpcode op k raw = some i) :
    i.opcode = op ∧ i.arg = (if takesArg op then k else 0) ∧ i.raw = (raw && takesRaw op) := by
  unfold ofOpcode at h
  split at h
  case h_11 => cases h
  all_goals
    cases h
    simp [Instr.opcode, Instr.arg, Instr.raw, takesArg, takesRaw]

theorem takesRaw_opcode {i : Instr} (h : i.raw = true) : takesRaw i.opcode = true := by
  cases i
  case fingerprint | fingerprintCat | fingerprintAll => rfl
  all_goals cases h

theorem takesArg_opcode {i : Instr} (h : i.arg ≠ 0) : takesArg i.opcode = true := by
  cases i
  case fingerprintCat | catalogueName => rfl
  all_goals exact absurd rfl h

/-- ARG is the only field of a command that can overflow. -/
theorem wf_of_arg_lt {i : Instr} (h : i.arg < 256) : i.wf = true := by
  cases i
  case fingerprintCat | catalogueName => exact decide_eq_true h
  all_goals rfl

/-- RSV is 0, and RAW and ARG are 0 where the opcode `op` takes none (R63). -/
def FieldsFit (op : Nat) (v : Word) : Prop :=
  rsvField v = 0 ∧ (rawField v = true → takesRaw op = true) ∧ (argField v ≠ 0 → takesArg op = true)

/-- A word decodes where none of R64's reasons applies. -/
theorem decode_eq_ok_iff {v : Word} {i : Instr} :
    decode v = .ok i ↔ ofOpcode (opField v) (argField v) (rawField v) = some i ∧ FieldsFit (opField v) v := by
  unfold decode FieldsFit
  split
  case h_1 hnone => simp [hnone]
  case h_2 j hsome =>
    rw [hsome]
    split
    case isTrue hrsv => simp [hrsv]
    case isFalse hrsv =>
      split
      case isTrue hraw =>
        obtain ⟨hset, htakes⟩ : rawField v = true ∧ takesRaw (opField v) = false := by simpa using hraw
        simp [hset, htakes]
      case isFalse hraw =>
        split
        case isTrue harg =>
          obtain ⟨hne, htakes⟩ : argField v ≠ 0 ∧ takesArg (opField v) = false := by simpa using harg
          simp [hne, htakes]
        case isFalse harg => simp_all

/-- A word decodes to the command whose fields it holds, with RSV 0. -/
theorem decode_eq_ok_iff_fields {v : Word} {i : Instr} :
    decode v = .ok i ↔ opField v = i.opcode ∧ argField v = i.arg ∧ rawField v = i.raw ∧ rsvField v = 0 := by
  rw [decode_eq_ok_iff]
  constructor
  · rintro ⟨hof, hrsv, hraw, harg⟩
    obtain ⟨hop, hiarg, hiraw⟩ := fields_of_ofOpcode hof
    refine ⟨hop.symm, ?_, ?_, hrsv⟩
    · rw [hiarg]
      split
      case isTrue => rfl
      case isFalse htakes => exact not_not.mp (mt harg htakes)
    · rw [hiraw, eq_comm, Bool.and_eq_left_iff_imp]
      exact hraw
  · rintro ⟨hop, harg, hraw, hrsv⟩
    rw [FieldsFit, hop, harg, hraw]
    exact ⟨ofOpcode_fields i, hrsv, takesRaw_opcode, takesArg_opcode⟩

/-- The words that decode: a known opcode, and fields that fit it. -/
theorem exists_decode_iff {v : Word} :
    (∃ i, decode v = .ok i) ↔ (1 ≤ opField v ∧ opField v ≤ 0x0A) ∧ FieldsFit (opField v) v := by
  simp only [decode_eq_ok_iff, exists_and_right, exists_ofOpcode_iff]

/-! ### The encoder -/

/-- The fields of an encoded well-formed command, for every command (R72). -/
theorem encode_fields : ∀ i : Instr, Laws.EncodedFields.Statement i
  | .loadSkey => Laws.EncodedFields.loadSkey
  | .decodeIndex => Laws.EncodedFields.decodeIndex
  | .encryptIndex => Laws.EncodedFields.encryptIndex
  | .decryptIndex => Laws.EncodedFields.decryptIndex
  | .encryptRaw => Laws.EncodedFields.encryptRaw
  | .decryptRaw => Laws.EncodedFields.decryptRaw
  | .fingerprint raw => Laws.EncodedFields.fingerprint raw
  | .fingerprintCat k raw => Laws.EncodedFields.fingerprintCat k raw
  | .fingerprintAll raw => Laws.EncodedFields.fingerprintAll raw
  | .catalogueName k => Laws.EncodedFields.catalogueName k

/-- Settles O1: the encoder writes the fields that the decoder asks for. -/
theorem decodeOfEncode : Obligations.DecodeOfEncode := by
  intro i hwf
  obtain ⟨hop, harg, hraw, hrsv, -⟩ := encode_fields i hwf
  exact decode_eq_ok_iff_fields.mpr ⟨hop, harg, hraw, hrsv⟩

/-- Settles O2: a word that decodes and the encoding of its command agree in all four fields. -/
theorem encodeOfDecode : Obligations.EncodeOfDecode := by
  intro v i hdec
  obtain ⟨hop, harg, hraw, hrsv⟩ := decode_eq_ok_iff_fields.mp hdec
  have hwf : i.wf = true := wf_of_arg_lt (harg ▸ argField_lt v)
  obtain ⟨hop', harg', hraw', hrsv', -⟩ := encode_fields i hwf
  refine ⟨word_eq_iff.mpr ⟨?_, ?_, ?_, ?_⟩, hwf⟩
  · rw [hop', hop]
  · rw [harg', harg]
  · rw [hraw', hraw]
  · rw [hrsv', hrsv]

/-! ### The rows of the opcode table -/

/-- The mask of an opcode's row in spec/opcode_table.json: every bit but the fields that the opcode leaves free. -/
def rowMask (op : Nat) : Word :=
  0xFFFE00FF ||| (if takesRaw op then 0 else 0x00010000) ||| (if takesArg op then 0 else 0x0000FF00)

/-- What the mask keeps of each field: OP and RSV whole, ARG and RAW where the opcode takes none. -/
theorem rowMask_fields (op : Nat) :
    (rowMask op).extractLsb' 0 8 = BitVec.allOnes 8
      ∧ (rowMask op).extractLsb' 8 8 = (if takesArg op then 0#8 else BitVec.allOnes 8)
      ∧ (rowMask op).getLsbD 16 = !takesRaw op
      ∧ (rowMask op).extractLsb' 17 15 = BitVec.allOnes 15 := by
  unfold rowMask
  cases takesRaw op <;> cases takesArg op <;> decide

/-- The fields of a masked word. -/
theorem and_rowMask_fields (op : Nat) (v : Word) :
    opField (v &&& rowMask op) = opField v
      ∧ argField (v &&& rowMask op) = (if takesArg op then 0 else argField v)
      ∧ rawField (v &&& rowMask op) = (rawField v && !takesRaw op)
      ∧ rsvField (v &&& rowMask op) = rsvField v := by
  obtain ⟨hop, harg, hraw, hrsv⟩ := rowMask_fields op
  refine ⟨?_, ?_, ?_, ?_⟩
  · rw [opField, BitVec.extractLsb'_and, hop, BitVec.and_allOnes, opField]
  · rw [argField, BitVec.extractLsb'_and, harg]
    split
    case isTrue => rw [BitVec.and_zero, BitVec.toNat_zero]
    case isFalse => rw [BitVec.and_allOnes, argField]
  · rw [rawField, BitVec.getLsbD_and, hraw, rawField]
  · rw [rsvField, BitVec.extractLsb'_and, hrsv, BitVec.and_allOnes, rsvField]

/-- A word of an opcode alone has no other field. -/
theorem fields_ofNat {op : Nat} (h : op < 256) :
    opField (BitVec.ofNat 32 op) = op ∧ argField (BitVec.ofNat 32 op) = 0 ∧ rawField (BitVec.ofNat 32 op) = false
      ∧ rsvField (BitVec.ofNat 32 op) = 0 := by
  rw [opField_eq, argField_eq, rawField_eq, rsvField_eq, BitVec.toNat_ofNat, decide_eq_false_iff_not]
  omega

/-- The row of an opcode in spec/opcode_table.json, as (mask, match). -/
def opcodeRow (op : Nat) : Word × Word := (rowMask op, BitVec.ofNat 32 op)

/-- The masked word is the row's match. -/
def matchesRow (v : Word) (row : Word × Word) : Bool := v &&& row.1 == row.2

/-- A word matches an opcode's row where it has that opcode and fields that fit it. -/
theorem matchesRow_opcodeRow_iff {op : Nat} {v : Word} (h : op < 256) :
    matchesRow v (opcodeRow op) = true ↔ opField v = op ∧ FieldsFit op v := by
  obtain ⟨hop, harg, hraw, hrsv⟩ := fields_ofNat h
  obtain ⟨hop', harg', hraw', hrsv'⟩ := and_rowMask_fields op v
  rw [matchesRow, opcodeRow, beq_iff_eq, word_eq_iff, hop', harg', hraw', hrsv', hop, harg, hraw, hrsv, FieldsFit]
  simp only [ite_eq_left_iff, Bool.and_eq_false_imp, Bool.not_eq_false']
  tauto

/-- No two rows have the same opcode, so that a word matches exactly one row where it matches its opcode's. -/
theorem length_matching_rows_eq_one_iff (v : Word) :
    (((List.range' 1 10).map opcodeRow).filter (matchesRow v)).length = 1
      ↔ (1 ≤ opField v ∧ opField v ≤ 0x0A) ∧ FieldsFit (opField v) v := by
  have hrow : ∀ op ∈ List.range' 1 10, matchesRow v (opcodeRow op) = true ↔ opField v = op ∧ FieldsFit op v :=
    fun op hop => matchesRow_opcodeRow_iff (by rw [List.mem_range'_1] at hop; omega)
  rw [← List.countP_eq_length_filter, List.countP_map]
  by_cases hfit : FieldsFit (opField v) v
  case pos =>
    have hcount : (List.range' 1 10).countP (matchesRow v ∘ opcodeRow) = (List.range' 1 10).count (opField v) :=
      List.countP_congr fun op hop => by
        rw [Function.comp, hrow op hop, beq_iff_eq]
        exact ⟨fun h => h.1.symm, by rintro rfl; exact ⟨rfl, hfit⟩⟩
    rw [hcount, List.Nodup.count List.nodup_range']
    simp only [List.mem_range'_1, hfit, and_true, ite_eq_left_iff, zero_ne_one, imp_false, not_not]
    omega
  case neg =>
    have hnone : (List.range' 1 10).countP (matchesRow v ∘ opcodeRow) = 0 :=
      List.countP_eq_zero.mpr fun op hop hmatch => by
        obtain ⟨rfl, hfits⟩ := (hrow op hop).mp hmatch
        exact hfit hfits
    simp [hnone, hfit]

/-- Settles O3: R63's four conditions are the decoder's, read off the bits; the ten rows are `opcodeRow` of the
opcodes, evaluated. -/
theorem legalWords : Obligations.LegalWords := by
  intro v
  refine ⟨?fields, ?rows⟩
  case fields =>
    rw [exists_decode_iff, FieldsFit, opField_eq, argField_eq, rawField_eq, rsvField_eq]
    simp only [takesRaw, takesArg, Bool.or_eq_true, beq_iff_eq, decide_eq_true_eq]
    omega
  case rows =>
    rw [exists_decode_iff]
    exact (length_matching_rows_eq_one_iff v).symm

/-- Settles O4: the model evaluates each word. -/
theorem sampleWords : Obligations.SampleWords := by
  unfold Obligations.SampleWords
  decide

end Sys2Proof
end

section
/-! PROOFS. The static-key store (40_key_store.md R73, R74): what LOAD_SKEY leaves in it, and that no step short of a
reset changes it once the key is loaded. -/

namespace Sys2Proof.Machine

open Safety

/-! ### LOAD_SKEY on an empty store -/

/-- The check of a command without an output, on regions in range and in plain memory. -/
theorem checkRegions_noOutput {s : State} {ins : List Region} (hin : ∀ r ∈ ins, r.addr + r.len ≤ 2 ^ 32)
    (hpl : ∀ r ∈ ins, ∀ a, r.addr ≤ a → a < r.addr + r.len → s.cfg.deviceAt a = false) :
    checkRegions ins none s = .ok () s := by
  simp [checkRegions, any_not_inRange hin, requirePlain, firstDevice_eq_none hpl]

/-- After LOAD_SKEY's store of `L.SRC_LEN` bytes the static key is those bytes (R73). -/
theorem sk_storeKey {s : State} {bs : List Byte} (h : bs.length = s.latch.srcLen.toNat) : (s.storeKey bs).sk = bs := by
  rw [State.sk, State.storeKey_skeyRam, State.storeKey_skeyLen, ← h, List.take_left]

/-- LOAD_SKEY's store leaves SKEY_RAM beyond the bytes stored (R73). -/
theorem drop_skeyRam_storeKey (s : State) (bs : List Byte) :
    (s.storeKey bs).skeyRam.drop bs.length = s.skeyRam.drop bs.length := by
  rw [State.storeKey_skeyRam, List.drop_left]

theorem skeyValid_storeKey (s : State) (bs : List Byte) : (s.storeKey bs).skeyValid = true :=
  getLsbD_setBit s.status 2 2 true (by decide)

/-- A LOAD_SKEY that passes its checks, whose reads are all answered, ends with the source region stored. -/
theorem run_loadSkey_quiet {s : State} (he : s.env = []) (hrun : Runnable .loadSkey s)
    (hreads : ReadsAnswered .loadSkey s) :
    run .loadSkey s = .ok 0 (s.storeKey (s.mem.readRun s.latch.srcAddr.toNat s.latch.srcLen.toNat)) := by
  obtain ⟨-, hnonempty, hmax⟩ := hrun.admitted
  have hsrc : s.latch.src ∈ inputs .loadSkey s := List.mem_singleton_self _
  have hempty : (s.latch.srcLen == 0) = false := beq_false_of_ne fun h0 => hnonempty (by rw [h0]; rfl)
  have hlong : decide (s.cfg.skeyMax < s.latch.srcLen.toNat) = false := decide_eq_false (Nat.not_lt.mpr hmax)
  have hregions : checkRegions [s.latch.src] none s = .ok () s :=
    checkRegions_noOutput hrun.inputsInRange fun r hr => hrun.plain r (List.mem_append_left _ hr)
  have hread : memRead s.latch.srcAddr.toNat s.latch.srcLen.toNat s =
      .ok (s.mem.readRun s.latch.srcAddr.toNat s.latch.srcLen.toNat) s :=
    memRead_quiet he (hrun.inputsInRange _ hsrc) (hreads _ hsrc)
  simp only [run, runLoadSkey, prologue_admitted hrun.admitted, Eng.bind, raiseIf, hempty, hlong, Bool.false_eq_true,
    if_false, hregions, hread]

/-- Settles O30: the run stores the source region, and the completion step leaves what was stored. -/
theorem loadSkeyResult : Obligations.LoadSkeyResult := by
  intro s hfresh hrun hreads
  obtain ⟨henv, -⟩ := hfresh
  have hlen := Memory.length_readRun s.mem s.latch.srcAddr.toNat s.latch.srcLen.toNat
  have hrunEq := run_loadSkey_quiet henv hrun hreads
  generalize s.mem.readRun s.latch.srcAddr.toNat s.latch.srcLen.toNat = bs at hlen hrunEq ⊢
  obtain ⟨hram, hskeyLen, hvalid⟩ : KeyKept (s.storeKey bs) ((s.storeKey bs).finish .ok 0 0) :=
    keyKept_finish .ok 0 0 rfl
  refine ⟨(s.storeKey bs).finish .ok 0 0, ?exec, ?completes, ?valid, hskeyLen, ?key, ?beyond, fun _ => rfl⟩
  case exec => rw [exec_eq_conclude, hrunEq, conclude_ok_quiet 0 (s := s.storeKey bs) henv]
  case completes => exact completes_storeKey bs (completes_finish .ok rfl (by decide) (by decide) henv)
  case valid => exact hvalid.trans (skeyValid_storeKey s bs)
  case key => exact sk_storeKey hlen
  case beyond => rw [hram, ← hlen, drop_skeyRam_storeKey]

/-! ### A loaded store -/

/-- What holds of every outcome of a step holds of the state that the step leaves. -/
theorem OutcomeSat.of_next {x : Host.Outcome State Fault Refusal} {Q : State → Prop} {F : Refusal → Prop} {t : State}
    (h : OutcomeSat x Q F) (hx : x = .next t) : Q t := by
  subst hx
  exact h

/-- A store that keeps SKEY_RAM and SKEY_LEN holds the same static key. -/
theorem sk_of_keyKept {s t : State} (h : KeyKept s t) : t.sk = s.sk := by
  obtain ⟨hram, hlen, -⟩ := h
  rw [State.sk, State.sk, hram, hlen]

/-- LOAD_SKEY with a key already loaded: SKEY_LOCKED, before any access (60_exceptions.md R132). -/
theorem exec_loadSkey_locked {s : State} (h : s.skeyValid = true) :
    exec .loadSkey s = takeError .skeyLocked 0 s := by
  simp [exec_eq_conclude, run, runLoadSkey, prologue, Instr.opcode, h, Eng.bind, conclude]

section
variable {s : State} (hres : ∀ e ∈ s.env, NotReset e)
include hres

/-- Taking an error leaves the static-key store, under any host short of a reset (60_exceptions.md R140). -/
theorem takeError_keyKept (hb : s.busy = true) (e : ErrCode) (ea : Nat) :
    OutcomeSat (takeError e ea s) (KeyKept s) (fun _ => True) :=
  (lasting_keyRunning s).takeError e ea ⟨⟨hb, rfl, rfl⟩, ⟨rfl, rfl, rfl⟩, hres⟩
    (fun _ hu => keyKept_trans hu.key (keyKept_finish e 0 _ rfl)) fun _ hf => hf.elim

/-- A step of an idle core leaves the static-key store, short of a reset. -/
theorem hostStep_keyKept : OutcomeSat (hostStep s) (KeyKept s) (fun _ => True) := by
  unfold hostStep
  cases henv : s.env with
  | nil => exact ⟨rfl, rfl, rfl⟩
  | cons e rest =>
    have hev := hostEvent_key e { s with env := rest }
    simp only
    cases hx : hostEvent e { s with env := rest } with
    | ready t => rw [hx] at hev; exact hev
    | aborted t => rw [hx] at hev; exact absurd (hres e (by simp [henv])) hev

/-- With the key loaded no command changes the static-key store: the one that would is locked out (R74). -/
theorem exec_keyKept_of_valid (hb : s.busy = true) (hv : s.skeyValid = true) {i : Instr} {t : State}
    (hexec : exec i s = .next t) : KeyKept s t := by
  by_cases hi : i = .loadSkey
  case pos =>
    rw [hi, exec_loadSkey_locked hv] at hexec
    exact (takeError_keyKept hres hb .skeyLocked 0).of_next hexec
  case neg => exact onlyLoadSkeyWritesKey i s t hb hi hres hexec

/-- With the key loaded no step short of a reset changes the static-key store (R74). -/
theorem step_keyKept_of_valid (hv : s.skeyValid = true) {t : State} (hstep : step s = .next t) : KeyKept s t := by
  unfold step at hstep
  split at hstep
  case isTrue hb =>
    split at hstep
    case h_1 i _ => exact exec_keyKept_of_valid hres hb hv hstep
    case h_2 => exact (takeError_keyKept hres hb .illegal 0).of_next hstep
  case isFalse => exact (hostStep_keyKept hres).of_next hstep

end

/-- Settles O19: a kept store holds the same key, and stays loaded. -/
theorem staticKeyIsImmutable : Obligations.StaticKeyIsImmutable := by
  intro s t hvalid hres hstep
  obtain ⟨hram, hlen, hsame⟩ := step_keyKept_of_valid hres hvalid hstep
  exact ⟨hsame.trans hvalid, sk_of_keyKept ⟨hram, hlen, hsame⟩, hram, hlen, hsame⟩

end Sys2Proof.Machine
end

section
/-! PROOFS. The Index Decoder (41_index_decoder.md R75 to R79): the cyclic XOR byte by byte, DecodeIndex in terms of the
blob's own bytes, and the record that DECODE_INDEX writes. -/

namespace Sys2Proof.Machine

open Safety

/-! ### The cyclic XOR -/

@[simp] theorem length_deobfFrom (sk : List Byte) (i : Nat) (p : List Byte) : (deobfFrom sk i p).length = p.length := by
  induction p generalizing i with
  | nil => rfl
  | cons b p ih => simp [deobfFrom, ih]

@[simp] theorem length_deobf (sk p : List Byte) : (deobf sk p).length = p.length := length_deobfFrom sk 0 p

theorem getD_deobfFrom (sk : List Byte) (i : Nat) {p : List Byte} {n : Nat} (h : n < p.length) :
    (deobfFrom sk i p).getD n 0 = p.getD n 0 ^^^ sk.getD ((i + n) % sk.length) 0 := by
  induction p generalizing i n with
  | nil => exact absurd h (Nat.not_lt_zero n)
  | cons b p ih =>
    cases n with
    | zero => rfl
    | succ n =>
      rw [deobfFrom, List.getD_cons_succ, List.getD_cons_succ, ih (i + 1) (Nat.lt_of_succ_lt_succ h),
        Nat.add_right_comm, Nat.add_assoc]

/-- Byte `n` of the deobfuscated payload (R75). -/
theorem getD_deobf (sk : List Byte) {p : List Byte} {n : Nat} (h : n < p.length) :
    (deobf sk p).getD n 0 = p.getD n 0 ^^^ sk.getD (n % sk.length) 0 := by
  rw [deobf, getD_deobfFrom sk 0 h, Nat.zero_add]

theorem deobfFrom_deobfFrom (sk : List Byte) (i : Nat) (p : List Byte) : deobfFrom sk i (deobfFrom sk i p) = p := by
  induction p generalizing i with
  | nil => rfl
  | cons b p ih => rw [deobfFrom, deobfFrom, ih, BitVec.xor_assoc, BitVec.xor_self, BitVec.xor_zero]

theorem take_deobfFrom (sk : List Byte) (i n : Nat) (p : List Byte) :
    (deobfFrom sk i p).take n = deobfFrom sk i (p.take n) := by
  induction p generalizing i n with
  | nil => simp [deobfFrom]
  | cons b p ih =>
    cases n with
    | zero => rfl
    | succ n => simp [deobfFrom, ih]

/-- The first `n` payload bytes decide the first `n` deobfuscated ones. -/
theorem take_deobf (sk : List Byte) (n : Nat) (p : List Byte) : (deobf sk p).take n = deobf sk (p.take n) :=
  take_deobfFrom sk 0 n p

/-- Settles O51: each byte is XORed once with a key byte that its index alone picks. -/
theorem deobfuscation : Obligations.Deobfuscation :=
  ⟨fun sk p _ => ⟨length_deobf sk p, fun _ h => getD_deobf sk h⟩, fun sk p => deobfFrom_deobfFrom sk 0 p⟩

/-! ### The fields of the deobfuscated buffer -/

/-- DecodeIndex from the deobfuscated buffer on, with the lengths 16 and 32 that it insists on put in (R77). -/
def bufferFields (buf : List Byte) : Except ErrCode (List Byte × List Byte) :=
  if 52 ≤ buf.length ∧ le16 buf 0 = 16 ∧ le16 buf 2 = 32 then .ok ((buf.drop 20).take 32, (buf.drop 4).take 16)
  else .error .format

/-- DecodeIndex is the magic check, then the buffer's fields: every fault of the buffer has the one code (R77). -/
theorem decodeIndexBlob_eq (sk blob : List Byte) :
    decodeIndexBlob sk blob =
      if blob.take 4 = magic then bufferFields (deobf sk (blob.drop 4)) else .error .header := by
  unfold decodeIndexBlob
  by_cases hmagic : blob.take 4 = magic
  case neg => rw [if_pos (Or.inr hmagic), if_neg hmagic]
  case pos =>
    have hlen : 4 ≤ blob.length := by
      have := congrArg List.length hmagic
      simp only [List.length_take, magic, List.length_cons, List.length_nil] at this
      omega
    rw [if_neg (not_or.mpr ⟨Nat.not_lt.mpr hlen, not_not.mpr hmagic⟩), if_pos hmagic]
    generalize deobf sk (blob.drop 4) = buf
    unfold bufferFields
    by_cases hlens : le16 buf 0 = 16 ∧ le16 buf 2 = 32
    case neg =>
      have hfields : ¬ (52 ≤ buf.length ∧ le16 buf 0 = 16 ∧ le16 buf 2 = 32) := fun h => hlens h.2
      simp only [if_neg hfields, if_pos (not_and_or.mp hlens), ite_self]
    case pos =>
      obtain ⟨hiv, hkey⟩ := hlens
      by_cases hbuf : 52 ≤ buf.length
      case pos => simp [hiv, hkey, hbuf, show ¬ buf.length < 4 by omega]
      case neg => simp [hiv, hkey, hbuf]

/-- Bytes from 52 on do not affect the fields. -/
theorem bufferFields_take (buf : List Byte) : bufferFields (buf.take 52) = bufferFields buf := by
  have hle16 (i : Nat) (h : i + 1 < 52) : le16 (buf.take 52) i = le16 buf i := by
    simp [le16, h, Nat.lt_of_succ_lt h]
  have hwindow (k n : Nat) (h : k + n ≤ 52) : ((buf.take 52).drop k).take n = (buf.drop k).take n := by
    rw [List.drop_take, List.take_take, Nat.min_eq_left (by omega)]
  simp only [bufferFields, hle16 0 (by decide), hle16 2 (by decide), hwindow 20 32 (by decide), hwindow 4 16 (by decide),
    List.length_take, le_min_iff, le_refl, true_and]

theorem bufferFields_eq_ok_iff {buf key iv : List Byte} :
    bufferFields buf = .ok (key, iv) ↔ 52 ≤ buf.length ∧ le16 buf 0 = 16 ∧ le16 buf 2 = 32
      ∧ iv = (buf.drop 4).take 16 ∧ key = (buf.drop 20).take 32 := by
  unfold bufferFields
  split
  case isTrue h => simp [h, eq_comm, and_comm]
  case isFalse h => simpa using fun h1 h2 h3 => absurd ⟨h1, h2, h3⟩ h

/-- The key has 32 bytes and the IV 16 (R77). -/
theorem length_bufferFields {buf key iv : List Byte} (h : bufferFields buf = .ok (key, iv)) :
    key.length = 32 ∧ iv.length = 16 := by
  obtain ⟨hlen, -, -, rfl, rfl⟩ := bufferFields_eq_ok_iff.mp h
  simp only [List.length_take, List.length_drop]
  omega

/-! ### The fields of the blob -/

theorem decodeIndexBlob_eq_ok_iff {sk blob key iv : List Byte} :
    decodeIndexBlob sk blob = .ok (key, iv) ↔
      blob.take 4 = magic ∧ bufferFields (deobf sk (blob.drop 4)) = .ok (key, iv) := by
  rw [decodeIndexBlob_eq]
  split <;> simp [*]

/-- Byte `n` of the payload, deobfuscated, from the blob's own bytes (R75). -/
def clearByte (sk blob : List Byte) (n : Nat) : Byte := blob.getD (4 + n) 0 ^^^ sk.getD (n % sk.length) 0

theorem getD_deobf_payload (sk : List Byte) {blob : List Byte} {n : Nat} (h : 4 + n < blob.length) :
    (deobf sk (blob.drop 4)).getD n 0 = clearByte sk blob n := by
  have hn : n < (blob.drop 4).length := by rw [List.length_drop]; omega
  rw [getD_deobf sk hn, clearByte]
  simp

theorem le16_deobf_payload (sk : List Byte) {blob : List Byte} {i : Nat} (h : 5 + i < blob.length) :
    le16 (deobf sk (blob.drop 4)) i = (clearByte sk blob i).toNat + 256 * (clearByte sk blob (i + 1)).toNat := by
  rw [le16, getD_deobf_payload sk (by omega), getD_deobf_payload sk (by omega)]

theorem window_deobf_payload (sk : List Byte) {blob : List Byte} {k n : Nat} (h : 4 + (k + n) ≤ blob.length) :
    ((deobf sk (blob.drop 4)).drop k).take n = (List.range n).map fun i => clearByte sk blob (k + i) := by
  refine List.ext_getElem (by simp; omega) fun i hi _ => ?_
  simp only [List.length_take, List.length_drop, length_deobf] at hi
  rw [List.getElem_take, List.getElem_drop, ← List.getD_eq_getElem _ 0, getD_deobf_payload sk (by omega),
    List.getElem_map, List.getElem_range]

/-- Which blobs decode, and to what, in the deobfuscated bytes of the payload (R77). -/
theorem decodeIndexBlob_eq_ok_iff_clearByte {sk blob key iv : List Byte} :
    decodeIndexBlob sk blob = .ok (key, iv) ↔ 56 ≤ blob.length ∧ blob.take 4 = magic
      ∧ (clearByte sk blob 0).toNat + 256 * (clearByte sk blob 1).toNat = 16
      ∧ (clearByte sk blob 2).toNat + 256 * (clearByte sk blob 3).toNat = 32
      ∧ iv = (List.range 16).map (fun n => clearByte sk blob (4 + n))
      ∧ key = (List.range 32).map (fun n => clearByte sk blob (20 + n)) := by
  rw [decodeIndexBlob_eq_ok_iff, bufferFields_eq_ok_iff, length_deobf, List.length_drop]
  by_cases hlen : 56 ≤ blob.length
  case neg =>
    have hshort : ¬ 52 ≤ blob.length - 4 := by omega
    simp only [hlen, hshort, false_and, and_false]
  case pos =>
    have hlong : 52 ≤ blob.length - 4 := by omega
    rw [le16_deobf_payload sk (by omega), le16_deobf_payload sk (by omega), window_deobf_payload sk (by omega),
      window_deobf_payload sk (by omega)]
    simp only [hlen, hlong, true_and]

/-- Only blob bytes 0 to 55 affect the result (R78). -/
theorem decodeIndexBlob_take (sk blob : List Byte) : decodeIndexBlob sk (blob.take 56) = decodeIndexBlob sk blob := by
  rw [decodeIndexBlob_eq, decodeIndexBlob_eq, List.take_take, Nat.min_eq_left (by decide), List.drop_take, ← take_deobf,
    bufferFields_take]

/-- Settles O52: the byte function of the statement can only be `clearByte`. -/
theorem indexFields : Obligations.IndexFields := by
  refine ⟨fun sk blob key iv => ?_, decodeIndexBlob_take⟩
  have hbytes (b : Nat → Byte) :
      (∀ n, b n = blob.getD (4 + n) 0 ^^^ sk.getD (n % sk.length) 0) ↔ b = clearByte sk blob := funext_iff.symm
  simp only [hbytes, forall_eq]
  exact decodeIndexBlob_eq_ok_iff_clearByte

/-! ### DECODE_INDEX -/

/-- The record, key then IV, has 48 bytes (30_encoding.md R68). -/
theorem length_record {sk blob key iv : List Byte} (h : decodeIndexBlob sk blob = .ok (key, iv)) :
    (key ++ iv).length = 48 := by
  obtain ⟨hkey, hiv⟩ := length_bufferFields (decodeIndexBlob_eq_ok_iff.mp h).2
  rw [List.length_append, hkey, hiv]

/-- A DECODE_INDEX that passes its checks, whose accesses are all answered, on a blob that decodes: the run writes the
record. -/
theorem run_decodeIndex_quiet {s : State} {key iv : List Byte} (henv : s.env = []) (hrun : Runnable .decodeIndex s)
    (hreads : ReadsAnswered .decodeIndex s) (hwrites : WritesAnswered .decodeIndex s)
    (hblob : decodeIndexBlob s.sk (s.mem.readRun s.latch.auxAddr.toNat s.latch.auxLen.toNat) = .ok (key, iv)) :
    ∃ t, run .decodeIndex s = .ok 48 t ∧ Wrote s t s.latch.dstAddr.toNat (key ++ iv) := by
  have haux : s.latch.aux ∈ inputs .decodeIndex s := List.mem_singleton_self _
  have hregions : checkRegions [s.latch.aux] (some 48) s = .ok () { s with extent := 48 } :=
    checkRegions_runnable hrun rfl
  obtain ⟨-, hrange⟩ := hrun.outputFits 48 rfl
  obtain ⟨u, hread, hrest, hmem, hwritten⟩ :=
    readIndex_quiet (s := { s with extent := 48 }) henv (hrun.inputsInRange _ haux) (hreads _ haux) hblob
  have hlatch : u.latch = s.latch := State.latch_of_rest hrest
  have hcfg : u.cfg = s.cfg := State.cfg_of_rest hrest
  have hwrite : memWrite s.latch.dstAddr.toNat (key ++ iv) u =
      .ok () (u.wrote s.latch.dstAddr.toNat (key ++ iv)) := by
    refine memWrite_quiet (key ++ iv) ((State.env_of_rest hrest).trans henv) ?_ ?_ <;> rw [length_record hblob]
    · exact hrange
    · rw [hcfg]
      exact hwrites
  refine ⟨u.wrote s.latch.dstAddr.toNat (key ++ iv), ?run, ?wrote⟩
  case run =>
    simp only [run, runDecodeIndex, prologue_admitted hrun.admitted, hregions, hread, Eng.bind, hlatch, hwrite,
      recordLength]
  case wrote => exact ⟨hrest, by rw [State.wrote_mem, hmem], by rw [State.wrote_work, hwritten]⟩

/-- Settles O31: the run writes the record, and the completion step leaves what was written. -/
theorem decodeIndexResult : Obligations.DecodeIndexResult := by
  intro s key iv hfresh hwf hrun hreads hwrites hblob
  obtain ⟨henv, -⟩ := hfresh
  obtain ⟨-, hrange⟩ := hrun.outputFits 48 rfl
  obtain ⟨t, hrunEq, hwrote⟩ := run_decodeIndex_quiet henv hrun hreads hwrites hblob
  rw [exec_eq_conclude, hrunEq]
  exact conclude_ok_wrote henv hwf hwrote (by decide) (by rw [length_record hblob]; exact hrange)

end Sys2Proof.Machine
end

section
/-! PROOFS. The AES-256 core (42_aes_core.md R80 to R92): the S-boxes against GF(2^8), the algebra of `gmul`, and each
round transformation, and with it the cipher, against its inverse. -/

namespace Sys2Proof.Machine

/-! ### The S-boxes -/

/-- The affine transform over the bits of a byte (R81). -/
def affine (b : Byte) : Byte :=
  b ^^^ b.rotateLeft 1 ^^^ b.rotateLeft 2 ^^^ b.rotateLeft 3 ^^^ b.rotateLeft 4 ^^^ 0x63

/-- The inverse of the affine transform. -/
def invAffine (c : Byte) : Byte := c.rotateLeft 1 ^^^ c.rotateLeft 3 ^^^ c.rotateLeft 6 ^^^ 0x05

theorem affine_invAffine : ∀ c : Byte, affine (invAffine c) = c := by decide +kernel

/-- R81's table, entry by entry: the affine transform taken off, it holds the inverse in the field, and 0 for 0. -/
theorem gmul_invAffine_sbox : ∀ a : Byte, a = 0 ∧ invAffine (sbox a) = 0 ∨ gmul a (invAffine (sbox a)) = 1 := by
  decide +kernel

theorem invSbox_sbox : ∀ a : Byte, invSbox (sbox a) = a := by decide +kernel

/-- There are as many entries as bytes, so the left inverse is a right inverse too. -/
theorem sbox_invSbox : ∀ a : Byte, sbox (invSbox a) = a :=
  Function.LeftInverse.rightInverse_of_card_le invSbox_sbox le_rfl

/-- Settles O53: the inverse of `a` is the S-box entry with the affine transform taken off. -/
theorem sBoxes : Obligations.SBoxes :=
  ⟨fun a => ⟨invAffine (sbox a), gmul_invAffine_sbox a, (affine_invAffine (sbox a)).symm⟩,
    fun a => ⟨invSbox_sbox a, sbox_invSbox a⟩⟩

/-! ### The product in GF(2^8): bilinear and associative (R80) -/

theorem byte_eq_xor_bits : ∀ a : Byte,
    a = (List.range 8).foldl (fun r i => r ^^^ (a &&& BitVec.twoPow 8 i)) 0 := by decide +kernel

/-- What `^^^` keeps and what holds of 0 and of each single bit holds of every byte. -/
theorem byte_xor_induction {P : Byte → Prop} (zero : P 0#8) (bit : ∀ i : Fin 8, P (BitVec.twoPow 8 i))
    (xor : ∀ a b, P a → P b → P (a ^^^ b)) (a : Byte) : P a := by
  rw [byte_eq_xor_bits a]
  refine List.foldlRecOn _ _ zero fun r hr i hi => xor _ _ hr ?_
  rw [BitVec.and_twoPow]
  split
  · exact bit ⟨i, List.mem_range.mp hi⟩
  · exact zero

/-- One bit of a factor selects `c` or nothing; two bits under `^^^` select by their sum. -/
theorem ite_bxor (p q : Bool) (c : Byte) :
    (if p ^^ q then c else 0#8) = (if p then c else 0#8) ^^^ (if q then c else 0#8) := by
  cases p <;> cases q <;> simp

theorem ite_xor_self (p : Bool) (r a : Byte) : (if p then r ^^^ a else r) = r ^^^ (if p then a else 0#8) := by
  cases p <;> simp

theorem xtime_xor (a b : Byte) : xtime (a ^^^ b) = xtime a ^^^ xtime b := by
  simp only [xtime, BitVec.shiftLeft_xor_distrib, BitVec.getLsbD_xor, ite_bxor]
  ac_rfl

theorem gmulLoop_xor_left (n : Nat) (a a' b r r' : Byte) :
    gmulLoop n (a ^^^ a') b (r ^^^ r') = gmulLoop n a b r ^^^ gmulLoop n a' b r' := by
  induction n generalizing a a' b r r' with
  | zero => rfl
  | succ n ih =>
    simp only [gmulLoop, xtime_xor, ← ih]
    cases b.getLsbD 0 with
    | false => rfl
    | true => simp only [if_true]; ac_rfl

theorem gmulLoop_xor_right (n : Nat) (a b b' r r' : Byte) :
    gmulLoop n a (b ^^^ b') (r ^^^ r') = gmulLoop n a b r ^^^ gmulLoop n a b' r' := by
  induction n generalizing a b b' r r' with
  | zero => rfl
  | succ n ih =>
    simp only [gmulLoop, ← ih, BitVec.ushiftRight_xor_distrib, BitVec.getLsbD_xor, ite_xor_self, ite_bxor]
    ac_rfl

theorem xor_gmul (a a' b : Byte) : gmul (a ^^^ a') b = gmul a b ^^^ gmul a' b :=
  gmulLoop_xor_left 8 a a' b 0 0

theorem gmul_xor (a b b' : Byte) : gmul a (b ^^^ b') = gmul a b ^^^ gmul a b' :=
  gmulLoop_xor_right 8 a b b' 0 0

@[simp] theorem gmul_zero (a : Byte) : gmul a 0#8 = 0#8 := by
  simpa using gmul_xor a 0#8 0#8

@[simp] theorem zero_gmul (b : Byte) : gmul 0#8 b = 0#8 := by
  simpa using xor_gmul 0#8 0#8 b

/-- Both sides are linear in each factor, so that single bits decide. -/
theorem gmul_assoc (a b c : Byte) : gmul (gmul a b) c = gmul a (gmul b c) := by
  induction a using byte_xor_induction with
  | zero => simp only [zero_gmul]
  | xor a a' ha ha' => simp only [xor_gmul, ha, ha']
  | bit i =>
    induction b using byte_xor_induction with
    | zero => simp only [zero_gmul, gmul_zero]
    | xor b b' hb hb' => simp only [xor_gmul, gmul_xor, hb, hb']
    | bit j =>
      induction c using byte_xor_induction with
      | zero => simp only [gmul_zero]
      | xor c c' hc hc' => simp only [gmul_xor, hc, hc']
      | bit k =>
        revert i j k
        decide +kernel

@[simp] theorem one_gmul : ∀ a : Byte, gmul 1#8 a = a := by decide +kernel

/-! ### The round transformations and their inverses -/

theorem quad_xor_xor_self (x y : Quad) : (x.xor y).xor y = x := by
  simp only [Quad.xor, BitVec.xor_assoc, BitVec.xor_self, BitVec.xor_zero]

theorem addRoundKey_addRoundKey (w : List Quad) (rnd : Nat) (s : Block) :
    addRoundKey (addRoundKey s w rnd) w rnd = s := by
  simp only [addRoundKey, Block.xor, quad_xor_xor_self]

theorem mapBlock_mapBlock {f g : Byte → Byte} (h : ∀ a, g (f a) = a) (s : Block) : mapBlock g (mapBlock f s) = s := by
  simp only [mapBlock, mapQuad, h]

theorem invSubBytes_subBytes (s : Block) : invSubBytes (subBytes s) = s := mapBlock_mapBlock invSbox_sbox s

theorem subBytes_invSubBytes (s : Block) : subBytes (invSubBytes s) = s := mapBlock_mapBlock sbox_invSbox s

theorem invShiftRows_shiftRows (s : Block) : invShiftRows (shiftRows s) = s := rfl

theorem shiftRows_invShiftRows (s : Block) : shiftRows (invShiftRows s) = s := rfl

/-- Two of R87's matrices one after the other are their product, whose first row is written out. -/
theorem mixQuad_mixQuad (k0 k1 k2 k3 l0 l1 l2 l3 : Byte) (q : Quad) :
    mixQuad k0 k1 k2 k3 (mixQuad l0 l1 l2 l3 q) =
      mixQuad (gmul k0 l0 ^^^ gmul k1 l3 ^^^ gmul k2 l2 ^^^ gmul k3 l1)
        (gmul k0 l1 ^^^ gmul k1 l0 ^^^ gmul k2 l3 ^^^ gmul k3 l2)
        (gmul k0 l2 ^^^ gmul k1 l1 ^^^ gmul k2 l0 ^^^ gmul k3 l3)
        (gmul k0 l3 ^^^ gmul k1 l2 ^^^ gmul k2 l1 ^^^ gmul k3 l0) q := by
  simp only [mixQuad, gmul_xor, xor_gmul, gmul_assoc, Quad.mk.injEq]
  refine ⟨?_, ?_, ?_, ?_⟩ <;> ac_rfl

theorem mixQuad_one (q : Quad) : mixQuad 1 0 0 0 q = q := by
  simp [mixQuad]

theorem invMixColumn_mixColumn (q : Quad) : invMixColumn (mixColumn q) = q :=
  (mixQuad_mixQuad ..).trans (mixQuad_one q)

theorem mixColumn_invMixColumn (q : Quad) : mixColumn (invMixColumn q) = q :=
  (mixQuad_mixQuad ..).trans (mixQuad_one q)

theorem invMixColumns_mixColumns (s : Block) : invMixColumns (mixColumns s) = s := by
  simp only [invMixColumns, mixColumns, invMixColumn_mixColumn]

theorem mixColumns_invMixColumns (s : Block) : mixColumns (invMixColumns s) = s := by
  simp only [invMixColumns, mixColumns, mixColumn_invMixColumn]

/-! ### The cipher and the inverse cipher -/

/-- A round of the inverse cipher starts between SubBytes, ShiftRows and the rest of a round of the cipher. -/
theorem decryptRound_encryptRound (w : List Quad) (rnd : Nat) (s : Block) :
    decryptRound w (shiftRows (subBytes (encryptRound w s rnd))) rnd = shiftRows (subBytes s) := by
  simp only [decryptRound, encryptRound, invShiftRows_shiftRows, invSubBytes_subBytes, addRoundKey_addRoundKey,
    invMixColumns_mixColumns]

theorem encryptRound_decryptRound (w : List Quad) (rnd : Nat) (s : Block) :
    encryptRound w (invSubBytes (invShiftRows (decryptRound w s rnd))) rnd = invSubBytes (invShiftRows s) := by
  simp only [decryptRound, encryptRound, subBytes_invSubBytes, shiftRows_invShiftRows, mixColumns_invMixColumns,
    addRoundKey_addRoundKey]

/-- If `g` takes back one turn of `f`, seen through `φ`, then the turns of `g` in the opposite order take back the turns
of `f`. -/
theorem foldl_reverse_of_undoes {α β : Type} {f g : α → β → α} {φ : α → α} (h : ∀ x a, g (φ (f a x)) x = φ a)
    (l : List β) (a : α) : l.reverse.foldl g (φ (l.foldl f a)) = φ a := by
  induction l generalizing a with
  | nil => rfl
  | cons x l ih => rw [List.foldl_cons, List.reverse_cons, List.foldl_append, ih, List.foldl_cons, List.foldl_nil, h]

theorem aesDecrypt_aesEncrypt (w : List Quad) (b : Block) : aesDecrypt w (aesEncrypt w b) = b := by
  have hrounds := foldl_reverse_of_undoes (φ := fun s => shiftRows (subBytes s)) (decryptRound_encryptRound w)
    [1, 2, 3, 4, 5, 6, 7, 8, 9, 10, 11, 12, 13] (addRoundKey b w 0)
  simp only [List.reverse_cons, List.reverse_nil, List.nil_append, List.cons_append] at hrounds
  rw [aesDecrypt, aesEncrypt, addRoundKey_addRoundKey, hrounds, invShiftRows_shiftRows, invSubBytes_subBytes,
    addRoundKey_addRoundKey]

theorem aesEncrypt_aesDecrypt (w : List Quad) (b : Block) : aesEncrypt w (aesDecrypt w b) = b := by
  have hrounds := foldl_reverse_of_undoes (φ := fun s => invSubBytes (invShiftRows s)) (encryptRound_decryptRound w)
    [13, 12, 11, 10, 9, 8, 7, 6, 5, 4, 3, 2, 1] (addRoundKey b w 14)
  simp only [List.reverse_cons, List.reverse_nil, List.nil_append, List.cons_append] at hrounds
  rw [aesEncrypt, aesDecrypt, addRoundKey_addRoundKey, hrounds, subBytes_invSubBytes, shiftRows_invShiftRows,
    addRoundKey_addRoundKey]

/-- Settles O54: round by round, from the inverse of each round transformation. -/
theorem aesInverse : Obligations.AesInverse := fun w b => ⟨aesDecrypt_aesEncrypt w b, aesEncrypt_aesDecrypt w b⟩

end Sys2Proof.Machine
end

section
/-! PROOFS. The CBC commands (43_cbc_commands.md R93 to R104): PKCS#7 and CBC as functions of byte strings, the four
cipher commands as those functions of their source region, and DECRYPT_* after ENCRYPT_*. -/

namespace Sys2Proof.Machine

open Safety

/-! ### PKCS#7 -/

/-- The pad bytes of value `n` that PKCS#7 ends a buffer with (R93). -/
def padTail (n : Nat) : List Byte := List.replicate n (BitVec.ofNat 8 n)

@[simp] theorem length_padTail (n : Nat) : (padTail n).length = n := List.length_replicate

theorem pad_eq_append_padTail (p : List Byte) : pad p = p ++ padTail (16 - p.length % 16) := rfl

theorem toNat_ofNat_of_le_sixteen {n : Nat} (h : n ≤ 16) : (BitVec.ofNat 8 n).toNat = n := by
  rw [BitVec.toNat_ofNat, Nat.mod_eq_of_lt (by omega)]

theorem getLastD_append_padTail (p : List Byte) {n : Nat} (h : 1 ≤ n) :
    (p ++ padTail n).getLastD 0 = BitVec.ofNat 8 n := by
  obtain ⟨k, rfl⟩ : ∃ k, n = k + 1 := ⟨n - 1, by omega⟩
  rw [padTail, List.replicate_succ', ← List.append_assoc, List.getLastD_concat]

/-- A buffer that ends in `n` bytes of value `n` has the pad length `n` (R94). -/
theorem padLength_append_padTail (p : List Byte) {n : Nat} (h1 : 1 ≤ n) (h16 : n ≤ 16) :
    padLength (p ++ padTail n) = some n := by
  have hn := toNat_ofNat_of_le_sixteen h16
  have hdrop : (p ++ padTail n).drop ((p ++ padTail n).length - n) = padTail n := by
    rw [List.length_append, length_padTail, Nat.add_sub_cancel, List.drop_left]
  have hall : (padTail n).all (fun b => b.toNat == n) = true := by simp [padTail, hn]
  simp only [padLength, getLastD_append_padTail p h1, hn, hdrop, hall, and_true]
  exact if_pos ⟨h1, h16, by simp⟩

/-- A buffer with the pad length `n` ends in `n` bytes of value `n`. -/
theorem drop_of_padLength {d : List Byte} {n : Nat} (h : padLength d = some n) : d.drop (d.length - n) = padTail n := by
  obtain ⟨-, h16, hlen⟩ := padLength_bounds h
  refine List.eq_replicate_iff.mpr ⟨by rw [List.length_drop]; omega, fun b hb => ?_⟩
  simp only [padLength] at h
  split at h
  case isTrue hvalid =>
    obtain ⟨-, -, -, hall⟩ := hvalid
    cases h
    exact BitVec.eq_of_toNat_eq (by simpa [toNat_ofNat_of_le_sixteen h16] using List.all_eq_true.mp hall b hb)
  case isFalse => cases h

/-- Unpad takes off `n` bytes of value `n` where the buffer ends in them, for `n` from 1 to 16 (R94). -/
theorem unpad_eq_some_iff {d p : List Byte} : unpad d = some p ↔ ∃ n, 1 ≤ n ∧ n ≤ 16 ∧ d = p ++ padTail n := by
  constructor
  · intro h
    unfold unpad at h
    split at h
    case h_1 n hn =>
      cases h
      obtain ⟨h1, h16, -⟩ := padLength_bounds hn
      exact ⟨n, h1, h16, by rw [← drop_of_padLength hn, List.take_append_drop]⟩
    case h_2 => cases h
  · rintro ⟨n, h1, h16, rfl⟩
    simp [unpad, padLength_append_padTail p h1 h16]

theorem unpad_pad (p : List Byte) : unpad (pad p) = some p :=
  unpad_eq_some_iff.mpr ⟨16 - p.length % 16, by omega, by omega, rfl⟩

/-- Settles O55: the pad length of `p` is `16 - p.length % 16`, and Unpad is `unpad_eq_some_iff`. -/
theorem padding : Obligations.Padding :=
  ⟨fun p => ⟨16 - p.length % 16, by omega, by omega, rfl, rfl⟩, fun _ _ => unpad_eq_some_iff⟩

/-! ### CBC -/

theorem length_cbcEncrypt (key iv p : List Byte) : (cbcEncrypt key iv p).length = (p.length / 16 + 1) * 16 := by
  rw [length_cbcEncrypt_blocks, length_cbcEncryptBlocks, Nat.mul_comm]

/-- Settles O56: CBC gives 16 bytes a block, and padding completes the last block or adds one. -/
theorem ciphertextLength : Obligations.CiphertextLength := length_cbcEncrypt

theorem Block.xor_xor_self (x y : Block) : (x.xor y).xor y = x := by
  simp only [Block.xor, quad_xor_xor_self]

theorem Block.toBytes_ofBytes {bs : List Byte} (h : bs.length = 16) : (Block.ofBytes bs).toBytes = bs := by
  refine List.ext_getElem h.symm fun i hi _ => ?_
  simp only [Block.length_toBytes] at hi
  interval_cases i <;> simp [Block.toBytes, Block.ofBytes, Quad.ofBytes, h]

/-- Inverse CBC undoes CBC over whole blocks, from every chaining value: each block's chaining value is the
ciphertext block before it, on both sides. -/
theorem cbcDecryptBlocks_cbcEncryptBlocks (w : List Quad) {m : Nat} (chain : Block) {q : List Byte}
    (h : q.length = 16 * m) : cbcDecryptBlocks w m chain (cbcEncryptBlocks w m chain q) = q := by
  induction m generalizing chain q with
  | zero => exact (List.eq_nil_of_length_eq_zero h).symm
  | succ m ih =>
    obtain ⟨x, y, rfl, hx⟩ : ∃ x y, q = x ++ y ∧ x.length = 16 :=
      ⟨q.take 16, q.drop 16, (List.take_append_drop 16 q).symm, by rw [List.length_take]; omega⟩
    rw [List.length_append, hx] at h
    simp only [cbcEncryptBlocks, cbcDecryptBlocks, Block.ofBytes_append _ _ (Block.length_toBytes _),
      Block.ofBytes_append x y hx, Block.ofBytes_toBytes, aesDecrypt_aesEncrypt, Block.xor_xor_self,
      Block.toBytes_ofBytes hx, List.drop_left' (Block.length_toBytes _), List.drop_left' hx]
    rw [ih _ (by omega)]

/-- Decryption undoes encryption (R97). -/
theorem cbcDecrypt_cbcEncrypt (key iv p : List Byte) : cbcDecrypt key iv (cbcEncrypt key iv p) = some p := by
  have hblocks : (cbcEncrypt key iv p).length / 16 = (pad p).length / 16 := by
    rw [cbcEncrypt, length_cbcEncryptBlocks, Nat.mul_div_cancel_left _ (by decide)]
  have hwhole : (pad p).length = 16 * ((pad p).length / 16) := by
    simp only [pad_eq_append_padTail, List.length_append, length_padTail]
    omega
  rw [cbcDecrypt, hblocks, cbcEncrypt, cbcDecryptBlocks_cbcEncryptBlocks _ _ hwhole, unpad_pad]

/-- Settles O57: undoing holds for keys and IVs of any length. -/
theorem cbcRoundTrip : Obligations.CbcRoundTrip := fun key iv p _ _ => cbcDecrypt_cbcEncrypt key iv p

/-- A plaintext is shorter than its ciphertext, as DECRYPT_*'s output extent needs (60_exceptions.md R138). -/
theorem length_lt_of_cbcDecrypt {key iv c p : List Byte} (h : cbcDecrypt key iv c = some p) : p.length < c.length := by
  obtain ⟨n, h1, -, hd⟩ := unpad_eq_some_iff.mp h
  have hlen := congrArg List.length hd
  rw [length_cbcDecryptBlocks, List.length_append, length_padTail] at hlen
  omega

/-! ### The cipher commands -/

/-- A command just accepted that passes its checks and whose accesses are all answered, under a silent host: the
premises that the result statements share. -/
structure Clear (i : Instr) (s : State) : Prop where
  fresh : Fresh s
  memWf : s.mem.wf = true
  runnable : Runnable i s
  reads : ReadsAnswered i s
  writes : WritesAnswered i s

theorem Clear.env {i : Instr} {s : State} (h : Clear i s) : s.env = [] := h.fresh.1

/-- The commands with a key and an IV read the auxiliary region and the source region (R101 to R104). -/
theorem inputs_of_keys {i : Instr} {s : State} {key iv : List Byte} (ha : Admitted i s) (hk : Keys i s key iv) :
    inputs i s = [s.latch.aux, s.latch.src] := by
  cases i with
  | encryptIndex => rfl
  | decryptIndex => rfl
  | encryptRaw =>
    have hlen : s.latch.auxLen.toNat = 48 := ha
    simp only [inputs, Latch.aux, Latch.src, hlen]
  | decryptRaw =>
    obtain ⟨-, -, hlen⟩ := ha
    simp only [inputs, Latch.aux, Latch.src, hlen]
  | loadSkey => exact hk.elim
  | decodeIndex => exact hk.elim
  | fingerprint => exact hk.elim
  | fingerprintCat => exact hk.elim
  | fingerprintAll => exact hk.elim
  | catalogueName => exact hk.elim

section
variable {i : Instr} {s t : State} {key iv : List Byte}

/-- No read of the auxiliary region of a clear cipher command gets an error response. -/
theorem Clear.auxReads (h : Clear i s) (hk : Keys i s key iv) (a : Nat) (hlo : s.latch.auxAddr.toNat ≤ a)
    (hhi : a < s.latch.auxAddr.toNat + s.latch.auxLen.toNat) : s.cfg.busErrAt a .read = false :=
  h.reads s.latch.aux (by simp [inputs_of_keys h.runnable.admitted hk]) a hlo hhi

/-- A clear cipher command gives its stream what it needs of its regions, once the key is read. -/
theorem Clear.streamOk (h : Clear i s) (hk : Keys i s key iv) (hkeyed : Keyed s t key iv) {n : Nat}
    (hn : outMax i s = some n) : StreamOk t 0 t.latch.srcLen.toNat n := by
  have hsrc : s.latch.src ∈ inputs i s := by simp [inputs_of_keys h.runnable.admitted hk]
  obtain ⟨-, hdst⟩ := h.runnable.outputFits n hn
  have hwrites := h.writes
  simp only [WritesAnswered, outExtent, hn, Option.getD_some] at hwrites
  rw [State.latch_of_rest hkeyed.rest]
  exact streamOk_of hkeyed.rest hkeyed.mem h.env h.memWf (h.runnable.inputsInRange _ hsrc) hdst (h.reads _ hsrc)
    hwrites (h.runnable.noOverlap n hn _ hsrc)

/-- What is written once the key is read is written since the command's start. -/
theorem Keyed.wrote {u : State} {a : Nat} {bs : List Byte} (hkeyed : Keyed s t key iv) (h : Wrote t u a bs) :
    Wrote s u a bs where
  rest := h.rest.trans hkeyed.rest
  mem := by rw [h.mem, hkeyed.mem]
  written := by rw [h.written, hkeyed.written]

theorem outMax_encrypt (hi : i = .encryptIndex ∨ i = .encryptRaw) (s : State) :
    outMax i s = some ((s.latch.srcLen.toNat / 16 + 1) * 16) := by
  rcases hi with rfl | rfl <;> rfl

theorem outMax_decrypt (hi : i = .decryptIndex ∨ i = .decryptRaw) (s : State) :
    outMax i s = some (s.latch.srcLen.toNat - 1) := by
  rcases hi with rfl | rfl <;> rfl

/-- The ciphertext length that both DECRYPT_* commands insist on (R102, R104). -/
theorem srcLen_of_admitted_decrypt (hi : i = .decryptIndex ∨ i = .decryptRaw) (ha : Admitted i s) :
    s.latch.srcLen.toNat ≠ 0 ∧ s.latch.srcLen.toNat % 16 = 0 := by
  rcases hi with rfl | rfl
  · exact ha.2
  · exact ⟨ha.1, ha.2.1⟩

/-- ENCRYPT_* writes the CBC encryption of its source region under its key and IV (R101, R103). -/
theorem exec_encrypt (hi : i = .encryptIndex ∨ i = .encryptRaw) (h : Clear i s) (hk : Keys i s key iv) :
    ∃ u, exec i s = .next u ∧ Completes s u .ok ((s.latch.srcLen.toNat / 16 + 1) * 16) 0 ∧ KeyKept s u
      ∧ Stored s.mem u.mem s.latch.dstAddr.toNat
        (cbcEncrypt key iv (s.mem.readRun s.latch.srcAddr.toNat s.latch.srcLen.toNat)) := by
  obtain ⟨hcap, hdst⟩ := h.runnable.outputFits _ (outMax_encrypt hi s)
  obtain ⟨t, hkeyed, hrun⟩ := run_encrypt_keyed hi h.env h.runnable hk (h.auxReads hk)
  have hlatch : t.latch = s.latch := State.latch_of_rest hkeyed.rest
  have hok := h.streamOk hk hkeyed (outMax_encrypt hi s)
  rw [← hlatch] at hok
  obtain ⟨u, hstream, hwrote⟩ := encStream_quiet hok
  have hwrote := hkeyed.wrote (hwrote key iv hkeyed.key hkeyed.iv)
  rw [hlatch] at hstream hwrote
  rw [hkeyed.mem] at hwrote
  rw [exec_eq_conclude, hrun, hstream]
  refine conclude_ok_wrote h.env h.memWf hwrote (Nat.lt_of_le_of_lt hcap s.latch.dstLen.isLt) ?_
  rw [length_cbcEncrypt, Memory.length_readRun]
  exact hdst

/-- DECRYPT_* of a ciphertext that decrypts writes the plaintext (R102, R104). -/
theorem exec_decrypt (hi : i = .decryptIndex ∨ i = .decryptRaw) (h : Clear i s) (hk : Keys i s key iv)
    {plain : List Byte}
    (hplain : cbcDecrypt key iv (s.mem.readRun s.latch.srcAddr.toNat s.latch.srcLen.toNat) = some plain) :
    ∃ u, exec i s = .next u ∧ Completes s u .ok plain.length 0 ∧ KeyKept s u
      ∧ Stored s.mem u.mem s.latch.dstAddr.toNat plain := by
  obtain ⟨hne, h16⟩ := srcLen_of_admitted_decrypt hi h.runnable.admitted
  obtain ⟨-, hdst⟩ := h.runnable.outputFits _ (outMax_decrypt hi s)
  have hshort := length_lt_of_cbcDecrypt hplain
  rw [Memory.length_readRun] at hshort
  obtain ⟨t, hkeyed, hrun⟩ := run_decrypt_keyed hi h.env h.runnable hk (h.auxReads hk)
  have hlatch : t.latch = s.latch := State.latch_of_rest hkeyed.rest
  have hok := h.streamOk hk hkeyed (outMax_decrypt hi s)
  rw [← hlatch] at hne h16 hok hplain
  rw [← hkeyed.mem] at hplain
  obtain ⟨u, hstream, hwrote⟩ := decStream_quiet hne h16 hok hkeyed.key hkeyed.iv hplain
  rw [hlatch] at hwrote
  rw [exec_eq_conclude, hrun, hstream]
  refine conclude_ok_wrote h.env h.memWf (hkeyed.wrote hwrote) (hshort.trans s.latch.srcLen.isLt) ?_
  simp only [addressSpace]
  omega

end

/-- Settles O32: `exec_encrypt` with the blob's key and IV. -/
theorem encryptIndexResult : Obligations.EncryptIndexResult := fun _ _ _ hfresh hwf hrun hreads hwrites hkeys =>
  exec_encrypt (.inl rfl) ⟨hfresh, hwf, hrun, hreads, hwrites⟩ hkeys

/-- Settles O33: `exec_decrypt` with the blob's key and IV. -/
theorem decryptIndexResult : Obligations.DecryptIndexResult :=
  fun _ _ _ _ hfresh hwf hrun hreads hwrites hkeys hplain =>
    exec_decrypt (.inl rfl) ⟨hfresh, hwf, hrun, hreads, hwrites⟩ hkeys hplain

/-- Settles O34: `exec_encrypt` with the record's key and IV. -/
theorem encryptRawResult : Obligations.EncryptRawResult := fun _ hfresh hwf hrun hreads hwrites =>
  exec_encrypt (.inr rfl) ⟨hfresh, hwf, hrun, hreads, hwrites⟩ ⟨rfl, rfl⟩

/-- Settles O35: `exec_decrypt` with the record's key and IV. -/
theorem decryptRawResult : Obligations.DecryptRawResult := fun _ _ hfresh hwf hrun hreads hwrites hplain =>
  exec_decrypt (.inr rfl) ⟨hfresh, hwf, hrun, hreads, hwrites⟩ ⟨rfl, rfl⟩ hplain

/-! ### DECRYPT_* after ENCRYPT_* -/

/-- Bytes stored from `a` on are what memory holds there. -/
theorem readRun_of_stored {m m' : Memory} {a : Nat} {bs : List Byte} (h : Stored m m' a bs) :
    m'.readRun a bs.length = bs := by
  refine List.ext_getElem (Memory.length_readRun ..) fun k hk hk' => ?_
  rw [← List.getD_eq_getElem _ 0 hk, Memory.getD_readRun _ _ _ _ hk', h, if_pos ⟨by omega, by omega⟩,
    Nat.add_sub_cancel_left, List.getD_eq_getElem _ 0 hk']

/-- DECRYPT_* of the ciphertext of `plain` under its own key and IV writes `plain` (R97). -/
theorem exec_decrypt_ciphertext {i : Instr} {s : State} {key iv plain : List Byte}
    (hi : i = .decryptIndex ∨ i = .decryptRaw) (h : Clear i s) (hk : Keys i s key iv)
    (hsrc : s.mem.readRun s.latch.srcAddr.toNat s.latch.srcLen.toNat = cbcEncrypt key iv plain) :
    ∃ u, exec i s = .next u ∧ u.result = 0 ∧ u.outLen.toNat = plain.length
      ∧ Stored s.mem u.mem s.latch.dstAddr.toNat plain := by
  obtain ⟨u, hexec, hdone, -, hstored⟩ := exec_decrypt hi h hk (by rw [hsrc, cbcDecrypt_cbcEncrypt])
  exact ⟨u, hexec, hdone.result, hdone.outLen, hstored⟩

/-- The ENCRYPT_* command `e` and the DECRYPT_* command `d` take their key from the same form of auxiliary region. -/
def CipherPair (e d : Instr) : Prop :=
  e = .encryptIndex ∧ d = .decryptIndex ∨ e = .encryptRaw ∧ d = .decryptRaw

section
variable {e d : Instr} {s u : State} {key iv : List Byte}

theorem CipherPair.encrypt (h : CipherPair e d) : e = .encryptIndex ∨ e = .encryptRaw := h.imp And.left And.left

theorem CipherPair.decrypt (h : CipherPair e d) : d = .decryptIndex ∨ d = .decryptRaw := h.imp And.right And.right

/-- With the same blob or record, and for the index commands the same static key, DECRYPT_* has the key and the IV of
ENCRYPT_*. -/
theorem CipherPair.keys (h : CipherPair e d) (hs : Admitted e s) (hu : Admitted d u)
    (hsk : e = .encryptIndex → u.sk = s.sk)
    (haux : u.mem.readRun u.latch.auxAddr.toNat u.latch.auxLen.toNat =
      s.mem.readRun s.latch.auxAddr.toNat s.latch.auxLen.toNat)
    (hk : Keys e s key iv) : Keys d u key iv := by
  rcases h with ⟨rfl, rfl⟩ | ⟨rfl, rfl⟩
  · simp only [Keys] at hk ⊢
    rw [hsk rfl, haux, hk]
  · have hslen : s.latch.auxLen.toNat = 32 + 16 := hs
    obtain ⟨-, -, hulen⟩ : _ ∧ _ ∧ u.latch.auxLen.toNat = 32 + 16 := hu
    rw [hslen, hulen, Memory.readRun_add, Memory.readRun_add] at haux
    obtain ⟨hkey, hiv⟩ := List.append_inj haux (by simp only [Memory.length_readRun])
    obtain ⟨rfl, rfl⟩ := hk
    exact ⟨hkey.symm, hiv.symm⟩

/-- Where ENCRYPT_* has run, DECRYPT_* on its output writes the plaintext that ENCRYPT_* read (R97). -/
theorem CipherPair.roundTrip (h : CipherPair e d) (hs : Clear e s) (hk : Keys e s key iv) :
    ∃ t, exec e s = .next t ∧ t.result = 0
      ∧ ∀ u : State, Clear d u → Keys d u key iv →
        u.mem.readRun u.latch.srcAddr.toNat u.latch.srcLen.toNat =
          t.mem.readRun s.latch.dstAddr.toNat t.outLen.toNat →
        ∃ v, exec d u = .next v ∧ v.result = 0 ∧ v.outLen.toNat = s.latch.srcLen.toNat
          ∧ Stored u.mem v.mem u.latch.dstAddr.toNat
            (s.mem.readRun s.latch.srcAddr.toNat s.latch.srcLen.toNat) := by
  obtain ⟨t, hexec, hdone, -, hstored⟩ := exec_encrypt h.encrypt hs hk
  refine ⟨t, hexec, hdone.result, fun u hu hku hsrc => ?_⟩
  have hlen : t.outLen.toNat =
      (cbcEncrypt key iv (s.mem.readRun s.latch.srcAddr.toNat s.latch.srcLen.toNat)).length := by
    rw [hdone.outLen, length_cbcEncrypt, Memory.length_readRun]
  rw [hlen, readRun_of_stored hstored] at hsrc
  obtain ⟨v, hexec', hresult, hout, hstored'⟩ := exec_decrypt_ciphertext h.decrypt hu hku hsrc
  exact ⟨v, hexec', hresult, by rw [hout, Memory.length_readRun], hstored'⟩

end

/-- Settles O40: the CBC round trip, read off the source region or off what ENCRYPT_* stored. -/
theorem commandRoundTrip : Obligations.CommandRoundTrip := by
  refine ⟨?index, ?raw, ?both⟩
  case index =>
    intro s key iv plain hfresh hwf hrun hreads hwrites hkeys hsrc
    exact exec_decrypt_ciphertext (.inl rfl) ⟨hfresh, hwf, hrun, hreads, hwrites⟩ hkeys hsrc
  case raw =>
    intro s plain hfresh hwf hrun hreads hwrites hsrc
    exact exec_decrypt_ciphertext (.inr rfl) ⟨hfresh, hwf, hrun, hreads, hwrites⟩ ⟨rfl, rfl⟩ hsrc
  case both =>
    rintro ⟨e, d⟩ hmem s key iv hfresh hwf hrun hreads hwrites hkeys
    have hpair : CipherPair e d := by simpa [CipherPair] using hmem
    obtain ⟨t, hexec, hresult, hback⟩ := hpair.roundTrip ⟨hfresh, hwf, hrun, hreads, hwrites⟩ hkeys
    refine ⟨t, hexec, hresult, fun u hsk haux hsrc hfresh' hwf' hrun' hreads' hwrites' => ?_⟩
    exact hback u ⟨hfresh', hwf', hrun', hreads', hwrites'⟩
      (hpair.keys hrun.admitted hrun'.admitted hsk haux hkeys) hsrc

end Sys2Proof.Machine
end

section
/-! PROOFS. The SHA-256 core (44_sha256_core.md R109, R112): the zeros of the padding fill the last block up to the bit
length, and the digest has 32 bytes. -/

namespace Sys2Proof.Machine

/-- `BE64(n)` as base-256 digits, most significant first (R109): a shift by `8 * k` bits divides by `256 ^ k`. -/
theorem be64_eq_map_div (n : Nat) :
    be64 n = (List.range 8).map (fun j => BitVec.ofNat 8 (n / 256 ^ (7 - j))) := by
  simp [be64, List.range_succ, Nat.shiftRight_eq_div_pow]

@[simp] theorem length_be64 (n : Nat) : (be64 n).length = 8 := rfl

/-- The message, the 80 and the zeros leave just the 8 bytes of the bit length in their last block (R109). -/
theorem length_beforeBitLength_mod (l : Nat) : (l + 1 + (119 - l % 64) % 64) % 64 = 56 := by omega

theorem length_shaPad (m : List Byte) :
    (shaPad m).length = m.length + 1 + (119 - m.length % 64) % 64 + 8 := by
  simp only [shaPad, List.length_append, List.length_singleton, List.length_replicate, length_be64]

/-- `Pad256(M)` is whole blocks (R109). -/
theorem length_shaPad_mod (m : List Byte) : (shaPad m).length % 64 = 0 := by
  have hfill := length_beforeBitLength_mod m.length
  rw [length_shaPad]
  omega

@[simp] theorem length_sha256 (m : List Byte) : (sha256 m).length = 32 := length_hashBytes (shaState m)

/-- Settles O58: below 64, the zeros that fill the last block up to the bit length are the fewest. The bound on the
message is not used: the model's BE64 and the digits of the statement both drop what does not fit in 64 bits. -/
theorem shaPadding : Obligations.ShaPadding := by
  intro m _
  refine ⟨⟨(119 - m.length % 64) % 64, Nat.mod_lt _ (by decide), length_beforeBitLength_mod m.length, ?_⟩,
    length_shaPad_mod m, length_sha256 m⟩
  rw [← be64_eq_map_div, shaPad]

end Sys2Proof.Machine
end

section
/-! PROOFS. Well-formed UTF-8 names (45_fingerprint.md R114): the rows of the model's table against the byte sequences
that the rule allows, and a name's scalars as the one way to split it. -/

namespace Sys2Proof.Machine

open Safety

/-! ### The rows of the table -/

/-- The bytes of `x` fill `row`: one byte for each range, inside it. -/
def Fills (row : Utf8Row) (x : List Byte) : Prop :=
  List.Forall₂ (fun (range : Nat × Nat) (b : Byte) => range.1 ≤ b.toNat ∧ b.toNat ≤ range.2) row x

theorem matchRow_cons (range : Nat × Nat) (row : Utf8Row) (b : Byte) (bs : List Byte) :
    matchRow (range :: row) (b :: bs) =
      if range.1 ≤ b.toNat ∧ b.toNat ≤ range.2 then (matchRow row bs).map (fun r => (b :: r.1, r.2)) else none := by
  rw [matchRow]
  cases matchRow row bs <;> rfl

/-- `matchRow` answers with the bytes that fill the row, and what follows them. -/
theorem matchRow_eq_some_iff {row : Utf8Row} {bs x rest : List Byte} :
    matchRow row bs = some (x, rest) ↔ bs = x ++ rest ∧ Fills row x := by
  induction row generalizing bs x with
  | nil =>
    simp only [matchRow, Fills, List.forall₂_nil_left_iff, Option.some.injEq, Prod.mk.injEq]
    constructor <;> (rintro ⟨rfl, rfl⟩; exact ⟨rfl, rfl⟩)
  | cons range row ih =>
    simp only [Fills, List.forall₂_cons_left_iff]
    constructor
    · intro h
      cases bs with
      | nil => cases h
      | cons b bs =>
        rw [matchRow_cons, Option.ite_none_right_eq_some, Option.map_eq_some_iff] at h
        obtain ⟨hb, ⟨y, rest'⟩, hmatch, heq⟩ := h
        obtain ⟨rfl, rfl⟩ := Prod.mk.inj heq
        obtain ⟨rfl, hfills⟩ := ih.mp hmatch
        exact ⟨rfl, b, y, hb, hfills, rfl⟩
    · rintro ⟨rfl, b, y, hb, hfills, rfl⟩
      rw [List.cons_append, matchRow_cons, if_pos hb, ih.mpr ⟨rfl, hfills⟩, Option.map_some]

/-- R114's table, written out by length, is the model's rows. -/
theorem isScalar_iff_fills {x : List Byte} : IsScalar x ↔ ∃ row ∈ utf8Rows, Fills row x := by
  simp only [utf8Rows, List.mem_cons, List.not_mem_nil, or_false, exists_eq_or_imp, exists_eq_left, Fills]
  rcases x with _ | ⟨a, _ | ⟨b, _ | ⟨c, _ | ⟨d, _ | ⟨e, x⟩⟩⟩⟩⟩
  · simp [IsScalar]
  · simp [IsScalar]
  · simp [IsScalar, Continuation]
  · simp [IsScalar, Continuation]
    omega
  · simp [IsScalar, Continuation]
    omega
  · simp [IsScalar]

theorem ne_nil_of_isScalar {x : List Byte} (h : IsScalar x) : x ≠ [] := by
  rintro rfl
  exact h

/-- No two rows of the table share a first byte. -/
theorem utf8Rows_disjoint : ∀ row ∈ utf8Rows, ∀ row' ∈ utf8Rows, row ≠ row' →
    (row.headD (0, 0)).2 < (row'.headD (0, 0)).1 ∨ (row'.headD (0, 0)).2 < (row.headD (0, 0)).1 := by
  decide

/-- The first byte of a name lies in the first range of a row that matches. -/
theorem matchRow_head {row : Utf8Row} {bs : List Byte} {r : List Byte × List Byte} (hrow : row ∈ utf8Rows)
    (h : matchRow row bs = some r) :
    (row.headD (0, 0)).1 ≤ (bs.headD 0).toNat ∧ (bs.headD 0).toNat ≤ (row.headD (0, 0)).2 := by
  cases row with
  | nil => exact absurd hrow (by decide)
  | cons range row =>
    cases bs with
    | nil => cases h
    | cons b bs =>
      rw [matchRow_cons, Option.ite_none_right_eq_some] at h
      exact h.1

/-- At most one row matches, so a name starts with at most one scalar. -/
theorem matchRow_unique {row row' : Utf8Row} {bs : List Byte} {r r' : List Byte × List Byte}
    (hrow : row ∈ utf8Rows) (hrow' : row' ∈ utf8Rows) (h : matchRow row bs = some r)
    (h' : matchRow row' bs = some r') : r = r' := by
  have heq : row = row' := by
    by_contra hne
    have hdisjoint := utf8Rows_disjoint row hrow row' hrow' hne
    have hin := matchRow_head hrow h
    have hin' := matchRow_head hrow' h'
    omega
  subst heq
  exact Option.some.inj (h.symm.trans h')

/-! ### The scalars of a name -/

theorem takeScalar_eq_findSome? (rows : List Utf8Row) (bs : List Byte) :
    takeScalar rows bs = rows.findSome? fun row => matchRow row bs := by
  induction rows with
  | nil => rfl
  | cons row rows ih =>
    rw [takeScalar, List.findSome?_cons, ih]
    cases matchRow row bs <;> rfl

/-- `takeScalar` answers with the first scalar and what follows it. -/
theorem takeScalar_eq_some_iff {bs x rest : List Byte} :
    takeScalar utf8Rows bs = some (x, rest) ↔ bs = x ++ rest ∧ IsScalar x := by
  rw [takeScalar_eq_findSome?, isScalar_iff_fills]
  constructor
  · intro h
    obtain ⟨row, hrow, hmatch⟩ := List.exists_of_findSome?_eq_some h
    obtain ⟨hbs, hfills⟩ := matchRow_eq_some_iff.mp hmatch
    exact ⟨hbs, row, hrow, hfills⟩
  · rintro ⟨hbs, row, hrow, hfills⟩
    have hmatch := matchRow_eq_some_iff.mpr ⟨hbs, hfills⟩
    cases hfind : utf8Rows.findSome? fun row => matchRow row bs with
    | none => rw [List.findSome?_eq_none_iff.mp hfind row hrow] at hmatch; cases hmatch
    | some r =>
      obtain ⟨row', hrow', hmatch'⟩ := List.exists_of_findSome?_eq_some hfind
      rw [matchRow_unique hrow' hrow hmatch' hmatch]

theorem scalarsFuel_cons_eq_some_iff {fuel : Nat} {b : Byte} {bs : List Byte} {l : List (List Byte)} :
    scalarsFuel (fuel + 1) (b :: bs) = some l ↔
      ∃ x rest l', takeScalar utf8Rows (b :: bs) = some (x, rest) ∧ scalarsFuel fuel rest = some l' ∧ l = x :: l' := by
  rw [scalarsFuel]
  cases takeScalar utf8Rows (b :: bs) with
  | none => simp
  | some r =>
    obtain ⟨x, rest⟩ := r
    cases hrest : scalarsFuel fuel rest with
    | none => simp [hrest]
    | some l' => simp [hrest, eq_comm]

/-- Only the empty list of scalars has no bytes. -/
theorem nil_eq_flatten_scalars_iff {l : List (List Byte)} :
    ([] = l.flatten ∧ ∀ x ∈ l, IsScalar x) ↔ l = [] := by
  constructor
  · rintro ⟨hflat, hl⟩
    cases l with
    | nil => rfl
    | cons x l =>
      have hx : x = [] := List.flatten_eq_nil_iff.mp hflat.symm x List.mem_cons_self
      exact absurd hx (ne_nil_of_isScalar (hl x List.mem_cons_self))
  · rintro rfl
    exact ⟨rfl, fun _ hx => absurd hx List.not_mem_nil⟩

/-- A scalar has at least one byte, so fuel for every byte is enough. -/
theorem scalarsFuel_eq_some_iff {fuel : Nat} {bs : List Byte} {l : List (List Byte)} (hfuel : bs.length ≤ fuel) :
    scalarsFuel fuel bs = some l ↔ bs = l.flatten ∧ ∀ x ∈ l, IsScalar x := by
  induction fuel generalizing bs l with
  | zero =>
    obtain rfl := List.length_eq_zero_iff.mp (Nat.le_zero.mp hfuel)
    rw [nil_eq_flatten_scalars_iff, scalarsFuel, Option.some.injEq, eq_comm]
  | succ fuel ih =>
    cases bs with
    | nil => rw [nil_eq_flatten_scalars_iff, scalarsFuel, Option.some.injEq, eq_comm]
    | cons b bs =>
      have hrest {x rest : List Byte} (hbs : b :: bs = x ++ rest) (hx : IsScalar x) : rest.length ≤ fuel := by
        have hlen := congrArg List.length hbs
        have hpos := List.length_pos_iff.mpr (ne_nil_of_isScalar hx)
        rw [List.length_append] at hlen
        omega
      rw [scalarsFuel_cons_eq_some_iff]
      constructor
      · rintro ⟨x, rest, l', htake, hscalars, rfl⟩
        obtain ⟨hbs, hx⟩ := takeScalar_eq_some_iff.mp htake
        obtain ⟨hflat, hl⟩ := (ih (hrest hbs hx)).mp hscalars
        exact ⟨by rw [hbs, hflat, List.flatten_cons], List.forall_mem_cons.mpr ⟨hx, hl⟩⟩
      · rintro ⟨hflat, hl⟩
        cases l with
        | nil => cases hflat
        | cons x l' =>
          obtain ⟨hx, hl'⟩ := List.forall_mem_cons.mp hl
          exact ⟨x, l'.flatten, l', takeScalar_eq_some_iff.mpr ⟨hflat, hx⟩,
            (ih (hrest hflat hx)).mpr ⟨rfl, hl'⟩, rfl⟩

/-- The scalars of a name are the one way to split it into byte sequences of the table (R114). -/
theorem scalars_eq_some_iff {name : List Byte} {l : List (List Byte)} :
    scalars name = some l ↔ name = l.flatten ∧ ∀ x ∈ l, IsScalar x := scalarsFuel_eq_some_iff le_rfl

theorem wellFormedUtf8_iff {name : List Byte} :
    wellFormedUtf8 name = true ↔ ∃ l : List (List Byte), name = l.flatten ∧ ∀ x ∈ l, IsScalar x := by
  simp only [wellFormedUtf8, Option.isSome_iff_exists, scalars_eq_some_iff]

/-- Settles O59: the scalars as the one split, which a name has exactly when it is well-formed. -/
theorem utf8Scalars : Obligations.Utf8Scalars :=
  ⟨fun _ _ => scalars_eq_some_iff, fun _ => wellFormedUtf8_iff⟩

end Sys2Proof.Machine
end

section
/-! PROOFS. The fingerprint message and its output forms (45_fingerprint.md R115, R116, 30_encoding.md R70). -/

namespace Sys2Proof.Machine

open Safety

/-- The message of a name that is given as its scalars (R115). -/
theorem fpMsg_flatten (sk : List Byte) {l : List (List Byte)} (hl : ∀ x ∈ l, IsScalar x) :
    fpMsg sk l.flatten = sk ++ (l.map (fun x => x ++ [0])).flatten := by
  rw [fpMsg, scalars_eq_some_iff.mpr ⟨rfl, hl⟩, Option.getD_some, List.flatMap_def]

/-- A 00 after each scalar adds one byte a scalar. -/
theorem length_terminated (l : List (List Byte)) :
    ((l.map (fun x => x ++ [(0 : Byte)])).flatten).length = l.flatten.length + l.length := by
  induction l with
  | nil => rfl
  | cons x l ih =>
    simp only [List.map_cons, List.flatten_cons, List.length_append, List.length_cons, List.length_nil, ih]
    omega

/-- The sixteen uppercase hex digits (R70). -/
def hexDigits : List Byte :=
  [0x30, 0x31, 0x32, 0x33, 0x34, 0x35, 0x36, 0x37, 0x38, 0x39, 0x41, 0x42, 0x43, 0x44, 0x45, 0x46]

theorem hexu_eq_getD_hexDigits : ∀ x < 16, hexu x = hexDigits.getD x 0 := by decide

/-- Digest byte `j` in hex stands at `2 * j`, its high nibble first (R70). -/
theorem getD_fpOut_hex {d : List Byte} {j : Nat} (hj : j < d.length) :
    (fpOut d false).getD (2 * j) 0 = hexu ((d.getD j 0).toNat / 16)
      ∧ (fpOut d false).getD (2 * j + 1) 0 = hexu ((d.getD j 0).toNat % 16) := by
  induction d generalizing j with
  | nil => cases hj
  | cons b d ih =>
    have hcons : fpOut (b :: d) false = hexu (b.toNat / 16) :: hexu (b.toNat % 16) :: fpOut d false := rfl
    rw [hcons]
    cases j with
    | zero => exact ⟨rfl, rfl⟩
    | succ j => exact ih (Nat.lt_of_succ_lt_succ hj)

/-- Settles O60: the message from the scalars, and the hex form digit by digit. -/
theorem fingerprintForms : Obligations.FingerprintForms := by
  refine ⟨fun sk l hl => ⟨fpMsg_flatten sk hl, ?length⟩, fun d hd => ⟨rfl, length_fpOut hd false, ?digits⟩⟩
  case length => rw [fpMsg_flatten sk hl, List.length_append, length_terminated, Nat.add_assoc]
  case digits =>
    rintro j hj _ rfl
    obtain ⟨hhigh, hlow⟩ := getD_fpOut_hex (hd ▸ hj)
    have hbyte := (d.getD j 0).isLt
    rw [hhigh, hlow]
    exact ⟨hexu_eq_getD_hexDigits _ (by omega), hexu_eq_getD_hexDigits _ (by omega)⟩

end Sys2Proof.Machine
end

section
/-! PROOFS. The Fingerprint Engine and the catalogue commands (45_fingerprint.md R119 to R122): what each of the four
writes. -/

namespace Sys2Proof.Machine

open Safety

/-! ### What the four commands share -/

theorem length_fpOut_fingerprint (sk name : List Byte) (raw : Bool) :
    (fpOut (fingerprint sk name) raw).length = fingerprintWidth raw := length_fpOut (length_sha256 _) raw

/-- What is written once the extent is noted is written since the command's start. -/
theorem Wrote.of_extent {s t : State} {n a : Nat} {bs : List Byte} (h : Wrote { s with extent := n } t a bs) :
    Wrote s t a bs := ⟨h.rest, h.mem, h.written⟩

/-- No write of a clear command's output extent gets an error response. -/
theorem Clear.writesAnswered {i : Instr} {s : State} (h : Clear i s) {n : Nat} (hn : outMax i s = some n) (b : Nat)
    (hlo : s.latch.dstAddr.toNat ≤ b) (hhi : b < s.latch.dstAddr.toNat + n) : s.cfg.busErrAt b .write = false := by
  have hwrites := h.writes
  simp only [WritesAnswered, outExtent, hn, Option.getD_some] at hwrites
  exact hwrites b hlo hhi

/-- A clear command whose run fills its output extent with `bs` ends with `bs` stored. -/
theorem exec_of_run_wrote {i : Instr} {s : State} {bs : List Byte} (h : Clear i s) (hn : outMax i s = some bs.length)
    (hrun : ∃ t, run i s = .ok bs.length t ∧ Wrote s t s.latch.dstAddr.toNat bs) :
    ∃ u, exec i s = .next u ∧ Completes s u .ok bs.length 0 ∧ KeyKept s u
      ∧ Stored s.mem u.mem s.latch.dstAddr.toNat bs := by
  obtain ⟨t, hrunEq, hwrote⟩ := hrun
  obtain ⟨hcap, hrange⟩ := h.runnable.outputFits _ hn
  rw [exec_eq_conclude, hrunEq]
  exact conclude_ok_wrote h.env h.memWf hwrote (Nat.lt_of_le_of_lt hcap s.latch.dstLen.isLt) hrange

/-! ### The runs -/

section
variable {s : State} {k : Nat} {raw : Bool}

theorem run_fingerprint_quiet (h : Clear (.fingerprint raw) s)
    (hname : wellFormedUtf8 (s.mem.readRun s.latch.srcAddr.toNat s.latch.srcLen.toNat) = true) :
    ∃ t, run (.fingerprint raw) s = .ok (fingerprintWidth raw) t
      ∧ Wrote s t s.latch.dstAddr.toNat
        (fpOut (fingerprint s.sk (s.mem.readRun s.latch.srcAddr.toNat s.latch.srcLen.toNat)) raw) := by
  have hsrc : s.latch.src ∈ inputs (.fingerprint raw) s := List.mem_singleton_self _
  have hregions : checkRegions [s.latch.src] (some (fingerprintWidth raw)) s =
      .ok () { s with extent := fingerprintWidth raw } := checkRegions_runnable h.runnable rfl
  have hread : memRead s.latch.srcAddr.toNat s.latch.srcLen.toNat { s with extent := fingerprintWidth raw } =
      .ok (s.mem.readRun s.latch.srcAddr.toNat s.latch.srcLen.toNat) { s with extent := fingerprintWidth raw } :=
    memRead_quiet h.env (h.runnable.inputsInRange _ hsrc) (h.reads _ hsrc)
  obtain ⟨-, hrange⟩ := h.runnable.outputFits _ rfl
  obtain ⟨t, hwrite, hwrote⟩ := writeFingerprint_quiet (s := { s with extent := fingerprintWidth raw })
    (s.mem.readRun s.latch.srcAddr.toNat s.latch.srcLen.toNat) raw h.env hrange (h.writesAnswered rfl)
  refine ⟨t, ?_, hwrote.of_extent⟩
  simp only [run, runFingerprint, prologue_admitted h.runnable.admitted, hregions, Eng.bind, hread, raiseIf, hname,
    Bool.not_true, Bool.false_eq_true, if_false, hwrite]

theorem run_fingerprintCat_quiet (h : Clear (.fingerprintCat k raw) s) :
    ∃ t, run (.fingerprintCat k raw) s = .ok (fingerprintWidth raw) t
      ∧ Wrote s t s.latch.dstAddr.toNat (fpOut (fingerprint s.sk (s.cfg.name k)) raw) := by
  have hregions : checkRegions [] (some (fingerprintWidth raw)) s =
      .ok () { s with extent := fingerprintWidth raw } := checkRegions_runnable h.runnable rfl
  obtain ⟨-, hrange⟩ := h.runnable.outputFits _ rfl
  obtain ⟨t, hwrite, hwrote⟩ := writeFingerprint_quiet (s := { s with extent := fingerprintWidth raw })
    (s.cfg.name k) raw h.env hrange (h.writesAnswered rfl)
  refine ⟨t, ?_, hwrote.of_extent⟩
  simp only [run, runFingerprintCat, prologue_admitted h.runnable.admitted, hregions, Eng.bind, hwrite]

theorem run_fingerprintAll_quiet (h : Clear (.fingerprintAll raw) s) :
    ∃ t, run (.fingerprintAll raw) s = .ok (12 * fingerprintWidth raw) t
      ∧ Wrote s t s.latch.dstAddr.toNat (records s.cfg s.sk raw 12 0) := by
  have hregions : checkRegions [] (some (12 * fingerprintWidth raw)) s =
      .ok () { s with extent := 12 * fingerprintWidth raw } := checkRegions_runnable h.runnable rfl
  obtain ⟨-, hrange⟩ := h.runnable.outputFits (12 * fingerprintWidth raw) rfl
  have hwrites := h.writesAnswered (n := 12 * fingerprintWidth raw) rfl
  rw [Nat.mul_comm] at hrange hwrites
  obtain ⟨t, hwrite, hwrote⟩ := writeRecords_quiet (s := { s with extent := 12 * fingerprintWidth raw }) (n := 12)
    (k := 0) raw h.env hrange hwrites
  refine ⟨t, ?_, hwrote.of_extent⟩
  simp only [run, runFingerprintAll, prologue_admitted h.runnable.admitted, catCount, hregions, Eng.bind, hwrite]

theorem run_catalogueName_quiet (h : Clear (.catalogueName k) s) :
    ∃ t, run (.catalogueName k) s = .ok (s.cfg.name k).length t
      ∧ Wrote s t s.latch.dstAddr.toNat (s.cfg.name k) := by
  have hregions : checkRegions [] (some (s.cfg.name k).length) s =
      .ok () { s with extent := (s.cfg.name k).length } := checkRegions_runnable h.runnable rfl
  obtain ⟨-, hrange⟩ := h.runnable.outputFits _ rfl
  have hwrite := memWrite_quiet (s := { s with extent := (s.cfg.name k).length }) (s.cfg.name k) h.env hrange
    (h.writesAnswered rfl)
  refine ⟨({ s with extent := (s.cfg.name k).length } : State).wrote s.latch.dstAddr.toNat (s.cfg.name k), ?_,
    rfl, rfl, rfl⟩
  simp only [run, runCatalogueName, prologue_admitted h.runnable.admitted, hregions, Eng.bind, hwrite]
  rfl

end

/-! ### The table of FINGERPRINT_ALL -/

/-- The records of a table, split after the first `n`. -/
theorem records_add (c : Config) (sk : List Byte) (raw : Bool) (n m k : Nat) :
    records c sk raw (n + m) k = records c sk raw n k ++ records c sk raw m (k + n) := by
  induction n generalizing k with
  | zero => rw [Nat.zero_add]; rfl
  | succ n ih =>
    rw [Nat.succ_add, records, records, ih, List.append_assoc, Nat.succ_add_eq_add_succ]

/-- Bytes stored among others are what memory holds at their place. -/
theorem readRun_of_stored_append {m m' : Memory} {a : Nat} {before bs after : List Byte}
    (h : Stored m m' a (before ++ (bs ++ after))) : m'.readRun (a + before.length) bs.length = bs := by
  have hread := readRun_of_stored h
  rw [List.length_append, Memory.readRun_add, List.length_append, Memory.readRun_add] at hread
  have hrest := List.append_inj_right hread (Memory.length_readRun ..)
  exact List.append_inj_left hrest (Memory.length_readRun ..)

/-- Record `k` of a stored table stands at its place in it (30_encoding.md R71). -/
theorem readRun_of_stored_records {m m' : Memory} {a n k : Nat} {c : Config} {sk : List Byte} {raw : Bool}
    (h : Stored m m' a (records c sk raw n 0)) (hk : k < n) :
    m'.readRun (a + fingerprintWidth raw * k) (fingerprintWidth raw) = fpOut (fingerprint sk (c.name k)) raw := by
  obtain ⟨after, rfl⟩ : ∃ after, n = k + (after + 1) := ⟨n - k - 1, by omega⟩
  rw [records_add, Nat.zero_add, records] at h
  have hread := readRun_of_stored_append h
  rwa [length_records, length_fpOut_fingerprint] at hread

/-! ### The results -/

/-- Settles O36: the run writes the fingerprint of the name it reads. -/
theorem fingerprintResult : Obligations.FingerprintResult := by
  intro s raw hfresh hwf hrun hreads hwrites hname
  have hclear : Clear (.fingerprint raw) s := ⟨hfresh, hwf, hrun, hreads, hwrites⟩
  have hlen := length_fpOut_fingerprint s.sk (s.mem.readRun s.latch.srcAddr.toNat s.latch.srcLen.toNat) raw
  have hexec := exec_of_run_wrote hclear (by rw [hlen]; rfl) (by rw [hlen]; exact run_fingerprint_quiet hclear hname)
  rwa [hlen] at hexec

/-- Settles O37: the run writes the fingerprint of the catalogue entry. -/
theorem fingerprintCatResult : Obligations.FingerprintCatResult := by
  intro s k raw hfresh hwf hrun hwrites
  have hclear : Clear (.fingerprintCat k raw) s :=
    ⟨hfresh, hwf, hrun, fun _ hr => absurd hr List.not_mem_nil, hwrites⟩
  have hlen := length_fpOut_fingerprint s.sk (s.cfg.name k) raw
  have hexec := exec_of_run_wrote hclear (by rw [hlen]; rfl) (by rw [hlen]; exact run_fingerprintCat_quiet hclear)
  rwa [hlen] at hexec

/-- Settles O38: the run writes the table; each record is read off its place in it. -/
theorem fingerprintAllResult : Obligations.FingerprintAllResult := by
  intro s raw hfresh hwf hrun hwrites
  have hclear : Clear (.fingerprintAll raw) s :=
    ⟨hfresh, hwf, hrun, fun _ hr => absurd hr List.not_mem_nil, hwrites⟩
  have hlen : (records s.cfg s.sk raw 12 0).length = 12 * fingerprintWidth raw := by
    rw [length_records, Nat.mul_comm]
  obtain ⟨t, hexec, hdone, hkept, hstored⟩ :=
    exec_of_run_wrote hclear (by rw [hlen]; rfl) (by rw [hlen]; exact run_fingerprintAll_quiet hclear)
  rw [hlen] at hdone
  refine ⟨t, hexec, hdone, hkept, fun k hk => readRun_of_stored_records hstored hk, fun a ha => ?outside⟩
  case outside => rw [hstored, hlen]; exact if_neg ha

/-- Settles O39: the run writes the entry's bytes. -/
theorem catalogueNameResult : Obligations.CatalogueNameResult := fun _ _ hfresh hwf hrun hwrites =>
  have hclear := ⟨hfresh, hwf, hrun, fun _ hr => absurd hr List.not_mem_nil, hwrites⟩
  exec_of_run_wrote hclear rfl (run_catalogueName_quiet hclear)

end Sys2Proof.Machine
end

section
/-! PROOFS. How steps end (60_exceptions.md R129, R140 to R143, R149): an idle core, an illegal word, and the completion
that every command under a silent host comes to, with what an error leaves of memory. -/

namespace Sys2Proof.Machine

open Safety

/-! ### Idle cores and illegal words -/

theorem step_idle {s : State} (h : s.busy = false) : step s = hostStep s := by
  simp only [step, h, Bool.false_eq_true, if_false]

theorem hostStep_silent {s : State} (h : s.env = []) : hostStep s = .next s := by
  simp only [hostStep, h]

/-- The host's next step is an idle core's step, a reset like any other. -/
theorem hostStep_event {s t : State} {e : Event} {rest : List Event} (h : s.env = e :: rest)
    (hev : hostEvent e { s with env := rest } = .ready t ∨ hostEvent e { s with env := rest } = .aborted t) :
    hostStep s = .next t := by
  rcases hev with hev | hev
  · simp only [hostStep, h, hev]
  · simp only [hostStep, h, hev]

/-- Settles O7. -/
theorem idleCoreIsStill : Obligations.IdleCoreIsStill := by
  intro s hidle
  rw [step_idle hidle]
  exact ⟨hostStep_silent, fun _ _ henv => ⟨fun _ hev => hostStep_event henv (.inl hev),
    fun _ hev => hostStep_event henv (.inr hev)⟩⟩

theorem step_illegal {s : State} (hb : s.busy = true) (h : ∀ i, decode s.latch.cmd ≠ .ok i) :
    step s = runIllegal s := by
  cases hd : decode s.latch.cmd with
  | ok i => exact absurd hd (h i)
  | error _ => simp only [step, hb, if_true, hd]

/-- Settles O6: ILLEGAL is raised before any access, so that its scrub has nothing to undo. -/
theorem illegalWordCompletes : Obligations.IllegalWordCompletes := by
  intro s hfresh hbusy hillegal
  rw [step_illegal hbusy hillegal]
  exact conclude_raised_clean .illegal 0 hfresh (by decide)

/-! ### The run of a command under a silent host -/

/-- `t` is a point of a silent run of a command accepted in `s`: `p` bytes have been written from L.DST_ADDR on, and
they lie in the address space. -/
structure Silent (s : State) (p : Nat) (t : State) : Prop where
  range : s.latch.dstAddr.toNat + p ≤ addressSpace
  wrote : ∃ bs, bs.length = p ∧ Wrote s t s.latch.dstAddr.toNat bs

/-- `t` is where a silent run from `s` stands after a success: `s` but for a running command's own state, with
LOAD_SKEY's store made or not. -/
def Finishing (s t : State) : Prop := ∃ u, u.rest = s.rest ∧ (t = u ∨ ∃ bs, t = u.storeKey bs)

theorem Finishing.env {s t : State} (h : Finishing s t) (henv : s.env = []) : t.env = [] := by
  obtain ⟨u, hrest, rfl | ⟨bs, rfl⟩⟩ := h
  · exact (State.env_of_rest hrest).trans henv
  · exact (State.env_of_rest hrest).trans henv

theorem Silent.start (s : State) : Silent s 0 s where
  range := s.latch.dstAddr.isLt.le
  wrote := ⟨[], rfl, Wrote.refl s _⟩

theorem Silent.rest {s t : State} {p : Nat} (h : Silent s p t) : t.rest = s.rest := by
  obtain ⟨_, -, hwrote⟩ := h.wrote
  exact hwrote.rest

/-- What does not show in the written bytes does not matter to a silent run. -/
theorem Silent.congr {s t u : State} {p : Nat} (h : Silent s p t) (hrest : u.rest = t.rest) (hmem : u.mem = t.mem)
    (hwritten : u.work.written = t.work.written) : Silent s p u where
  range := h.range
  wrote := by
    obtain ⟨bs, hlen, hwrote⟩ := h.wrote
    exact ⟨bs, hlen, hrest.trans hwrote.rest, hmem.trans hwrote.mem, hwritten.trans hwrote.written⟩

theorem wrote_engineWrite (s : State) (a : Nat) (v : Byte) : Wrote s (s.engineWrite a v) a [v] := ⟨rfl, rfl, rfl⟩

theorem Silent.write {s t : State} {p : Nat} (h : Silent s p t) (v : Byte)
    (hrange : s.latch.dstAddr.toNat + (p + 1) ≤ addressSpace) :
    Silent s (p + 1) (t.engineWrite (s.latch.dstAddr.toNat + p) v) where
  range := hrange
  wrote := by
    obtain ⟨bs, rfl, hwrote⟩ := h.wrote
    exact ⟨bs ++ [v], List.length_append, hwrote.trans (wrote_engineWrite t _ v)⟩

/-- With nothing scheduled a run writes the output extent from its start on, and nothing else. -/
theorem steady_silent {i : Instr} {s : State} {F : Refusal → Prop} (henv : s.env = [])
    (hF : ∀ r ∈ inputs i s ++ [outExtent i s], s.cfg.reachesDevice r.addr r.len = true →
      F (.notPlainMemory r.addr r.len)) :
    Steady i s (fun p _ => Silent s p) (fun _ _ => Finishing s) (fun _ => False) F where
  latch _ _ _ h := State.latch_of_rest h.rest
  cfg _ _ _ h := State.cfg_of_rest h.rest
  turn _ _ _ h _ := by
    rw [engineTurn_quiet ((State.env_of_rest h.rest).trans henv)]
    exact h
  work _ _ _ _ h hw := h.congr rfl rfl hw
  write _ _ _ v h hp hrange _ _ := h.write v (by omega)
  extent _ h _ := h.congr rfl rfl rfl
  device := hF
  store _ _ t bs _ _ _ _ _ h := ⟨t, h.rest, .inr ⟨bs, rfl⟩⟩
  other _ _ t _ h := ⟨t, h.rest, .inl rfl⟩

/-- What a silent run comes to (R140): a success with nothing but the key store changed outside the command's own state,
or an error after some bytes of the output extent. -/
theorem run_silent {i : Instr} {s : State} {F : Refusal → Prop} (henv : s.env = [])
    (hF : ∀ r ∈ inputs i s ++ [outExtent i s], s.cfg.reachesDevice r.addr r.len = true →
      F (.notPlainMemory r.addr r.len)) :
    (run i s).Sat (fun n t => n < 2 ^ 32 ∧ Finishing s t)
      (fun e ea t => e ≠ .ok ∧ ea < 2 ^ 32 ∧ ∃ p, p ≤ outSize i s ∧ Silent s p t) (fun _ => False) F := by
  have hsat := run_sat (steady_silent henv hF) (Silent.start s)
  cases hx : run i s with
  | ok n t =>
    rw [hx] at hsat
    obtain ⟨-, hn, _, -, hfin⟩ := hsat
    exact ⟨hn, hfin⟩
  | raised e ea t =>
    rw [hx] at hsat
    obtain ⟨he, hea, p, _, hp, -, hsilent⟩ := hsat
    exact ⟨he, hea, p, hp, hsilent⟩
  | aborted t => rw [hx] at hsat; exact hsat
  | refused r => rw [hx] at hsat; exact hsat
  | faulted f => rw [hx] at hsat; exact hsat

/-! ### Completions -/

/-- `t` is `s` after one completion, success or error (R140). -/
def Completed (s t : State) : Prop :=
  ∃ e n ea, Completes s t e n ea ∧ (e ≠ .ok → n = 0 ∧ KeyKept s t) ∧ (e ≠ .bus → ea = 0)

theorem completed_success {s t : State} {n : Nat} (henv : s.env = []) (h : Finishing s t) (hn : n < 2 ^ 32) :
    Completed s (t.finish .ok n 0) := by
  obtain ⟨u, hrest, ht⟩ := h
  have hdone := completes_finish .ok (ea := 0) hrest hn (by decide) henv
  refine ⟨.ok, n, 0, ?_, fun hne => absurd rfl hne, fun _ => rfl⟩
  rcases ht with rfl | ⟨bs, rfl⟩
  · exact hdone
  · exact completes_storeKey bs hdone

/-- An error leaves what was written to its scrub, and everything else to its completion step. -/
theorem completed_error {s t u : State} {e : ErrCode} {ea : Nat} (henv : s.env = []) (hrest : t.rest = s.rest)
    (hea : ea < 2 ^ 32) (hu : conclude (.raised e ea t) = .next u) : Completed s u := by
  rw [conclude_raised_quiet e ea ((State.env_of_rest hrest).trans henv)] at hu
  cases hu
  exact ⟨e, 0, _, completes_finish e hrest (by decide) (by split <;> omega) henv,
    fun _ => ⟨rfl, keyKept_finish e 0 _ hrest⟩, fun hne => if_neg hne⟩

/-- A command under a silent host completes, or is refused for a region that is not plain memory. -/
theorem exec_silent {i : Instr} {s : State} {F : Refusal → Prop} (henv : s.env = [])
    (hF : ∀ r ∈ inputs i s ++ [outExtent i s], s.cfg.reachesDevice r.addr r.len = true →
      F (.notPlainMemory r.addr r.len)) :
    OutcomeSat (exec i s) (Completed s) F := by
  rw [exec_eq_conclude]
  refine conclude_sat (run_silent henv hF) (fun n t ht => ?_) (fun e ea t ht => ?_) fun _ hf => hf.elim
  · obtain ⟨hn, hfin⟩ := ht
    have hend : completion .ok n 0 t = .next (t.finish .ok n 0) := conclude_ok_quiet n (hfin.env henv)
    rw [hend]
    exact completed_success henv hfin hn
  · obtain ⟨-, hea, p, -, hsilent⟩ := ht
    have hend := conclude_raised_quiet e ea ((State.env_of_rest hsilent.rest).trans henv)
    have hdone := completed_error henv hsilent.rest hea hend
    rw [conclude] at hend
    rw [hend]
    exact hdone

/-- Settles O23: in plain memory `exec_silent` leaves no refusal. -/
theorem everyCommandCompletes : Obligations.EveryCommandCompletes := by
  intro i s hfresh hplain
  obtain ⟨henv, -⟩ := hfresh
  have hsat := exec_silent (F := fun _ => False) henv fun r hr hdev => by
    rw [reachesDevice_eq_false (hplain r hr)] at hdev
    cases hdev
  cases hx : exec i s with
  | next t =>
    rw [hx] at hsat
    obtain ⟨e, n, ea, hdone, herr, hbus⟩ := hsat
    exact ⟨t, e, n, ea, rfl, hdone, herr, hbus⟩
  | refused r => rw [hx] at hsat; exact hsat.elim
  | fault f => rw [hx] at hsat; exact hsat.elim

/-- The command that `exec` takes to `t` has completed there. -/
theorem completed_of_exec {i : Instr} {s t : State} (hfresh : Fresh s) (h : exec i s = .next t) : Completed s t :=
  (exec_silent (F := fun _ => True) hfresh.1 fun _ _ _ => trivial).of_next h

/-- Settles O13: a completion sets DONE_IP and keeps DONE_IE; a write of IRQ_STAT or IRQ_EN changes its own bit of the
two. -/
theorem interruptLine : Obligations.InterruptLine := by
  refine ⟨fun i s t hfresh hexec => ?completion, fun s t v => ⟨fun hev hbit => ?clear, fun hev => ?enable⟩⟩
  case completion =>
    obtain ⟨e, n, ea, hdone, -, -⟩ := completed_of_exec hfresh hexec
    refine ⟨hdone.doneIp, ?_⟩
    rw [State.irq, hdone.doneIp, Bool.and_true, State.doneIe, hdone.irqEn, State.doneIe]
  case clear =>
    rw [hostEvent_mmioWrite s v (by decide) (by decide), writeOffset_irqStat] at hev
    cases hev
    have hip : (if v.getLsbD 0 then setBit s.irqStat 0 false else s.irqStat).getLsbD 0 = false := by
      rw [getLsbD_clearIf _ 0 0 _ (by decide), if_pos rfl, hbit, Bool.not_true, Bool.and_false]
    rw [State.irq, State.doneIp, hip, Bool.and_false]
  case enable =>
    rw [hostEvent_mmioWrite s v (by decide) (by decide)] at hev
    cases hev
    have hie : (v &&& 1).getLsbD 0 = v.getLsbD 0 := by simp
    show ((v &&& 1).getLsbD 0 && s.doneIp) = _
    rw [hie]

/-- Bytes of 0x00 stored from `a` on, byte by byte. -/
theorem read_of_stored_zeros {m m' : Memory} {a n : Nat} (h : Stored m m' a (List.replicate n 0)) (b : Nat) :
    m'.read b = if a ≤ b ∧ b < a + n then 0 else m.read b := by
  rw [h b, List.length_replicate, List.getD_eq_getElem?_getD, List.getElem?_getD_replicate_default_eq]

/-- Settles O24: a silent run that raises an error has written the first bytes of its output extent, and the scrub
zeroes them. -/
theorem errorLeavesNoOutput : Obligations.ErrorLeavesNoOutput := by
  intro i s t hfresh hwf hexec hresult
  have hsat := run_silent (i := i) (F := fun _ => True) hfresh.1 fun _ _ _ => trivial
  rw [exec_eq_conclude] at hexec
  cases hx : run i s with
  | ok n u =>
    rw [hx] at hsat hexec
    obtain ⟨-, hfin⟩ := hsat
    rw [conclude_ok_quiet n (hfin.env hfresh.1)] at hexec
    cases hexec
    exact absurd rfl hresult
  | raised e ea u =>
    rw [hx] at hsat hexec
    obtain ⟨-, hea, p, hp, hsilent⟩ := hsat
    obtain ⟨bs, rfl, hwrote⟩ := hsilent.wrote
    obtain ⟨v, hv, hdone, hkept, hstored⟩ := conclude_raised_wrote hfresh hwf hwrote hea hsilent.range
    rw [hv] at hexec
    cases hexec
    exact ⟨BitVec.eq_of_toNat_eq hdone.outLen, hkept, bs.length, hp, read_of_stored_zeros hstored⟩
  | aborted u => rw [hx] at hsat; exact hsat.elim
  | refused r => rw [hx] at hexec; cases hexec
  | faulted f => rw [hx] at hsat; exact hsat.elim

end Sys2Proof.Machine
end

section
/-! PROOFS. The errors found before a command's first access (60_exceptions.md R127, R130 to R134, R136, R138, R139):
each check in its place in the run, with nothing accessed before it. -/

namespace Sys2Proof.Machine

open Safety

/-! ### Runs that raise an error -/

/-- The run of command `i` from `s` raises `e`, with `ea` for its address, when it has written `n` bytes from L.DST_ADDR
on. -/
def RunRaises (i : Instr) (s : State) (e : ErrCode) (ea n : Nat) : Prop :=
  ∃ t bs, run i s = .raised e ea t ∧ bs.length = n ∧ Wrote s t s.latch.dstAddr.toNat bs

/-- A check that fails before the command has changed anything. -/
theorem RunRaises.of_check {i : Instr} {s : State} {e : ErrCode} {ea : Nat} (h : run i s = .raised e ea s) :
    RunRaises i s e ea 0 := ⟨s, [], h, rfl, Wrote.refl s _⟩

section
variable {i : Instr} {s : State} {e : ErrCode} {ea n : Nat}

/-- Only BUS records an address (R140), so that an address given with BUS alone is recorded as it is. -/
theorem recordedAddr_eq (h : e ≠ .bus → ea = 0) : (if e = .bus then ea else 0) = ea :=
  ite_eq_left_iff.mpr fun he => (h he).symm

/-- An error raised with no byte written leaves memory as it was. -/
theorem RunRaises.errs (h : RunRaises i s e ea 0) (hf : Fresh s) (hea : ea < 2 ^ 32) (hbus : e ≠ .bus → ea = 0) :
    ∃ t, exec i s = .next t ∧ Errs s t e ea := by
  obtain ⟨t, bs, hrun, hlen, hwrote⟩ := h
  obtain rfl := List.eq_nil_of_length_eq_zero hlen
  have hexec := exec_eq_conclude i s
  rw [hrun, conclude_raised_quiet e ea ((State.env_of_rest hwrote.rest).trans hf.1),
    recordedAddr_eq hbus] at hexec
  have hwritten : t.work.written = [] := by rw [hwrote.written, hf.2]; rfl
  refine ⟨_, hexec, completes_finish e hwrote.rest (by decide) hea hf.1, keyKept_finish e 0 ea hwrote.rest, fun a => ?_⟩
  rw [State.finish_mem, hwritten]
  exact congrArg (Memory.read · a) hwrote.mem

/-- An error that is not BUS has no address. -/
theorem RunRaises.errs_zero (h : RunRaises i s e 0 0) (hf : Fresh s) : ∃ t, exec i s = .next t ∧ Errs s t e 0 :=
  h.errs hf (by decide) fun _ => rfl

/-- An error raised after `n` bytes of the output leaves 0x00 in them. -/
theorem RunRaises.scrubs (h : RunRaises i s e ea n) (hf : Fresh s) (hwf : s.mem.wf = true) (hea : ea < 2 ^ 32)
    (hbus : e ≠ .bus → ea = 0) (hrange : s.latch.dstAddr.toNat + n ≤ addressSpace) :
    ∃ t, exec i s = .next t ∧ Completes s t e 0 ea ∧ KeyKept s t
      ∧ Stored s.mem t.mem s.latch.dstAddr.toNat (List.replicate n 0) := by
  obtain ⟨t, bs, hrun, rfl, hwrote⟩ := h
  have hend := conclude_raised_wrote (e := e) hf hwf hwrote hea hrange
  rwa [← hrun, ← exec_eq_conclude, recordedAddr_eq hbus] at hend

end

/-! ### The prologue -/

/-- Every run begins with its prologue (R137). -/
theorem run_eq_prologue_bind (i : Instr) (s : State) : ∃ k, run i s = (prologue i s).bind k := by
  cases i
  case encryptRaw => simp only [run, runEncryptRaw]; exact ⟨_, rfl⟩
  case decryptRaw => simp only [run, runDecryptRaw]; exact ⟨_, rfl⟩
  all_goals exact ⟨_, rfl⟩

theorem runRaises_of_prologue {i : Instr} {s : State} {e : ErrCode} (h : prologue i s = .raised e 0 s) :
    RunRaises i s e 0 0 := by
  obtain ⟨k, hrun⟩ := run_eq_prologue_bind i s
  exact .of_check (by rw [hrun, h]; rfl)

section
variable {i : Instr} {s : State}

/-- CAT_INDEX comes before every check of the static key (R139). -/
theorem prologue_catIndex (hop : i.opcode = 0x08 ∨ i.opcode = 0x0A) (harg : 12 ≤ i.arg) :
    prologue i s = .raised .catIndex 0 s := by
  have hindex : ((i.opcode == 0x08 || i.opcode == 0x0A) && decide (catCount ≤ i.arg)) = true := by
    simpa [catCount, harg] using hop
  rw [prologue, if_pos hindex]

/-- With the index in range a command that uses the static key needs it loaded (R130). -/
theorem prologue_skeyNotLoaded (huses : usesStaticKey i.opcode = true) (harg : i.arg < 12) (hv : s.skeyValid = false) :
    prologue i s = .raised .skeyNotLoaded 0 s := by
  simp [prologue, catCount, Nat.not_le.mpr harg, hv, huses]

/-- With the index in range and SKEY_VALID as the command needs it, the prologue passes. -/
theorem prologue_ok (harg : i.arg < 12) (hload : i.opcode = 0x01 → s.skeyValid = false)
    (hkey : usesStaticKey i.opcode = true → s.skeyValid = true) : prologue i s = .ok () s := by
  have hlock : (i.opcode == 0x01 && s.skeyValid) = false := by simpa using hload
  have hmiss : (usesStaticKey i.opcode && !s.skeyValid) = false := by simpa using hkey
  simp [prologue, catCount, Nat.not_le.mpr harg, hlock, hmiss]

end

/-- Settles O42. -/
theorem catIndexError : Obligations.CatIndexError := fun _ k raw hfresh hk =>
  ⟨(runRaises_of_prologue (prologue_catIndex (i := .fingerprintCat k raw) (.inl rfl) hk)).errs_zero hfresh,
    (runRaises_of_prologue (prologue_catIndex (i := .catalogueName k) (.inr rfl) hk)).errs_zero hfresh⟩

/-- Settles O43: each command of the list uses the static key and has an index in range, or none. -/
theorem skeyNotLoadedError : Obligations.SkeyNotLoadedError := by
  intro s k raw hfresh hv hk i hi
  have hcheck : usesStaticKey i.opcode = true ∧ i.arg < 12 := by
    simp only [List.mem_cons, List.not_mem_nil, or_false] at hi
    rcases hi with rfl | rfl | rfl | rfl | rfl | rfl
    case inr.inr.inr.inr.inl => exact ⟨rfl, hk⟩
    all_goals exact ⟨rfl, Nat.zero_lt_succ 11⟩
  obtain ⟨huses, harg⟩ := hcheck
  exact (runRaises_of_prologue (prologue_skeyNotLoaded huses harg hv)).errs_zero hfresh

/-! ### Lengths -/

theorem raiseIf_true {c : Bool} (h : c = true) (e : ErrCode) (s : State) : raiseIf c e s = .raised e 0 s := if_pos h

theorem raiseIf_false {c : Bool} (h : c = false) (e : ErrCode) (s : State) : raiseIf c e s = .ok () s := by
  rw [h]; rfl

section
variable {s : State}

theorem run_loadSkey_empty (hv : s.skeyValid = false) (h0 : s.latch.srcLen = 0) :
    run .loadSkey s = .raised .skeyEmpty 0 s := by
  have hpro : prologue .loadSkey s = .ok () s := prologue_ok (by decide) (fun _ => hv) nofun
  have hempty : (s.latch.srcLen == 0) = true := by simpa using h0
  simp only [run, runLoadSkey, hpro, Eng.bind, raiseIf_true hempty]

theorem run_loadSkey_long (hv : s.skeyValid = false) (h0 : s.latch.srcLen ≠ 0)
    (hmax : s.cfg.skeyMax < s.latch.srcLen.toNat) : run .loadSkey s = .raised .length 0 s := by
  have hpro : prologue .loadSkey s = .ok () s := prologue_ok (by decide) (fun _ => hv) nofun
  simp only [run, runLoadSkey, hpro, Eng.bind, raiseIf_false (beq_false_of_ne h0), raiseIf_true (decide_eq_true hmax)]

theorem badCiphertextLength_eq_true {l : Word} (h : l.toNat = 0 ∨ l.toNat % 16 ≠ 0) : badCiphertextLength l = true := by
  rcases h with h0 | h16
  · have hl : l = 0 := BitVec.eq_of_toNat_eq h0
    simp [badCiphertextLength, hl]
  · simp [badCiphertextLength, h16]

theorem auxLen_bne_eq_true (h : s.latch.auxLen.toNat ≠ 48) : (s.latch.auxLen.toNat != recordLength) = true :=
  bne_iff_ne.mpr h

theorem prologue_raw : prologue .encryptRaw s = .ok () s ∧ prologue .decryptRaw s = .ok () s :=
  ⟨prologue_ok (by decide) nofun nofun, prologue_ok (by decide) nofun nofun⟩

theorem run_decryptIndex_length (hv : s.skeyValid = true)
    (h : s.latch.srcLen.toNat = 0 ∨ s.latch.srcLen.toNat % 16 ≠ 0) :
    run .decryptIndex s = .raised .padding 0 s := by
  have hpro : prologue .decryptIndex s = .ok () s := prologue_ok (by decide) nofun fun _ => hv
  simp only [run, runDecryptIndex, hpro, Eng.bind, raiseIf_true (badCiphertextLength_eq_true h)]

theorem run_decryptRaw_length (h : s.latch.srcLen.toNat = 0 ∨ s.latch.srcLen.toNat % 16 ≠ 0) :
    run .decryptRaw s = .raised .padding 0 s := by
  simp only [run, runDecryptRaw, prologue_raw, Eng.bind, raiseIf_true (badCiphertextLength_eq_true h)]

theorem run_encryptRaw_record (h : s.latch.auxLen.toNat ≠ 48) : run .encryptRaw s = .raised .length 0 s := by
  simp only [run, runEncryptRaw, prologue_raw, Eng.bind, raiseIf_true (auxLen_bne_eq_true h)]

theorem run_decryptRaw_record (h : s.latch.auxLen.toNat ≠ 48) (h0 : s.latch.srcLen.toNat ≠ 0)
    (h16 : s.latch.srcLen.toNat % 16 = 0) : run .decryptRaw s = .raised .length 0 s := by
  simp only [run, runDecryptRaw, prologue_raw, Eng.bind, raiseIf_false (badCiphertextLength_eq_false h0 h16),
    raiseIf_true (auxLen_bne_eq_true h)]

end

/-- Settles O44: the prologue, then the two length checks of LOAD_SKEY. -/
theorem loadSkeyErrors : Obligations.LoadSkeyErrors := by
  intro s hfresh
  refine ⟨fun hv => ?locked, fun hv h0 => ?empty, fun hv h0 hmax => ?long⟩
  case locked =>
    rw [exec_loadSkey_locked hv]
    exact conclude_raised_clean .skeyLocked 0 hfresh (by decide)
  case empty => exact (RunRaises.of_check (run_loadSkey_empty hv h0)).errs_zero hfresh
  case long => exact (RunRaises.of_check (run_loadSkey_long hv h0 hmax)).errs_zero hfresh

/-- Settles O45: the ciphertext length is checked before the record length (R139). -/
theorem cipherLengthErrors : Obligations.CipherLengthErrors := fun _ hfresh =>
  ⟨fun hlen => ⟨fun hv => (RunRaises.of_check (run_decryptIndex_length hv hlen)).errs_zero hfresh,
      (RunRaises.of_check (run_decryptRaw_length hlen)).errs_zero hfresh⟩,
    fun hrec => ⟨(RunRaises.of_check (run_encryptRaw_record hrec)).errs_zero hfresh,
      fun h0 h16 => (RunRaises.of_check (run_decryptRaw_record hrec h0 h16)).errs_zero hfresh⟩⟩

/-! ### The region checks -/

/-- What command `i` does once its checks have passed (40_key_store.md R73, 41_index_decoder.md R79, 43_cbc_commands.md
R101 to R104, 45_fingerprint.md R119 to R122). -/
def body (i : Instr) (s : State) : Eng Nat :=
  match i with
  | .loadSkey =>
    (memRead s.latch.srcAddr.toNat s.latch.srcLen.toNat s).bind fun bs s => .ok 0 (s.storeKey bs)
  | .decodeIndex =>
    (readIndex s).bind fun keyIv s =>
    (memWrite s.latch.dstAddr.toNat (keyIv.1 ++ keyIv.2) s).bind fun _ s => .ok recordLength s
  | .encryptIndex => (keyFromIndex s).bind fun _ s => encStream s
  | .decryptIndex => (keyFromIndex s).bind fun _ s => decStream s
  | .encryptRaw => (keyFromRecord s).bind fun _ s => encStream s
  | .decryptRaw => (keyFromRecord s).bind fun _ s => decStream s
  | .fingerprint raw =>
    (memRead s.latch.srcAddr.toNat s.latch.srcLen.toNat s).bind fun name s =>
    (raiseIf (!wellFormedUtf8 name) .utf8 s).bind fun _ s =>
    (writeFingerprint name raw s.latch.dstAddr.toNat s).bind fun _ s => .ok (fingerprintWidth raw) s
  | .fingerprintCat k raw =>
    (writeFingerprint (s.cfg.name k) raw s.latch.dstAddr.toNat s).bind fun _ s => .ok (fingerprintWidth raw) s
  | .fingerprintAll raw =>
    (writeRecords raw catCount 0 s).bind fun _ s => .ok (catCount * fingerprintWidth raw) s
  | .catalogueName k =>
    (memWrite s.latch.dstAddr.toNat (s.cfg.name k) s).bind fun _ s => .ok (s.cfg.name k).length s

/-- An admitted command is its region check, then its body. -/
theorem run_admitted {i : Instr} {s : State} (h : Admitted i s) :
    run i s = (checkRegions (inputs i s) (outMax i s) s).bind fun _ t => body i t := by
  have hpro := prologue_admitted h
  cases i with
  | loadSkey =>
    obtain ⟨-, hnonempty, hmax⟩ := h
    have hempty : (s.latch.srcLen == 0) = false := beq_false_of_ne fun h0 => hnonempty (by rw [h0]; rfl)
    simp only [run, runLoadSkey, hpro, Eng.bind, raiseIf_false hempty,
      raiseIf_false (decide_eq_false (Nat.not_lt.mpr hmax))]
    rfl
  | decryptIndex =>
    obtain ⟨-, h0, h16⟩ := h
    simp only [run, runDecryptIndex, hpro, Eng.bind, raiseIf_false (badCiphertextLength_eq_false h0 h16)]
    rfl
  | encryptRaw =>
    have hrec : (s.latch.auxLen.toNat != recordLength) = false := bne_eq_false_iff_eq.mpr h
    simp only [run, runEncryptRaw, hpro, Eng.bind, raiseIf_false hrec]
    rfl
  | decryptRaw =>
    obtain ⟨h0, h16, hlen⟩ := h
    have hrec : (s.latch.auxLen.toNat != recordLength) = false := bne_eq_false_iff_eq.mpr hlen
    simp only [run, runDecryptRaw, hpro, Eng.bind, raiseIf_false (badCiphertextLength_eq_false h0 h16),
      raiseIf_false hrec]
    rfl
  | decodeIndex => simp only [run, runDecodeIndex, hpro]; rfl
  | encryptIndex => simp only [run, runEncryptIndex, hpro]; rfl
  | fingerprint raw => simp only [run, runFingerprint, hpro]; rfl
  | fingerprintCat k raw => simp only [run, runFingerprintCat, hpro]; rfl
  | fingerprintAll raw => simp only [run, runFingerprintAll, hpro]; rfl
  | catalogueName k => simp only [run, runCatalogueName, hpro]; rfl

theorem runRaises_of_checkRegions {i : Instr} {s : State} {e : ErrCode} (h : Admitted i s)
    (hc : checkRegions (inputs i s) (outMax i s) s = .raised e 0 s) : RunRaises i s e 0 0 :=
  .of_check (by rw [run_admitted h, hc]; rfl)

/-- Settles O46: the three checks of CheckRegions, in its order (R138). -/
theorem regionErrors : Obligations.RegionErrors := by
  intro i s hfresh hadm
  refine ⟨fun hin => ?input, fun hin hfit => ?output, fun hin hfit hov => ?overlap⟩
  case input =>
    simp only [InputsInRange, not_forall, Nat.not_le] at hin
    obtain ⟨r, hr, hwraps⟩ := hin
    exact (runRaises_of_checkRegions hadm (checkRegions_inputRange _ ⟨r, hr, hwraps⟩)).errs_zero hfresh
  case output =>
    simp only [OutputFits, not_forall] at hfit
    obtain ⟨n, hn, hfit⟩ := hfit
    have hc := checkRegions_outputRange (s := s) (n := n) hin (by omega)
    rw [← hn] at hc
    exact (runRaises_of_checkRegions hadm hc).errs_zero hfresh
  case overlap =>
    simp only [NoOverlap, not_forall, not_not] at hov
    obtain ⟨n, hn, r, hr, hshare⟩ := hov
    have hc := checkRegions_overlap hin (hfit n hn) ⟨r, hr, hshare⟩
    rw [← hn] at hc
    exact (runRaises_of_checkRegions hadm hc).errs_zero hfresh

end Sys2Proof.Machine
end

section
/-! PROOFS. The errors found in the input data and on the bus (60_exceptions.md R125 to R128, R135, R141): where each
one leaves the command, under a silent host. -/

namespace Sys2Proof.Machine

open Safety

/-! ### Past the checks -/

/-- A command that passes its checks runs its body, with the extent noted. -/
theorem run_runnable {i : Instr} {s : State} (h : Runnable i s) : ∃ n, run i s = body i { s with extent := n } := by
  rw [run_admitted h.admitted]
  cases hn : outMax i s with
  | none =>
    refine ⟨s.extent, ?_⟩
    rw [checkRegions_noOutput h.inputsInRange fun r hr => h.plain r (List.mem_append_left _ hr)]
    rfl
  | some n => exact ⟨n, by rw [checkRegions_runnable h hn]; rfl⟩

section
variable {i : Instr} {s : State} {e : ErrCode} {ea n : Nat}

/-- An error of the body is one of the run. -/
theorem RunRaises.of_body (h : Runnable i s)
    (hbody : ∀ m, ∃ t bs, body i { s with extent := m } = .raised e ea t ∧ bs.length = n
      ∧ Wrote { s with extent := m } t s.latch.dstAddr.toNat bs) : RunRaises i s e ea n := by
  obtain ⟨m, hrun⟩ := run_runnable h
  obtain ⟨t, bs, hraised, hlen, hwrote⟩ := hbody m
  exact ⟨t, bs, hrun.trans hraised, hlen, hwrote.of_extent⟩

/-- An error of the body that comes before any write. -/
theorem RunRaises.of_body_unwritten (h : Runnable i s)
    (hbody : ∀ m, ∃ t, body i { s with extent := m } = .raised e ea t ∧ t.rest = s.rest ∧ t.mem = s.mem
      ∧ t.work.written = s.work.written) : RunRaises i s e ea 0 :=
  .of_body h fun m =>
    have ⟨t, hraised, hrest, hmem, hwritten⟩ := hbody m
    ⟨t, [], hraised, rfl, hrest, hmem, by rw [hwritten]; exact (List.append_nil _).symm⟩

end

/-! ### The input data -/

/-- Settles O47: the name is read whole, then judged, then hashed and written. -/
theorem utf8Error : Obligations.Utf8Error := by
  intro s raw hfresh hrun hreads hname
  have hsrc : s.latch.src ∈ inputs (.fingerprint raw) s := List.mem_singleton_self _
  refine (RunRaises.of_body_unwritten hrun fun n => ⟨{ s with extent := n }, ?_, rfl, rfl, rfl⟩).errs_zero hfresh
  have hread : memRead s.latch.srcAddr.toNat s.latch.srcLen.toNat { s with extent := n } =
      .ok (s.mem.readRun s.latch.srcAddr.toNat s.latch.srcLen.toNat) { s with extent := n } :=
    memRead_quiet hfresh.1 (hrun.inputsInRange _ hsrc) (hreads _ hsrc)
  simp only [body, hread, Eng.bind, hname, Bool.not_false, raiseIf_true]

section
variable {i : Instr} {s t : State} {e : ErrCode} {ea : Nat}

/-- The three commands that read an index blob read it first. -/
theorem body_of_readIndex_raised (hi : i ∈ [Instr.decodeIndex, .encryptIndex, .decryptIndex])
    (h : readIndex s = .raised e ea t) : body i s = .raised e ea t := by
  simp only [List.mem_cons, List.not_mem_nil, or_false] at hi
  rcases hi with rfl | rfl | rfl
  · simp only [body, h, Eng.bind]
  · simp only [body, keyFromIndex, h, Eng.bind]
  · simp only [body, keyFromIndex, h, Eng.bind]

theorem aux_mem_inputs (hi : i ∈ [Instr.decodeIndex, .encryptIndex, .decryptIndex]) : s.latch.aux ∈ inputs i s := by
  simp only [List.mem_cons, List.not_mem_nil, or_false] at hi
  rcases hi with rfl | rfl | rfl <;> exact List.mem_cons_self

/-- A blob that does not decode ends the three commands that read one, with its error and nothing written. -/
theorem runRaises_of_blob (hi : i ∈ [Instr.decodeIndex, .encryptIndex, .decryptIndex]) (henv : s.env = [])
    (hrun : Runnable i s)
    (hreads : ∀ a, s.latch.auxAddr.toNat ≤ a → a < s.latch.auxAddr.toNat + s.latch.auxLen.toNat →
      s.cfg.busErrAt a .read = false)
    (hblob : decodeIndexBlob s.sk (s.mem.readRun s.latch.auxAddr.toNat s.latch.auxLen.toNat) = .error e) :
    RunRaises i s e 0 0 :=
  .of_body_unwritten hrun fun n =>
    have ⟨t, hread, hrest, hmem, hwritten⟩ := readIndex_quiet_error (s := { s with extent := n }) henv
      (hrun.inputsInRange _ (aux_mem_inputs hi)) hreads hblob
    ⟨t, body_of_readIndex_raised hi hread, hrest, hmem, hwritten⟩

end

/-- FORMAT is the error of a buffer that is too short or declares other lengths (R126). -/
theorem bufferFields_eq_error {buf : List Byte} (h : buf.length < 52 ∨ le16 buf 0 ≠ 16 ∨ le16 buf 2 ≠ 32) :
    bufferFields buf = .error .format :=
  if_neg fun ⟨hlen, hiv, hkey⟩ =>
    h.elim (fun hshort => absurd hlen (Nat.not_le.mpr hshort)) fun hlens => hlens.elim (· hiv) (· hkey)

/-- Settles O48: DecodeIndex is the magic check, then the buffer's fields. -/
theorem indexErrors : Obligations.IndexErrors := by
  rintro i s _ _ hi hfresh hrun hreads rfl rfl
  refine ⟨fun hmagic => ?header, fun hmagic hfields => ?format⟩
  case header =>
    exact (runRaises_of_blob hi hfresh.1 hrun hreads (by rw [decodeIndexBlob_eq]; exact if_neg hmagic)).errs_zero hfresh
  case format =>
    refine (runRaises_of_blob (e := .format) hi hfresh.1 hrun hreads ?_).errs_zero hfresh
    rw [decodeIndexBlob_eq, ← bufferFields_eq_error hfields]
    exact if_pos hmagic

/-! ### The cipher commands once the key is read -/

/-- The commands with a key and an IV are ENCRYPT_* and DECRYPT_*. -/
theorem cipher_of_keys {i : Instr} {s : State} {key iv : List Byte} (h : Keys i s key iv) :
    (i = .encryptIndex ∨ i = .encryptRaw) ∨ (i = .decryptIndex ∨ i = .decryptRaw) := by
  cases i with
  | encryptIndex => exact .inl (.inl rfl)
  | encryptRaw => exact .inl (.inr rfl)
  | decryptIndex => exact .inr (.inl rfl)
  | decryptRaw => exact .inr (.inr rfl)
  | _ => exact h.elim

section
variable {i : Instr} {s t : State} {key iv : List Byte} {e : ErrCode} {ea n m : Nat}

/-- The source region is an input of every cipher command. -/
theorem src_mem_inputs (ha : Admitted i s) (hk : Keys i s key iv) : s.latch.src ∈ inputs i s := by
  simp [inputs_of_keys ha hk]

/-- An error of a keyed stream is one of the run. -/
theorem Keyed.runRaises {x : Eng Nat} (hkeyed : Keyed s t key iv) (hrun : run i s = x)
    (h : ∃ u bs, x = .raised e ea u ∧ bs.length = n ∧ Wrote t u t.latch.dstAddr.toNat bs) : RunRaises i s e ea n := by
  obtain ⟨u, bs, hraised, hlen, hwrote⟩ := h
  rw [State.latch_of_rest hkeyed.rest] at hwrote
  exact ⟨u, bs, hrun.trans hraised, hlen, hkeyed.wrote hwrote⟩

/-- A keyed stream whose first `n` reads and first `m` writes are answered. -/
theorem Keyed.streamOk (hkeyed : Keyed s t key iv) (henv : s.env = []) (hwf : s.mem.wf = true) (hrun : Runnable i s)
    (hk : Keys i s key iv) {size : Nat} (hsize : outMax i s = some size) (hn : n ≤ s.latch.srcLen.toNat) (hm : m ≤ size)
    (hreads : ∀ k, k < n → s.cfg.busErrAt (s.latch.srcAddr.toNat + k) .read = false)
    (hwrites : ∀ k, k < m → s.cfg.busErrAt (s.latch.dstAddr.toNat + k) .write = false) : StreamOk t 0 n m := by
  have hsrc := src_mem_inputs hrun.admitted hk
  have hrange : s.latch.srcAddr.toNat + s.latch.srcLen.toNat ≤ addressSpace := hrun.inputsInRange _ hsrc
  obtain ⟨-, hdst⟩ := hrun.outputFits size hsize
  have hapart : ¬(0 < s.latch.srcLen.toNat ∧ 0 < size ∧ s.latch.srcAddr.toNat < s.latch.dstAddr.toNat + size
      ∧ s.latch.dstAddr.toNat < s.latch.srcAddr.toNat + s.latch.srcLen.toNat) := hrun.noOverlap size hsize _ hsrc
  refine streamOk_of hkeyed.rest hkeyed.mem henv hwf (by omega) (by simp only [addressSpace]; omega) ?_ ?_ (by omega)
  · intro b hlo hhi
    simpa only [Nat.add_sub_cancel' hlo] using hreads (b - s.latch.srcAddr.toNat) (by omega)
  · intro b hlo hhi
    simpa only [Nat.add_sub_cancel' hlo] using hwrites (b - s.latch.dstAddr.toNat) (by omega)

end

/-! ### Invalid padding -/

/-- DECRYPT_* of a ciphertext whose padding is invalid has written every block but the last (R127 (b)). -/
theorem Clear.runRaises_padding {i : Instr} {s : State} {key iv : List Byte}
    (hi : i = .decryptIndex ∨ i = .decryptRaw) (h : Clear i s) (hk : Keys i s key iv)
    (hnone : cbcDecrypt key iv (s.mem.readRun s.latch.srcAddr.toNat s.latch.srcLen.toNat) = none) :
    RunRaises i s .padding 0 (s.latch.srcLen.toNat - 16) := by
  obtain ⟨hne, h16⟩ := srcLen_of_admitted_decrypt hi h.runnable.admitted
  obtain ⟨t, hkeyed, hrun⟩ := run_decrypt_keyed hi h.env h.runnable hk (h.auxReads hk)
  have hlatch : t.latch = s.latch := State.latch_of_rest hkeyed.rest
  have hok := h.streamOk hk hkeyed (outMax_decrypt hi s)
  rw [← hlatch, ← hkeyed.mem] at hnone
  rw [← hlatch] at hne h16 hok ⊢
  exact hkeyed.runRaises hrun (decStream_quiet_padding hne h16 hok hkeyed.key hkeyed.iv hnone)

/-- DECRYPT_* of a ciphertext whose padding is invalid leaves 0x00 in the blocks written. -/
theorem exec_decrypt_padding {i : Instr} {s : State} {key iv : List Byte}
    (hi : i = .decryptIndex ∨ i = .decryptRaw) (h : Clear i s) (hk : Keys i s key iv)
    (hnone : cbcDecrypt key iv (s.mem.readRun s.latch.srcAddr.toNat s.latch.srcLen.toNat) = none) :
    ∃ t, exec i s = .next t ∧ Completes s t .padding 0 0 ∧ KeyKept s t
      ∧ Stored s.mem t.mem s.latch.dstAddr.toNat (List.replicate (s.latch.srcLen.toNat - 16) 0) := by
  obtain ⟨-, hdst⟩ := h.runnable.outputFits _ (outMax_decrypt hi s)
  exact (h.runRaises_padding hi hk hnone).scrubs h.fresh h.memWf (by decide) (fun _ => rfl)
    (by simp only [addressSpace]; omega)

/-- Settles O41: `exec_decrypt_padding` with the blob's key and IV, and with the record's. -/
theorem invalidPaddingIsScrubbed : Obligations.InvalidPaddingIsScrubbed :=
  ⟨fun _ _ _ hfresh hwf hrun hreads hwrites hkeys hnone =>
      exec_decrypt_padding (.inl rfl) ⟨hfresh, hwf, hrun, hreads, hwrites⟩ hkeys hnone,
    fun _ hfresh hwf hrun hreads hwrites hnone =>
      exec_decrypt_padding (.inr rfl) ⟨hfresh, hwf, hrun, hreads, hwrites⟩ ⟨rfl, rfl⟩ hnone⟩

/-! ### Bus errors on reads -/

/-- Every command with an input region reads the first one before anything else. -/
theorem body_of_firstRead_raised {i : Instr} {s t : State} {r : Region} {rest : List Region} {e : ErrCode} {ea : Nat}
    (hin : inputs i s = r :: rest) (h : memRead r.addr r.len s = .raised e ea t) : body i s = .raised e ea t := by
  cases i with
  | fingerprintCat => cases hin
  | fingerprintAll => cases hin
  | catalogueName => cases hin
  | loadSkey => cases hin; simp only [body, h, Eng.bind]
  | fingerprint => cases hin; simp only [body, h, Eng.bind]
  | decodeIndex => cases hin; simp only [body, readIndex, h, Eng.bind]
  | encryptIndex => cases hin; simp only [body, keyFromIndex, readIndex, h, Eng.bind]
  | decryptIndex => cases hin; simp only [body, keyFromIndex, readIndex, h, Eng.bind]
  | encryptRaw => cases hin; simp only [body, keyFromRecord, recordLength, h, Eng.bind]
  | decryptRaw => cases hin; simp only [body, keyFromRecord, recordLength, h, Eng.bind]

/-- A bus error in the first input region ends the run before any write. -/
theorem runRaises_firstRead {i : Instr} {s : State} {r : Region} {rest : List Region} {j : Nat} (henv : s.env = [])
    (hrun : Runnable i s) (hin : inputs i s = r :: rest) (hj : j < r.len)
    (hok : ∀ m, m < j → s.cfg.busErrAt (r.addr + m) .read = false) (hbad : s.cfg.busErrAt (r.addr + j) .read = true) :
    RunRaises i s .bus (r.addr + j) 0 :=
  .of_body_unwritten hrun fun n =>
    ⟨{ s with extent := n },
      body_of_firstRead_raised (s := { s with extent := n }) (by rw [← hin]; cases i <;> rfl)
        (memRead_quiet_bus henv (hrun.inputsInRange r (by simp [hin])) hj hok hbad),
      rfl, rfl, rfl⟩

/-- A bus error in the source region of a cipher command comes when the blocks before it are written (R128). -/
theorem runRaises_sourceRead {i : Instr} {s : State} {key iv : List Byte} {j : Nat} (henv : s.env = [])
    (hwf : s.mem.wf = true) (hrun : Runnable i s) (hk : Keys i s key iv)
    (haux : ∀ a, s.latch.auxAddr.toNat ≤ a → a < s.latch.auxAddr.toNat + s.latch.auxLen.toNat →
      s.cfg.busErrAt a .read = false)
    (hj : j < s.latch.srcLen.toNat) (hok : ∀ m, m < j → s.cfg.busErrAt (s.latch.srcAddr.toNat + m) .read = false)
    (hbad : s.cfg.busErrAt (s.latch.srcAddr.toNat + j) .read = true)
    (hwrites : ∀ m, m < 16 * (j / 16) → s.cfg.busErrAt (s.latch.dstAddr.toNat + m) .write = false) :
    RunRaises i s .bus (s.latch.srcAddr.toNat + j) (16 * (j / 16)) := by
  have hsrc := src_mem_inputs hrun.admitted hk
  have hrange : s.latch.srcAddr.toNat + s.latch.srcLen.toNat ≤ addressSpace := hrun.inputsInRange _ hsrc
  rcases cipher_of_keys hk with hi | hi
  · obtain ⟨t, hkeyed, hrunEq⟩ := run_encrypt_keyed hi henv hrun hk haux
    have hok := hkeyed.streamOk henv hwf hrun hk (outMax_encrypt hi s) hj.le (m := 16 * (j / 16)) (by omega) hok hwrites
    rw [← State.latch_of_rest hkeyed.rest] at hrange hj hbad ⊢
    rw [← State.cfg_of_rest hkeyed.rest] at hbad
    exact hkeyed.runRaises hrunEq (encStream_quiet_busRead hrange hj hok hbad)
  · obtain ⟨-, h16⟩ := srcLen_of_admitted_decrypt hi hrun.admitted
    obtain ⟨t, hkeyed, hrunEq⟩ := run_decrypt_keyed hi henv hrun hk haux
    have hok := hkeyed.streamOk henv hwf hrun hk (outMax_decrypt hi s) hj.le (m := 16 * (j / 16)) (by omega) hok hwrites
    rw [← State.latch_of_rest hkeyed.rest] at hrange hj hbad h16 ⊢
    rw [← State.cfg_of_rest hkeyed.rest] at hbad
    exact hkeyed.runRaises hrunEq (decStream_quiet_busRead h16 hrange hj hok hbad)

/-- Runnable commands write inside the address space. -/
theorem outSize_range {i : Instr} {s : State} (h : Runnable i s) :
    s.latch.dstAddr.toNat + outSize i s ≤ addressSpace := by
  cases hn : outMax i s with
  | none =>
    simp only [outSize, hn, Option.getD_none]
    exact s.latch.dstAddr.isLt.le
  | some n =>
    obtain ⟨-, hdst⟩ := h.outputFits n hn
    simp only [outSize, hn, Option.getD_some]
    exact hdst

/-- Settles O49: the first input region is read before any write, the source of a cipher command between the writes of
its blocks. -/
theorem busErrorOnRead : Obligations.BusErrorOnRead := by
  refine ⟨?first, ?source⟩
  case first =>
    intro i s r rest j hfresh hrun hin hj hok hbad
    have hrange := hrun.inputsInRange r (by simp [hin])
    exact (runRaises_firstRead hfresh.1 hrun hin hj hok hbad).errs hfresh (by omega) fun hne => absurd rfl hne
  case source =>
    intro i s key iv j hfresh hwf hrun hk haux hj hok hbad hwrites
    have hsrc := src_mem_inputs hrun.admitted hk
    have hrange : s.latch.srcAddr.toNat + s.latch.srcLen.toNat ≤ 2 ^ 32 := hrun.inputsInRange _ hsrc
    have hblocks : 16 * (j / 16) ≤ outSize i s := by
      rcases cipher_of_keys hk with hi | hi
      · simp only [outSize, outMax_encrypt hi s, Option.getD_some]
        omega
      · obtain ⟨-, h16⟩ := srcLen_of_admitted_decrypt hi hrun.admitted
        simp only [outSize, outMax_decrypt hi s, Option.getD_some]
        omega
    exact (runRaises_sourceRead hfresh.1 hwf hrun hk haux hj hok hbad hwrites).scrubs hfresh hwf (by omega)
      (fun hne => absurd rfl hne) ((Nat.add_le_add_left hblocks _).trans (outSize_range hrun))

/-! ### Bus errors on writes -/

/-- A command that passes its checks and whose reads are answered, under a silent host, where byte `j` of its output is
the first that gets an error response (20_memory.md R46). -/
structure WriteFails (i : Instr) (s : State) (j : Nat) : Prop where
  env : s.env = []
  memWf : s.mem.wf = true
  runnable : Runnable i s
  reads : ReadsAnswered i s
  before : ∀ m, m < j → s.cfg.busErrAt (s.latch.dstAddr.toNat + m) .write = false
  fault : s.cfg.busErrAt (s.latch.dstAddr.toNat + j) .write = true

section
variable {i : Instr} {s : State} {key iv bs : List Byte} {k j : Nat} {raw : Bool}

/-- `MemWrite` of a command's output stops at its first byte that gets an error response. -/
theorem WriteFails.memWrite_raises {t : State} (h : WriteFails i s j) (hrest : t.rest = s.rest)
    (hrange : s.latch.dstAddr.toNat + bs.length ≤ addressSpace) (hj : j < bs.length) :
    ∃ u cs, memWrite s.latch.dstAddr.toNat bs t = .raised .bus (s.latch.dstAddr.toNat + j) u ∧ cs.length = j
      ∧ Wrote t u s.latch.dstAddr.toNat cs :=
  ⟨_, bs.take j, memWrite_quiet_bus bs ((State.env_of_rest hrest).trans h.env) hrange hj
      (by rw [State.cfg_of_rest hrest]; exact h.before) (by rw [State.cfg_of_rest hrest]; exact h.fault),
    by rw [List.length_take]; omega, rfl, rfl, rfl⟩

theorem WriteFails.runRaises_decodeIndex (h : WriteFails .decodeIndex s j)
    (hblob : decodeIndexBlob s.sk (s.mem.readRun s.latch.auxAddr.toNat s.latch.auxLen.toNat) = .ok (key, iv))
    (hj : j < (key ++ iv).length) : RunRaises .decodeIndex s .bus (s.latch.dstAddr.toNat + j) j := by
  have haux : s.latch.aux ∈ inputs .decodeIndex s := List.mem_singleton_self _
  obtain ⟨-, hrange⟩ := h.runnable.outputFits 48 rfl
  refine .of_body h.runnable fun n => ?_
  obtain ⟨t, hread, hrest, hmem, hwritten⟩ := readIndex_quiet (s := { s with extent := n }) h.env
    (h.runnable.inputsInRange _ haux) (h.reads _ haux) hblob
  have hlatch : t.latch = s.latch := State.latch_of_rest hrest
  obtain ⟨u, cs, hwrite, hlen, hwrote⟩ :=
    h.memWrite_raises (t := t) (bs := key ++ iv) hrest (by rw [length_record hblob]; exact hrange) hj
  refine ⟨u, cs, ?_, hlen, hwrote.rest.trans hrest, by rw [hwrote.mem, hmem], by rw [hwrote.written, hwritten]⟩
  simp only [body, hread, Eng.bind, hlatch, hwrite]

theorem WriteFails.auxReads (h : WriteFails i s j) (hk : Keys i s key iv) (a : Nat) (hlo : s.latch.auxAddr.toNat ≤ a)
    (hhi : a < s.latch.auxAddr.toNat + s.latch.auxLen.toNat) : s.cfg.busErrAt a .read = false :=
  h.reads s.latch.aux (by simp [inputs_of_keys h.runnable.admitted hk]) a hlo hhi

/-- A keyed stream up to the first faulting byte of its output. -/
theorem WriteFails.streamOk {t : State} (h : WriteFails i s j) (hk : Keys i s key iv) (hkeyed : Keyed s t key iv)
    {size : Nat} (hsize : outMax i s = some size) (hj : j < size) : StreamOk t 0 s.latch.srcLen.toNat j := by
  have hsrc := src_mem_inputs h.runnable.admitted hk
  refine hkeyed.streamOk h.env h.memWf h.runnable hk hsize le_rfl hj.le (fun m hm => ?_) h.before
  exact h.reads _ hsrc _ (Nat.le_add_right _ m) (Nat.add_lt_add_left hm _)

theorem WriteFails.runRaises_encrypt (h : WriteFails i s j) (hi : i = .encryptIndex ∨ i = .encryptRaw)
    (hk : Keys i s key iv) (hj : j < (s.latch.srcLen.toNat / 16 + 1) * 16) :
    RunRaises i s .bus (s.latch.dstAddr.toNat + j) j := by
  obtain ⟨-, hdst⟩ := h.runnable.outputFits _ (outMax_encrypt hi s)
  have hfault := h.fault
  obtain ⟨t, hkeyed, hrun⟩ := run_encrypt_keyed hi h.env h.runnable hk (h.auxReads hk)
  have hok := h.streamOk hk hkeyed (outMax_encrypt hi s) hj
  rw [← State.latch_of_rest hkeyed.rest] at hdst hj hok hfault ⊢
  rw [← State.cfg_of_rest hkeyed.rest] at hfault
  exact hkeyed.runRaises hrun (encStream_quiet_busWrite hdst hj hok hfault)

theorem WriteFails.runRaises_decrypt (h : WriteFails i s j) (hi : i = .decryptIndex ∨ i = .decryptRaw)
    (hk : Keys i s key iv)
    (hplain : cbcDecrypt key iv (s.mem.readRun s.latch.srcAddr.toNat s.latch.srcLen.toNat) = some bs)
    (hj : j < bs.length) : RunRaises i s .bus (s.latch.dstAddr.toNat + j) j := by
  obtain ⟨hne, h16⟩ := srcLen_of_admitted_decrypt hi h.runnable.admitted
  obtain ⟨-, hdst⟩ := h.runnable.outputFits _ (outMax_decrypt hi s)
  have hfault := h.fault
  have hshort := length_lt_of_cbcDecrypt hplain
  rw [Memory.length_readRun] at hshort
  obtain ⟨t, hkeyed, hrun⟩ := run_decrypt_keyed hi h.env h.runnable hk (h.auxReads hk)
  have hok := h.streamOk hk hkeyed (outMax_decrypt hi s) (by omega)
  rw [← State.latch_of_rest hkeyed.rest] at hne h16 hdst hok hfault hplain ⊢
  rw [← State.cfg_of_rest hkeyed.rest] at hfault
  rw [← hkeyed.mem] at hplain
  exact hkeyed.runRaises hrun (decStream_quiet_busWrite hne h16 hdst hj hok hkeyed.key hkeyed.iv hplain hfault)

theorem WriteFails.runRaises_fingerprint (h : WriteFails (.fingerprint raw) s j)
    (hname : wellFormedUtf8 (s.mem.readRun s.latch.srcAddr.toNat s.latch.srcLen.toNat) = true)
    (hj : j < fingerprintWidth raw) : RunRaises (.fingerprint raw) s .bus (s.latch.dstAddr.toNat + j) j := by
  have hsrc : s.latch.src ∈ inputs (.fingerprint raw) s := List.mem_singleton_self _
  obtain ⟨-, hrange⟩ := h.runnable.outputFits _ rfl
  refine .of_body h.runnable fun n => ?_
  have hread : memRead s.latch.srcAddr.toNat s.latch.srcLen.toNat { s with extent := n } =
      .ok (s.mem.readRun s.latch.srcAddr.toNat s.latch.srcLen.toNat) { s with extent := n } :=
    memRead_quiet h.env (h.runnable.inputsInRange _ hsrc) (h.reads _ hsrc)
  obtain ⟨u, cs, hwrite, hlen, hwrote⟩ := writeFingerprint_quiet_bus (s := { s with extent := n })
    (s.mem.readRun s.latch.srcAddr.toNat s.latch.srcLen.toNat) raw h.env hrange hj h.before h.fault
  refine ⟨u, cs, ?_, hlen, hwrote⟩
  simp only [body, hread, Eng.bind, hname, Bool.not_true, raiseIf_false, hwrite]

theorem WriteFails.runRaises_fingerprintCat (h : WriteFails (.fingerprintCat k raw) s j)
    (hj : j < fingerprintWidth raw) :
    RunRaises (.fingerprintCat k raw) s .bus (s.latch.dstAddr.toNat + j) j := by
  obtain ⟨-, hrange⟩ := h.runnable.outputFits _ rfl
  refine .of_body h.runnable fun n => ?_
  obtain ⟨u, cs, hwrite, hlen, hwrote⟩ := writeFingerprint_quiet_bus (s := { s with extent := n }) (s.cfg.name k) raw
    h.env hrange hj h.before h.fault
  exact ⟨u, cs, by simp only [body, hwrite, Eng.bind], hlen, hwrote⟩

theorem WriteFails.runRaises_fingerprintAll (h : WriteFails (.fingerprintAll raw) s j)
    (hj : j < fingerprintWidth raw * 12) :
    RunRaises (.fingerprintAll raw) s .bus (s.latch.dstAddr.toNat + j) j := by
  obtain ⟨-, hrange⟩ := h.runnable.outputFits (12 * fingerprintWidth raw) rfl
  rw [Nat.mul_comm] at hrange
  refine .of_body h.runnable fun n => ?_
  obtain ⟨u, cs, hwrite, hlen, hwrote⟩ := writeRecords_quiet_bus (s := { s with extent := n }) (n := 12) (k := 0) raw
    h.env hrange hj h.before h.fault
  exact ⟨u, cs, by simp only [body, catCount, hwrite, Eng.bind]; rfl, hlen, hwrote⟩

theorem WriteFails.runRaises_catalogueName (h : WriteFails (.catalogueName k) s j) (hj : j < (s.cfg.name k).length) :
    RunRaises (.catalogueName k) s .bus (s.latch.dstAddr.toNat + j) j := by
  obtain ⟨-, hrange⟩ := h.runnable.outputFits _ rfl
  refine .of_body h.runnable fun n => ?_
  obtain ⟨u, cs, hwrite, hlen, hwrote⟩ := h.memWrite_raises (t := { s with extent := n }) rfl hrange hj
  exact ⟨u, cs, by simp only [body, hwrite, Eng.bind], hlen, hwrote⟩

/-- The table of FINGERPRINT_ALL has twelve fingerprints. -/
theorem length_table (f : Nat → List Byte) (sk : List Byte) (raw : Bool) :
    (((List.range 12).map fun k => fpOut (fingerprint sk (f k)) raw).flatten).length =
      fingerprintWidth raw * 12 := by
  simp only [List.length_flatten, List.map_map, Function.comp_def, length_fpOut_fingerprint, List.map_const',
    List.sum_replicate, List.length_range, smul_eq_mul, Nat.mul_comm]

/-- A plaintext is shorter than DECRYPT_*'s output extent may be long. -/
theorem lt_outSize_of_plain (hi : i = .decryptIndex ∨ i = .decryptRaw)
    (hplain : cbcDecrypt key iv (s.mem.readRun s.latch.srcAddr.toNat s.latch.srcLen.toNat) = some bs)
    (hj : j < bs.length) : j < outSize i s := by
  have hshort := length_lt_of_cbcDecrypt hplain
  rw [Memory.length_readRun] at hshort
  simp only [outSize, outMax_decrypt hi s, Option.getD_some]
  omega

/-- The first faulting byte of any command's output ends its run when the bytes before it are written (R128). -/
theorem WriteFails.runRaises (h : WriteFails i s j) (hbs : Produces i s bs) (hj : j < bs.length) :
    j < outSize i s ∧ RunRaises i s .bus (s.latch.dstAddr.toNat + j) j := by
  cases i with
  | loadSkey =>
    rw [show bs = [] from hbs] at hj
    exact absurd hj (Nat.not_lt_zero j)
  | decodeIndex =>
    obtain ⟨key, iv, hblob, rfl⟩ := hbs
    exact ⟨by rwa [length_record hblob] at hj, h.runRaises_decodeIndex hblob hj⟩
  | encryptIndex =>
    obtain ⟨key, iv, hk, rfl⟩ := hbs
    rw [length_cbcEncrypt, Memory.length_readRun] at hj
    exact ⟨hj, h.runRaises_encrypt (.inl rfl) hk hj⟩
  | encryptRaw =>
    obtain ⟨key, iv, hk, rfl⟩ := hbs
    rw [length_cbcEncrypt, Memory.length_readRun] at hj
    exact ⟨hj, h.runRaises_encrypt (.inr rfl) hk hj⟩
  | decryptIndex =>
    obtain ⟨key, iv, hk, hplain⟩ := hbs
    exact ⟨lt_outSize_of_plain (.inl rfl) hplain hj, h.runRaises_decrypt (.inl rfl) hk hplain hj⟩
  | decryptRaw =>
    obtain ⟨key, iv, hk, hplain⟩ := hbs
    exact ⟨lt_outSize_of_plain (.inr rfl) hplain hj, h.runRaises_decrypt (.inr rfl) hk hplain hj⟩
  | fingerprint raw =>
    obtain ⟨hname, rfl⟩ := hbs
    rw [length_fpOut_fingerprint] at hj
    exact ⟨hj, h.runRaises_fingerprint hname hj⟩
  | fingerprintCat k raw =>
    rw [show bs = _ from hbs, length_fpOut_fingerprint] at hj
    exact ⟨hj, h.runRaises_fingerprintCat hj⟩
  | fingerprintAll raw =>
    rw [show bs = _ from hbs, length_table] at hj
    exact ⟨by rwa [Nat.mul_comm] at hj, h.runRaises_fingerprintAll hj⟩
  | catalogueName k =>
    rw [show bs = s.cfg.name k from hbs] at hj
    exact ⟨hj, h.runRaises_catalogueName hj⟩

end

/-- Settles O50: `WriteFails.runRaises`, whose bytes written the scrub zeroes. -/
theorem busErrorOnWrite : Obligations.BusErrorOnWrite := by
  intro i s bs j hfresh hwf hrun hreads hbs hj hok hbad
  have hfails : WriteFails i s j := ⟨hfresh.1, hwf, hrun, hreads, hok, hbad⟩
  obtain ⟨hsize, hraises⟩ := hfails.runRaises hbs hj
  have hrange := outSize_range hrun
  simp only [addressSpace] at hrange
  exact hraises.scrubs hfresh hwf (by omega) (fun hne => absurd rfl hne) (by simp only [addressSpace]; omega)

end Sys2Proof.Machine
end

section
/-! PROOFS. Reset and hazards (70_reset_and_hazards.md R150 to R160): what the reset input leaves, the completion that
only a reset keeps a command from, how soon it comes, and the host steps that a running command does not see. -/

namespace Sys2Proof.Machine

open Safety

/-! ### The reset values -/

theorem resetRegisters_hardReset (s : State) (rs : List Residue) : ResetRegisters (s.hardReset rs) := by
  constructor <;> rfl

/-- The state right after reset is one that the reset input leaves. -/
theorem hardReset_reset : State.reset.hardReset [] = State.reset := rfl

/-- Settles O14: the register values are those of every reset. -/
theorem resetState : Obligations.ResetState :=
  ⟨hardReset_reset ▸ resetRegisters_hardReset State.reset [], rfl, List.length_replicate⟩

/-- Settles O18: after reset there is no command, so that the reset input keeps memory empty; the parameters are
legal ones whatever their free values are. -/
theorem resetMeetsInvariant : Obligations.ResetMeetsInvariant :=
  show Inv State.reset from hardReset_reset ▸ inv_hardReset [] Config.default_wf rfl (by decide)

/-- Settles O15: memory after the reset input is `leaveResidue`, over the extent and the journal. -/
theorem resetEvent : Obligations.ResetEvent := fun s rs hwf hrange =>
  ⟨s.hardReset rs, rfl, resetRegisters_hardReset s rs, rfl, rfl, rfl,
    fun _ hout => read_leaveResidue rs s.journal hwf hrange hout,
    fun _ hin => read_leaveResidue_mem rs s.journal hwf hrange hin⟩

/-! ### Completions -/

theorem busy_finish (s : State) (e : ErrCode) (n ea : Nat) : (s.finish e n ea).busy = false :=
  getLsbD_statusCompleted s.status 0

theorem done_finish (s : State) (e : ErrCode) (n ea : Nat) : (s.finish e n ea).done = true :=
  getLsbD_statusCompleted s.status 1

/-- An outcome that is no refusal is a next state. -/
theorem OutcomeSat.exists_next {x : Host.Outcome State Fault Refusal} {Q : State → Prop}
    (h : OutcomeSat x Q fun _ => False) : ∃ t, x = .next t ∧ Q t := by
  cases x with
  | next t => exact ⟨t, rfl, h⟩
  | fault f => exact h.elim
  | refused r => exact h.elim

/-- In plain memory the region checks refuse nothing (70_reset_and_hazards.md R155). -/
theorem not_reachesDevice_of_plain {i : Instr} {s : State} (h : PlainRegions i s) :
    ∀ r ∈ inputs i s ++ [outExtent i s], s.cfg.reachesDevice r.addr r.len = true → False := by
  intro r hr hdev
  rw [reachesDevice_eq_false (h r hr)] at hdev
  cases hdev

/-! ### Only a reset stops a command (R160) -/

theorem Turn.Sat.and {x : Turn} {Q Q' A A' : State → Prop} (h : x.Sat Q A) (h' : x.Sat Q' A') :
    x.Sat (fun t => Q t ∧ Q' t) (fun t => A t ∧ A' t) := by
  cases x with
  | ready t => exact ⟨h, h'⟩
  | aborted t => exact ⟨h, h'⟩

/-- No reset is still to come. -/
def ResetFree (t : State) : Prop := ∀ e ∈ t.env, NotReset e

theorem ResetFree.tail {t : State} {e : Event} {rest : List Event} (h : ResetFree t) (he : t.env = e :: rest) :
    ResetFree { t with env := rest } :=
  fun e' he' => h e' (he ▸ List.mem_cons_of_mem e he')

/-- With no reset to come the engine's turn comes. -/
theorem engineTurn_resetFree {t : State} (h : ResetFree t) : (engineTurn t).Sat ResetFree fun _ => False :=
  engineTurn_sat
    (fun e _ u rest hu he => (hostEvent_change e { u with env := rest }).mono
      (fun _ hc => ⟨fun e' he' => hu.tail he e' (hc.env ▸ he'), hc.env⟩)
      fun _ ⟨rs, hr, _⟩ => hu (.reset rs) (by rw [he, hr]; exact List.mem_cons_self))
    (fun _ _ hu he => hu.tail he) h

theorem lasting_resetFree (s : State) : Lasting (fun t => Running s t ∧ ResetFree t) fun _ => False where
  turn _ h := ((engineTurn_running h.1).and (engineTurn_resetFree h.2)).mono (fun _ hu => hu) fun _ hf => hf.2
  scrubbed _ _ h := ⟨⟨h.1.busy, h.1.latch, h.1.cfg⟩, h.2⟩

/-- LOAD_SKEY's store leaves the command running. -/
theorem Running.storeKey {s t : State} (h : Running s t) (bs : List Byte) : Running s (t.storeKey bs) :=
  ⟨(getLsbD_setBit t.status 2 0 true (by decide)).trans h.busy, h.latch, h.cfg⟩

theorem steady_resetFree {i : Instr} {s : State} (hplain : PlainRegions i s) :
    Steady i s (fun _ _ t => Running s t ∧ ResetFree t) (fun _ _ t => Running s t ∧ ResetFree t) (fun _ => False)
      fun _ => False where
  latch _ _ _ h := h.1.latch
  cfg _ _ _ h := h.1.cfg
  turn _ _ t h _ := (lasting_resetFree s).turn t h
  work _ _ _ _ h _ := ⟨⟨h.1.busy, h.1.latch, h.1.cfg⟩, h.2⟩
  write _ _ _ _ h _ _ _ _ := ⟨⟨h.1.busy, h.1.latch, h.1.cfg⟩, h.2⟩
  extent _ h _ := ⟨⟨h.1.busy, h.1.latch, h.1.cfg⟩, h.2⟩
  device := not_reachesDevice_of_plain hplain
  store _ _ _ bs _ _ _ _ _ h := ⟨h.1.storeKey bs, h.2⟩
  other _ _ _ _ h := h

/-- Settles O26: without a reset no turn of the engine is cut off, and a completion step ends the command. -/
theorem onlyResetStopsCommand : Obligations.OnlyResetStopsCommand := fun _ s hbusy hplain hres =>
  ((lasting_resetFree s).exec (Q := fun t => t.busy = false ∧ t.done = true) (steady_resetFree hplain)
    ⟨⟨hbusy, rfl, rfl⟩, hres⟩ (fun e n ea u _ _ _ => ⟨busy_finish u e n ea, done_finish u e n ea⟩)
    fun _ hf => hf.elim).exists_next

/-! ### A schedule of engine marks and a reset -/

/-- `n` turns of the engine, then the reset input. -/
def marks (n : Nat) (rs : List Residue) : List Event := List.replicate n .engine ++ [.reset rs]

theorem marks_ne_nil (n : Nat) (rs : List Residue) : marks n rs ≠ [] := by simp [marks]

theorem engineTurn_marks_succ {t : State} {n : Nat} {rs : List Residue} (h : t.env = marks (n + 1) rs) :
    engineTurn t = .ready { t with env := marks n rs } := engineTurn_mark h

theorem engineTurn_marks_zero {t : State} {rs : List Residue} (h : t.env = marks 0 rs) :
    engineTurn t = .aborted (t.silent.hardReset rs) := engineTurn_reset h

/-! ### Bounded completion (R160) -/

/-- `t` is a point of the command accepted in `s` with `p` bytes written, after `q` of the `n` turns that come before
the reset. -/
structure Budget (s : State) (n : Nat) (rs : List Residue) (p q : Nat) (t : State) : Prop where
  latch : t.latch = s.latch
  cfg : t.cfg = s.cfg
  env : t.env = marks (n - q) rs
  written : t.work.written.length = p

section
variable {i : Instr} {s t : State} {n p q : Nat} {rs : List Residue}

/-- A turn inside the budget is not cut off. -/
theorem Budget.turn {A : State → Prop} (h : Budget s n rs p q t) (hq : q < n) :
    (engineTurn t).Sat (Budget s n rs p (q + 1)) A := by
  have hleft : n - q = n - (q + 1) + 1 := by omega
  rw [engineTurn_marks_succ (h.env.trans (by rw [hleft]))]
  exact ⟨h.latch, h.cfg, rfl, h.written⟩

theorem steady_budget (hplain : PlainRegions i s) (hn : inputSize i s + outSize i s ≤ n) :
    Steady i s (Budget s n rs) (Budget s n rs) (fun _ => False) fun _ => False where
  latch _ _ _ h := h.latch
  cfg _ _ _ h := h.cfg
  turn _ _ _ h hq := h.turn (by omega)
  work _ _ _ _ h hw := { h with written := hw ▸ h.written }
  write _ _ _ _ h _ _ _ _ := { h with written := List.length_append.trans (congrArg (· + 1) h.written) }
  extent _ h _ := { h with }
  device := not_reachesDevice_of_plain hplain
  store _ _ _ _ _ _ _ _ _ h := { h with }
  other _ _ _ _ h := h

/-- The scrub takes one turn for each byte written (60_exceptions.md R141). -/
theorem Budget.scrub {A : State → Prop} (h : Budget s n rs p q t) (hq : q + p ≤ n) :
    (scrub t.work.written t).Sat (Budget s n rs p (q + p)) A := by
  have hsat := scrub_sat (J := fun k u => Budget s n rs p k u) (A := A) (ws := t.work.written) (k := q) h
    fun j hj u hu => (hu.turn (by have := h.written; omega)).mono (fun _ hv => { hv with }) fun _ hv => hv
  rwa [h.written] at hsat

/-- The completion step takes the last turn, with the reset still to come. -/
theorem Budget.completion {F : Refusal → Prop} (h : Budget s n rs p q t) (hq : q < n) (e : ErrCode) (m ea : Nat) :
    OutcomeSat (completion e m ea t) (fun u => u.env ≠ [] ∧ u.busy = false ∧ u.done = true) F :=
  completion_sat (A := fun _ => False) e m ea (h.turn hq)
    (fun u hu => ⟨hu.env ▸ marks_ne_nil _ rs, busy_finish u e m ea, done_finish u e m ea⟩) fun _ hf => hf.elim

end

/-- Settles O25: the turns of R160 are those of the reads and the writes, which `run_sat` counts, those of the scrub and
the completion step. -/
theorem boundedCompletion : Obligations.BoundedCompletion := by
  intro i s n rs henv hwritten hplain hbound
  have hbound : inputSize i s + 2 * outSize i s + 1 ≤ n := hbound
  have hstart : Budget s n rs 0 0 s := ⟨rfl, rfl, henv, by rw [hwritten]; rfl⟩
  refine OutcomeSat.exists_next ?_
  rw [exec_eq_conclude]
  refine conclude_sat (run_sat (steady_budget hplain (by omega)) hstart) (fun m t ht => ?success)
    (fun e ea t ht => ?error) fun _ hf => hf.elim
  case success =>
    obtain ⟨-, -, q, hq, hbudget⟩ := ht
    exact hbudget.completion (by omega) .ok m 0
  case error =>
    obtain ⟨-, -, p, q, hp, hq, hbudget⟩ := ht
    exact takeError_sat (A := fun _ => False) (hbudget.scrub (by omega))
      (fun u hu => hu.completion (by omega) e 0 _) fun _ hf => hf.elim

/-! ### A host that keeps R154 -/

section
variable {i : Instr} {s t u : State}

/-- The scrub of both runs. -/
theorem Twin.scrub (h : Twin i s t u) (ws : List Word) :
    ∃ t' u', scrub ws t = .ready t' ∧ scrub ws u = .ready u' ∧ Twin i s t' u' := by
  induction ws generalizing t u with
  | nil => exact ⟨t, u, rfl, rfl, h⟩
  | cons a ws ih =>
    obtain ⟨t', ht, hu, h'⟩ := h.turn
    simp only [Machine.scrub, ht, hu]
    exact ih { h' with
      wfL := Memory.wf_write 0 h'.wfL a.isLt
      wfR := Memory.wf_write 0 h'.wfR a.isLt
      mem := fun b hb => by rw [Memory.read_write h'.wfL, Memory.read_write h'.wfR, h'.mem b hb] }

/-- `u` shows the host the outcome that `t` shows: the result registers, the static-key store and the output extent of
the command `i` accepted in `s`. -/
def SameOutcome (i : Instr) (s t u : State) : Prop :=
  u.result = t.result ∧ u.outLen = t.outLen ∧ u.errAddr = t.errAddr ∧ u.busy = t.busy ∧ u.done = t.done ∧ KeyKept t u
    ∧ ∀ a, (outExtent i s).addr ≤ a → a < (outExtent i s).addr + (outExtent i s).len → u.mem.read a = t.mem.read a

/-- The completion step of both runs. -/
theorem Twin.completion (h : Twin i s t u) (e : ErrCode) (n ea : Nat) :
    ∃ t' u', completion e n ea t = .next t' ∧ completion e n ea u = .next u' ∧ SameOutcome i s u' t' := by
  obtain ⟨t', ht, hu, h'⟩ := h.turn
  obtain ⟨hram, hlen, hvalid⟩ := h'.key
  have hbit (v : State) : (v.finish e n ea).skeyValid = v.skeyValid := getLsbD_statusCompleted v.status 2
  refine ⟨t'.finish e n ea, u.finish e n ea, by simp only [Machine.completion, ht],
    by simp only [Machine.completion, hu], rfl, rfl, rfl, ?busy, ?done, ⟨hram, hlen, ?valid⟩, fun a hlo hhi => ?mem⟩
  case busy => rw [busy_finish, busy_finish]
  case done => rw [done_finish, done_finish]
  case valid => rw [hbit, hbit, hvalid]
  case mem => exact h'.mem a ⟨outExtent i s, List.mem_append_right _ List.mem_cons_self, hlo, hhi⟩

/-- The end of both runs: the same outcome, or the silent one is refused. -/
theorem conclude_pair {x y : Eng Nat} (h : Eng.Rel (fun _ => Twin i s) (Twin i s) x y) :
    (∃ t' u', conclude x = .next t' ∧ conclude y = .next u' ∧ SameOutcome i s u' t') ∨ ∃ r, conclude y = .refused r := by
  cases x <;> cases y <;> simp only [Eng.Rel] at h
  case ok.ok n t _ u =>
    obtain ⟨rfl, htwin⟩ := h
    exact .inl (htwin.completion .ok n 0)
  case raised.raised e ea t _ _ u =>
    obtain ⟨rfl, rfl, htwin⟩ := h
    obtain ⟨t', u', ht, hu, htwin'⟩ := htwin.scrub u.work.written
    simp only [conclude, takeError, htwin.work, ht, hu]
    exact .inl (htwin'.completion e 0 _)
  case refused.refused _ r => exact .inr ⟨r, rfl⟩

end

/-- Settles O27: the two runs stay together (`run_pair`), and so do their ends. -/
theorem respectfulHostDoesNotMatter : Obligations.RespectfulHostDoesNotMatter := by
  intro i s t hbusy hwf _ hrespects hsilent
  have htwin : Twin i s s s.silent :=
    { cfgL := rfl, cfgR := rfl, latchL := rfl, latchR := rfl, envL := hrespects, envR := rfl, busyL := hbusy, work := rfl
      key := ⟨rfl, rfl, rfl⟩, wfL := hwf, wfR := hwf, mem := fun _ _ => rfl }
  have hsilent : exec i s.silent = .next t := hsilent
  rw [exec_eq_conclude] at hsilent ⊢
  rcases conclude_pair (run_pair htwin) with ⟨u, t', hu, ht, hsame⟩ | ⟨r, hr⟩
  · cases hsilent.symm.trans ht
    exact ⟨u, hu, hsame⟩
  · cases hsilent.symm.trans hr

/-! ### A reset inside a command (R150) -/

/-- Byte `a` lies in the output extent of the command `i` accepted in `s`. -/
def InOutput (i : Instr) (s : State) (a : Nat) : Prop :=
  (outExtent i s).addr ≤ a ∧ a < (outExtent i s).addr + (outExtent i s).len

/-- `t` is a point of the command `i` accepted in `s`, with nothing but engine marks before the reset: the command has
kept to its output extent. -/
structure Confined (i : Instr) (rs : List Residue) (s t : State) : Prop where
  env : ∃ n, t.env = marks n rs
  latch : t.latch = s.latch
  cfg : t.cfg = s.cfg
  memWf : t.mem.wf = true
  extent : t.extent ≤ outSize i s
  range : s.latch.dstAddr.toNat + t.extent ≤ addressSpace
  written : ∀ w ∈ t.work.written, InOutput i s w.toNat
  mem : ∀ a, ¬InOutput i s a → t.mem.read a = s.mem.read a

/-- `t` is what a reset leaves of the command `i` accepted in `s`. -/
def Abandoned (i : Instr) (s t : State) : Prop :=
  t.env = [] ∧ ResetRegisters t ∧ t.doneIp = false ∧ ∀ a, ¬InOutput i s a → t.mem.read a = s.mem.read a

section
variable {i : Instr} {rs : List Residue} {s t : State}

theorem Confined.hardReset (h : Confined i rs s t) : Abandoned i s (t.silent.hardReset rs) := by
  refine ⟨rfl, resetRegisters_hardReset _ rs, BitVec.getLsbD_zero, fun a ha => ?_⟩
  have hout : ¬(t.latch.dstAddr.toNat ≤ a ∧ a < t.latch.dstAddr.toNat + t.extent) := fun ⟨hlo, hhi⟩ => by
    rw [h.latch] at hlo hhi
    exact ha ⟨hlo, hhi.trans_le (Nat.add_le_add_left h.extent _)⟩
  exact (read_leaveResidue rs t.journal h.memWf (h.latch ▸ h.range) hout).trans (h.mem a ha)

/-- A turn comes, or the reset abandons the command. -/
theorem Confined.turn (h : Confined i rs s t) : (engineTurn t).Sat (Confined i rs s) (Abandoned i s) := by
  obtain ⟨n, hn⟩ := h.env
  cases n with
  | zero =>
    rw [engineTurn_marks_zero hn]
    exact h.hardReset
  | succ n =>
    rw [engineTurn_marks_succ hn]
    exact { h with env := ⟨n, rfl⟩ }

theorem Confined.store {a : Nat} (h : Confined i rs s t) (v : Byte) (ha : a < addressSpace) (hin : InOutput i s a) :
    Confined i rs s { t with mem := t.mem.write a v } :=
  { h with
    memWf := Memory.wf_write v h.memWf ha
    mem := fun b hb => by
      rw [Memory.read_write h.memWf, if_neg (show b ≠ a by rintro rfl; exact hb hin)]
      exact h.mem b hb }

theorem Confined.engineWrite {a : Nat} (h : Confined i rs s t) (v : Byte) (ha : a < addressSpace)
    (hin : InOutput i s a) : Confined i rs s (t.engineWrite a v) :=
  have hstore := h.store v ha hin
  { hstore with
    written := fun w hw => by
      rcases List.mem_append.mp hw with hw | hw
      · exact h.written w hw
      · rw [List.mem_singleton.mp hw, BitVec.toNat_ofNat, Nat.mod_eq_of_lt (show a < 2 ^ 32 from ha)]
        exact hin }

theorem steady_confined (i : Instr) (rs : List Residue) (s : State) :
    Steady i s (fun _ _ => Confined i rs s) (fun _ _ => Confined i rs s) (Abandoned i s) fun _ => True where
  latch _ _ _ h := h.latch
  cfg _ _ _ h := h.cfg
  turn _ _ _ h _ := h.turn
  work _ _ _ _ h hw := { h with written := hw ▸ h.written }
  write _ _ _ v h hp hrange _ _ := h.engineWrite v (by omega) ⟨Nat.le_add_right _ _, Nat.add_lt_add_left hp _⟩
  extent _ h hrange := { h with extent := le_rfl, range := hrange }
  device _ _ _ := trivial
  store _ _ _ _ _ _ _ _ _ h := { h with }
  other _ _ _ _ h := h

/-- The command has completed, with the reset still to come. -/
def CompletedFirst (t : State) : Prop := t.env ≠ [] ∧ t.busy = false ∧ t.done = true

theorem Confined.completion (h : Confined i rs s t) (e : ErrCode) (n ea : Nat) :
    OutcomeSat (completion e n ea t) (fun u => CompletedFirst u ∨ Abandoned i s u) fun _ => True :=
  completion_sat e n ea h.turn
    (fun u hu => by
      obtain ⟨m, hm⟩ := hu.env
      exact .inl ⟨hm ▸ marks_ne_nil m rs, busy_finish u e n ea, done_finish u e n ea⟩)
    fun _ => .inr

/-- The scrub keeps to the bytes that the command has written. -/
theorem Confined.scrub (h : Confined i rs s t) :
    (scrub t.work.written t).Sat (Confined i rs s) (Abandoned i s) :=
  scrub_sat (J := fun _ => Confined i rs s) (k := 0) h fun _ hj _ hu =>
    hu.turn.mono (fun _ hv => hv.store 0 (BitVec.isLt _) (h.written _ (List.getElem_mem hj))) fun _ hv => hv

/-- A command with a reset to come completes before it, or is abandoned. -/
theorem exec_confined (h : Confined i rs s s) :
    OutcomeSat (exec i s) (fun t => CompletedFirst t ∨ Abandoned i s t) fun _ => True := by
  rw [exec_eq_conclude]
  refine conclude_sat (run_sat (steady_confined i rs s) h) (fun n t ht => ?success) (fun e ea t ht => ?error)
    fun _ => .inr
  case success =>
    obtain ⟨-, -, _, -, hconf⟩ := ht
    exact hconf.completion .ok n 0
  case error =>
    obtain ⟨-, -, _, _, -, -, hconf⟩ := ht
    exact takeError_sat hconf.scrub (fun _ hu => hu.completion e 0 _) fun _ => .inr

end

/-! ### The output extent of an abandoned command -/

section
variable {i : Instr} {rs : List Residue} {s t u v : State} {n : Nat}

/-- The bytes that a successful silent run has written lie in the address space. -/
theorem range_of_run_ok (henv : s.env = []) (h : run i s = .ok n v) :
    s.latch.dstAddr.toNat + n ≤ addressSpace := by
  have hsteady : Steady i s (fun p _ => Silent s p) (fun p _ _ => s.latch.dstAddr.toNat + p ≤ addressSpace)
      (fun _ => False) (fun _ => True) :=
    { steady_silent (F := fun _ => True) henv fun _ _ _ => trivial with
      store := fun _ _ _ _ _ _ _ _ _ h => h.range
      other := fun _ _ _ _ h => h.range }
  have hsat := run_sat hsteady (.start s)
  rw [h] at hsat
  obtain ⟨-, -, _, -, hrange⟩ := hsat
  exact hrange

/-- RESULT is 0 after a success alone (60_exceptions.md R124). -/
theorem ErrCode.code_ne_zero (e : ErrCode) (h : e ≠ .ok) : e.code ≠ 0 := by
  cases e with
  | ok => exact absurd rfl h
  | _ => decide

/-- A silent command whose RESULT is 0 has run to a success. -/
theorem run_ok_of_result (henv : s.env = []) (hwf : s.mem.wf = true) (hw : s.work.written = []) (hj : s.journal = [])
    (hexec : exec i s = .next u) (hres : u.result = 0) :
    ∃ n v, run i s = .ok n v ∧ Booked s n v ∧ u.mem = v.mem := by
  have hbooked := booked_run (i := i) henv hwf hw hj
  rw [exec_eq_conclude] at hexec
  cases hx : run i s with
  | ok n v =>
    rw [hx] at hbooked hexec
    obtain ⟨-, hb⟩ := hbooked
    rw [conclude_ok_quiet n hb.env] at hexec
    cases hexec
    exact ⟨n, v, rfl, hb, rfl⟩
  | raised e ea v =>
    rw [hx] at hbooked hexec
    obtain ⟨hne, p, hb⟩ := hbooked
    rw [conclude_raised_quiet e ea hb.env] at hexec
    cases hexec
    exact absurd hres (e.code_ne_zero hne)
  | aborted v => rw [hx] at hbooked; exact hbooked.elim
  | refused r => rw [hx] at hexec; cases hexec
  | faulted f => rw [hx] at hbooked; exact hbooked.elim

/-- A command with a reset to come whose silent run succeeds: cut off, it is behind the silent run. -/
theorem exec_cut (h : Underway rs s s) (hok : run i s.silent = .ok n v) (hexec : exec i s = .next t)
    (henv : t.env = []) : ∃ c, Underway rs s c ∧ t = c.silent.hardReset rs ∧ Ahead c v := by
  have hcut := (cuttable_run i).cut s h
  rw [hok] at hcut
  rw [exec_eq_conclude] at hexec
  cases hx : run i s with
  | ok m c =>
    rw [hx] at hcut hexec
    obtain ⟨heq, hc⟩ := hcut
    cases heq
    rw [conclude, completion] at hexec
    rcases hc.turn with ⟨w, hturn, -, hw⟩ | hturn
    · rw [hturn] at hexec
      cases hexec
      obtain ⟨m, hm⟩ := hw.env
      exact absurd (hm.symm.trans henv) (marks_ne_nil m rs)
    · rw [hturn] at hexec
      cases hexec
      exact ⟨c, hc, rfl, List.prefix_rfl, List.prefix_rfl⟩
  | raised e ea c =>
    rw [hx] at hcut
    obtain ⟨heq, -⟩ := hcut
    cases heq
  | aborted c' =>
    rw [hx] at hcut hexec
    obtain ⟨c, hc, rfl, hahead⟩ := hcut
    cases hexec
    exact ⟨c, hc, rfl, hahead n v rfl⟩
  | refused r => rw [hx] at hexec; cases hexec
  | faulted f => rw [hx] at hexec; cases hexec

theorem getElem?_of_isPrefix {α : Type} {l l' : List α} {k : Nat} {x : α} (h : l <+: l') (hk : l[k]? = some x) :
    l'[k]? = some x := by
  obtain ⟨m, rfl⟩ := h
  rw [List.getElem?_append_left (List.getElem?_eq_some_iff.mp hk).1, hk]

/-- An entry of the journal of a run that is behind a silent one: the old byte, and the byte the silent run leaves. -/
theorem Booked.entry {s' c : State} {k : Nat} {p : Byte × Byte} (h : Booked s' n v) (hahead : Ahead c v)
    (hp : c.journal[k]? = some p) :
    k < n ∧ p = (s'.mem.read (s'.latch.dstAddr.toNat + k), v.mem.read (s'.latch.dstAddr.toNat + k)) := by
  have hpv := getElem?_of_isPrefix hahead.journal hp
  have hk : k < n := h.size ▸ (List.getElem?_eq_some_iff.mp hpv).1
  exact ⟨hk, Option.some.inj (hpv.symm.trans (h.journal k hk))⟩

/-- A byte from L.DST_ADDR on, at a point that is behind a silent run: the old one, or the one that run leaves. -/
theorem Underway.read_behind {c : State} (h : Underway rs s c) (hbooked : Booked s.silent n v) (hahead : Ahead c v)
    (hrange : s.latch.dstAddr.toNat + n ≤ addressSpace) (k : Nat) :
    c.mem.read (s.latch.dstAddr.toNat + k) = s.mem.read (s.latch.dstAddr.toNat + k) ∨
      c.mem.read (s.latch.dstAddr.toNat + k) = v.mem.read (s.latch.dstAddr.toNat + k) := by
  refine (h.mem _).imp_right fun ⟨j, w, p, hw, hwaddr, hp, hread⟩ => ?_
  obtain ⟨hj, rfl⟩ := hbooked.entry hahead hp
  have hwv := getElem?_of_isPrefix hahead.written hw
  rw [hbooked.written] at hwv
  obtain ⟨-, rfl⟩ := getElem?_addresses hwv
  have haddr : s.latch.dstAddr.toNat + j < 2 ^ 32 := by simp only [addressSpace] at hrange; omega
  have hjk : j = k := by
    rw [show s.silent.latch = s.latch from rfl, BitVec.toNat_ofNat, Nat.mod_eq_of_lt haddr] at hwaddr
    omega
  exact hjk ▸ hread

/-- A byte from L.DST_ADDR on after the reset that cut the command off there. -/
theorem Underway.read_hardReset {c : State} (h : Underway rs s c) (hbooked : Booked s.silent n v) (hahead : Ahead c v)
    (hrange : s.latch.dstAddr.toNat + n ≤ addressSpace) (k : Nat) :
    let b := (c.silent.hardReset rs).mem.read (s.latch.dstAddr.toNat + k)
    b = s.mem.read (s.latch.dstAddr.toNat + k) ∨ b = 0 ∨ b = v.mem.read (s.latch.dstAddr.toNat + k) := by
  have hbehind := h.read_behind hbooked hahead hrange k
  have hmem : (c.silent.hardReset rs).mem = leaveResidue rs c.extent s.latch.dstAddr.toNat c.journal c.mem := by
    rw [← h.latch]
    rfl
  rw [hmem]
  by_cases hk : k < c.extent
  · rcases read_leaveResidue_mem rs c.journal h.memWf h.extent hk with hasIs | hzero | ⟨p, hp, hold | hwritten⟩
    · rw [hasIs]
      exact hbehind.imp_right .inr
    · exact .inr (.inl hzero)
    · obtain ⟨-, rfl⟩ := hbooked.entry hahead hp
      exact .inl hold
    · obtain ⟨-, rfl⟩ := hbooked.entry hahead hp
      exact .inr (.inr hwritten)
  · rw [read_leaveResidue rs c.journal h.memWf h.extent (by omega)]
    exact hbehind.imp_right .inr

end

/-- Settles O16: `exec_confined` tells a completed command from an abandoned one; of the bytes in the output extent,
`exec_cut` sets the abandoned command beside its silent run. -/
theorem resetAbandonsCommand : Obligations.ResetAbandonsCommand := by
  intro i s t n rs henv hwf hw hj hext hexec
  have hrange : s.latch.dstAddr.toNat + s.extent ≤ addressSpace := hext ▸ s.latch.dstAddr.isLt.le
  have hconfined : Confined i rs s s :=
    ⟨⟨n, henv⟩, rfl, rfl, hwf, hext ▸ Nat.zero_le _, hrange, by simp [hw], fun _ _ => rfl⟩
  have hunderway : Underway rs s s := ⟨⟨n, henv⟩, rfl, hwf, hrange, by rw [hw, hj]; rfl, fun _ => .inl rfl⟩
  refine ((exec_confined hconfined).of_next hexec).imp id fun ⟨hdone, hregs, hip, hout⟩ =>
    ⟨hdone, hregs, hip, hout, fun a hlo hhi u hsilent hresult => ?_⟩
  obtain ⟨m, v, hok, hbooked, hmem⟩ := run_ok_of_result (s := s.silent) rfl hwf hw hj hsilent hresult
  obtain ⟨c, hc, rfl, hahead⟩ := exec_cut hunderway hok hexec hdone
  obtain ⟨k, rfl⟩ := Nat.exists_eq_add_of_le hlo
  rw [hmem]
  exact hc.read_hardReset hbooked hahead (range_of_run_ok (s := s.silent) rfl hok) k

end Sys2Proof.Machine
end
